-- ==== Sys2Proof/Word.lean ====
section
/-! DEFINITION. The two word types of the hardware: the byte every access moves (R71) and the 32-bit register word (R28). -/

namespace Sys2Proof

/-- A byte of one of the five spaces (R60). -/
abbrev Byte := BitVec 8

/-- A host-visible register (R28), and the bit accumulator (R21). -/
abbrev Word := BitVec 32

end Sys2Proof
end

