-- ==== Sys2Proof/Config.lean ====
section
/-! DEFINITION. What is fixed for an instance of the hardware: the constants of R6, the parameters of R7, the shape of a
Huffman table (R33), and the free values the spec leaves unspecified (constants without a body). -/

namespace Sys2Proof

/-- The five address spaces of R60. -/
inductive Space where
  | inn | out | row0 | row1 | img
deriving DecidableEq, Repr

/-- One Huffman table (R33). The entry counts are 512, 16, 16, 17 and twice the table's capacity. -/
structure HuffTable where
  /-- 0 is empty, else `len * 512 + sym`. -/
  fast : List (BitVec 16)
  firstCode : List (BitVec 16)
  firstSymbol : List (BitVec 9)
  maxCode : List (BitVec 17)
  lengths : List (BitVec 4)
  symbols : List (BitVec 9)
deriving DecidableEq, Repr, Inhabited

/-- A table of capacity `cap` with every entry 0 (R152). -/
def HuffTable.zero (cap : Nat) : HuffTable where
  fast := List.replicate 512 0
  firstCode := List.replicate 16 0
  firstSymbol := List.replicate 16 0
  maxCode := List.replicate 17 0
  lengths := List.replicate cap 0
  symbols := List.replicate cap 0

/-- The parameters of R7 that can be observed; no step changes them. -/
structure Caps where
  inCap : Nat
  outCapMax : Nat
  rowCap : Nat
  imgCap : Nat
deriving DecidableEq, Repr

namespace Config

/-- Capacity of a literal/length table (R6, R34). -/
def nLL : Nat := 288
/-- Capacity of a distance table (R6, R34). -/
def nD : Nat := 32
/-- Capacity of the code-length table (R6, R34). -/
def nCL : Nat := 19
/-- Largest legal width and height (R6). -/
def dimMax : Nat := 2 ^ 24
/-- Every byte count of SLR is below this (R6, R301). -/
def sizeLimit : Nat := 2 ^ 32

/-- The largest values R7 allows, which drop the bounds.
DESIGN CHOICE (assumption 4): the parameters are OPEN; the reset state takes the largest. -/
def capsLargest : Caps where
  inCap := 2 ^ 32 - 1
  outCapMax := 2 ^ 32 - 1
  rowCap := 2 ^ 26
  imgCap := 2 ^ 32 - 1

/-- What a byte that nothing has written since the `epoch`-th reset holds (R410, U2, U5), or since the space last became
unspecified for the `spoil`-th time (R407, U6): unspecified (assumptions 2, 9). -/
opaque unwrittenByte : (epoch spoil : Nat) → Space → (addr : Nat) → Byte

/-- With both units busy, for the `draw`-th time, INF and not SLR takes the step (R407): unspecified (assumption 9). -/
opaque freeTurn : (draw : Nat) → Bool

/-- `acc` after the `draw`-th INF fault (R370, U1): unspecified (assumption 3). -/
opaque freeAcc : (draw : Nat) → Word
/-- `cnt` after an INF fault (R370, U1; assumption 3). -/
opaque freeCnt : (draw : Nat) → BitVec 6
/-- `ipos` after an INF fault (R370, U1; assumption 3). -/
opaque freeIpos : (draw : Nat) → Word
/-- `final_seen` after an INF fault (R370, U1; assumption 3). -/
opaque freeFinalSeen : (draw : Nat) → Bool
/-- `tsel` after an INF fault, true for DYNAMIC (R370, U1; assumption 3). -/
opaque freeTsel : (draw : Nat) → Bool
/-- `DYN_LL` after an INF fault (R370, U1, U7; assumption 3). -/
opaque freeDynLL : (draw : Nat) → HuffTable
/-- `DYN_D` after an INF fault (R370, U1, U7; assumption 3). -/
opaque freeDynD : (draw : Nat) → HuffTable
/-- `CL_T` after an INF fault (R370, U1, U7; assumption 3). -/
opaque freeClT : (draw : Nat) → HuffTable
/-- `cl_len` after an INF fault (U1; assumption 3). -/
opaque freeClLen : (draw : Nat) → List (BitVec 3)
/-- `lens` after an INF fault (U1; assumption 3). -/
opaque freeLens : (draw : Nat) → List (BitVec 4)

end Config
end Sys2Proof
end

