-- ==== Sys2Proof/Syntax.lean ====
section
/-! DEFINITION. The stream elements (R92 to R99, R117, R118): one constructor for each mnemonic of the opcode table. A
constructor carries the operands of the element: its fixed-width fields and, for a Huffman-coded symbol, the extra bits that
follow the code. The payload of a stored block, the 3-bit lengths of a dynamic header and the bytes of a row are read by the
meaning. -/

namespace Sys2Proof

/-- The formats of R117: what kind of word the machine reads next. -/
inductive Format where
  | zhdr | bhdr | stored | dynhdr | clsym | llsym | dsym | filt | filt0
deriving DecidableEq, Repr

/-- The instructions: the rows of the opcode table. -/
inductive Instr where
  /-- zlib header (R181). -/
  | zhdr (cmf flg : Byte)
  /-- block header, BTYPE 0 (R184). -/
  | blkStored (bfinal : Bool)
  /-- block header, BTYPE 1 (R191). -/
  | blkFixed (bfinal : Bool)
  /-- block header, BTYPE 2 (R185). -/
  | blkDynamic (bfinal : Bool)
  /-- block header, BTYPE 3, reserved (R186). -/
  | blkRsvd (bfinal : Bool)
  /-- body of a stored block (R188): its LEN and NLEN. -/
  | storedData (len nlen : BitVec 16)
  /-- dynamic header (R193): the fields HLIT, HDIST, HCLEN as they stand in the stream. -/
  | dyn (hlit hdist : BitVec 5) (hclen : BitVec 4)
  /-- code-length symbol 0 to 15 (R201). -/
  | cl (n : BitVec 4)
  /-- code-length symbol 16 and REP2 (R202). -/
  | cl16 (rep : BitVec 2)
  /-- code-length symbol 17 and REP3 (R203). -/
  | cl17 (rep : BitVec 3)
  /-- code-length symbol 18 and REP7 (R204). -/
  | cl18 (rep : BitVec 7)
  /-- literal byte (R221). -/
  | lit (b : Byte)
  /-- end of block (R222). -/
  | eob
  /-- LL symbol 257 (R225). -/
  | len257
  /-- LL symbol 258 (R226). -/
  | len258
  /-- LL symbol 259 (R227). -/
  | len259
  /-- LL symbol 260 (R228). -/
  | len260
  /-- LL symbol 261 (R229). -/
  | len261
  /-- LL symbol 262 (R230). -/
  | len262
  /-- LL symbol 263 (R231). -/
  | len263
  /-- LL symbol 264 (R232). -/
  | len264
  /-- LL symbol 265 (R233). -/
  | len265 (e : BitVec 1)
  /-- LL symbol 266 (R234). -/
  | len266 (e : BitVec 1)
  /-- LL symbol 267 (R235). -/
  | len267 (e : BitVec 1)
  /-- LL symbol 268 (R236). -/
  | len268 (e : BitVec 1)
  /-- LL symbol 269 (R237). -/
  | len269 (e : BitVec 2)
  /-- LL symbol 270 (R238). -/
  | len270 (e : BitVec 2)
  /-- LL symbol 271 (R239). -/
  | len271 (e : BitVec 2)
  /-- LL symbol 272 (R240). -/
  | len272 (e : BitVec 2)
  /-- LL symbol 273 (R241). -/
  | len273 (e : BitVec 3)
  /-- LL symbol 274 (R242). -/
  | len274 (e : BitVec 3)
  /-- LL symbol 275 (R243). -/
  | len275 (e : BitVec 3)
  /-- LL symbol 276 (R244). -/
  | len276 (e : BitVec 3)
  /-- LL symbol 277 (R245). -/
  | len277 (e : BitVec 4)
  /-- LL symbol 278 (R246). -/
  | len278 (e : BitVec 4)
  /-- LL symbol 279 (R247). -/
  | len279 (e : BitVec 4)
  /-- LL symbol 280 (R248). -/
  | len280 (e : BitVec 4)
  /-- LL symbol 281 (R249). -/
  | len281 (e : BitVec 5)
  /-- LL symbol 282 (R250). -/
  | len282 (e : BitVec 5)
  /-- LL symbol 283 (R251). -/
  | len283 (e : BitVec 5)
  /-- LL symbol 284 (R252). -/
  | len284 (e : BitVec 5)
  /-- LL symbol 285 (R253). -/
  | len285
  /-- LL symbol 286 (`hi` = 0) or 287 (`hi` = 1), reserved (R254). -/
  | llRsvd (hi : BitVec 1)
  /-- D symbol 0 (R261). -/
  | dist0
  /-- D symbol 1 (R262). -/
  | dist1
  /-- D symbol 2 (R263). -/
  | dist2
  /-- D symbol 3 (R264). -/
  | dist3
  /-- D symbol 4 (R265). -/
  | dist4 (f : BitVec 1)
  /-- D symbol 5 (R266). -/
  | dist5 (f : BitVec 1)
  /-- D symbol 6 (R267). -/
  | dist6 (f : BitVec 2)
  /-- D symbol 7 (R268). -/
  | dist7 (f : BitVec 2)
  /-- D symbol 8 (R269). -/
  | dist8 (f : BitVec 3)
  /-- D symbol 9 (R270). -/
  | dist9 (f : BitVec 3)
  /-- D symbol 10 (R271). -/
  | dist10 (f : BitVec 4)
  /-- D symbol 11 (R272). -/
  | dist11 (f : BitVec 4)
  /-- D symbol 12 (R273). -/
  | dist12 (f : BitVec 5)
  /-- D symbol 13 (R274). -/
  | dist13 (f : BitVec 5)
  /-- D symbol 14 (R275). -/
  | dist14 (f : BitVec 6)
  /-- D symbol 15 (R276). -/
  | dist15 (f : BitVec 6)
  /-- D symbol 16 (R277). -/
  | dist16 (f : BitVec 7)
  /-- D symbol 17 (R278). -/
  | dist17 (f : BitVec 7)
  /-- D symbol 18 (R279). -/
  | dist18 (f : BitVec 8)
  /-- D symbol 19 (R280). -/
  | dist19 (f : BitVec 8)
  /-- D symbol 20 (R281). -/
  | dist20 (f : BitVec 9)
  /-- D symbol 21 (R282). -/
  | dist21 (f : BitVec 9)
  /-- D symbol 22 (R283). -/
  | dist22 (f : BitVec 10)
  /-- D symbol 23 (R284). -/
  | dist23 (f : BitVec 10)
  /-- D symbol 24 (R285). -/
  | dist24 (f : BitVec 11)
  /-- D symbol 25 (R286). -/
  | dist25 (f : BitVec 11)
  /-- D symbol 26 (R287). -/
  | dist26 (f : BitVec 12)
  /-- D symbol 27 (R288). -/
  | dist27 (f : BitVec 12)
  /-- D symbol 28 (R289). -/
  | dist28 (f : BitVec 13)
  /-- D symbol 29 (R290). -/
  | dist29 (f : BitVec 13)
  /-- D symbol 30 (`hi` = 0) or 31 (`hi` = 1), reserved (R292). -/
  | dRsvd (hi : BitVec 1)
  /-- filter byte 0, row 1 and on (R310). -/
  | rowNone
  /-- filter byte 1, row 1 and on (R311). -/
  | rowSub
  /-- filter byte 2, row 1 and on (R312). -/
  | rowUp
  /-- filter byte 3, row 1 and on (R313). -/
  | rowAvg
  /-- filter byte 4, row 1 and on (R314). -/
  | rowPaeth
  /-- filter byte 5 to 255, row 1 and on (R305). -/
  | rowInvalid (ft : Byte)
  /-- filter byte 0 in row 0 (R306, R310). -/
  | row0None
  /-- filter byte 1 in row 0 (R306, R311). -/
  | row0Sub
  /-- filter byte 2 in row 0 (R306, R310). -/
  | row0Up
  /-- filter byte 3 in row 0 (R306, R315). -/
  | row0Avg
  /-- filter byte 4 in row 0 (R306, R311). -/
  | row0Paeth
  /-- filter byte 5 to 255 in row 0 (R305). -/
  | row0Invalid (ft : Byte)
deriving DecidableEq, Repr

end Sys2Proof
end

