-- ==== Sys2Proof/WellFormed.lean ====
section
/-! DEFINITION. Which terms of `Instr` stand for an element of the stream. The operand widths are in the types; what is left
is the filter byte of the two rows for illegal filters, which is 5 to 255 (R105, R305). -/

namespace Sys2Proof

/-- The instruction stands for an element some word encodes (R105, R115, R117). -/
def Instr.wf : Instr → Bool
  | .rowInvalid ft => decide (5 ≤ ft.toNat)
  | .row0Invalid ft => decide (5 ≤ ft.toNat)
  | .zhdr _ _ | .blkStored _ | .blkFixed _ | .blkDynamic _ | .blkRsvd _ | .storedData _ _ | .dyn _ _ _ | .cl _
  | .cl16 _ | .cl17 _ | .cl18 _ | .lit _ | .eob | .len257 | .len258 | .len259 | .len260 | .len261 | .len262
  | .len263 | .len264 | .len265 _ | .len266 _ | .len267 _ | .len268 _ | .len269 _ | .len270 _ | .len271 _
  | .len272 _ | .len273 _ | .len274 _ | .len275 _ | .len276 _ | .len277 _ | .len278 _ | .len279 _ | .len280 _
  | .len281 _ | .len282 _ | .len283 _ | .len284 _ | .len285 | .llRsvd _ | .dist0 | .dist1 | .dist2 | .dist3
  | .dist4 _ | .dist5 _ | .dist6 _ | .dist7 _ | .dist8 _ | .dist9 _ | .dist10 _ | .dist11 _ | .dist12 _ | .dist13 _
  | .dist14 _ | .dist15 _ | .dist16 _ | .dist17 _ | .dist18 _ | .dist19 _ | .dist20 _ | .dist21 _ | .dist22 _
  | .dist23 _ | .dist24 _ | .dist25 _ | .dist26 _ | .dist27 _ | .dist28 _ | .dist29 _ | .dRsvd _ | .rowNone
  | .rowSub | .rowUp | .rowAvg | .rowPaeth | .row0None | .row0Sub | .row0Up | .row0Avg | .row0Paeth => true

end Sys2Proof
end

