-- ==== Sys2Proof/Decode.lean ====
section
/-! DEFINITION. The decoder and the encoder (R92 to R107, R117, R118). A word of a format is the number R117 gives it (for a
Huffman-coded symbol the symbol number); the extra bits after a Huffman code stand beside it. -/

namespace Sys2Proof

/-- Why a word is rejected: no row of its format matches it (R102, R103, R104, R117). -/
inductive DecodeError where
  | noRow (f : Format) (word : Nat)
deriving DecidableEq, Repr

/-- LEN_EXTRA of R224, indexed by the LL symbol minus 257. -/
def lenExtra : List Nat :=
  [0, 0, 0, 0, 0, 0, 0, 0, 1, 1, 1, 1, 2, 2, 2, 2, 3, 3, 3, 3, 4, 4, 4, 4, 5, 5, 5, 5, 0]

/-- DIST_EXTRA of R260, indexed by the D symbol. -/
def distExtra : List Nat :=
  [0, 0, 0, 0, 1, 1, 2, 2, 3, 3, 4, 4, 5, 5, 6, 6, 7, 7, 8, 8, 9, 9, 10, 10, 11, 11, 12, 12, 13, 13]

/-- How many extra bits follow a code-length symbol (R96). -/
def clExtra (sym : Nat) : Nat :=
  if sym = 16 then 2 else if sym = 17 then 3 else if sym = 18 then 7 else 0

/-- How many extra bits follow the code of an LL symbol (R97, R224); none after a reserved symbol (R254). -/
def llExtra (sym : Nat) : Nat :=
  if sym < 257 then 0 else lenExtra.getD (sym - 257) 0

/-- How many extra bits follow the code of a D symbol (R97, R260); none after a reserved symbol (R292). -/
def dExtra (sym : Nat) : Nat :=
  distExtra.getD sym 0

/-- How many extra bits follow a word of the format. -/
def extraBits : Format → (word : Nat) → Nat
  | .clsym, w => clExtra w
  | .llsym, w => llExtra w
  | .dsym, w => dExtra w
  | .zhdr, _ | .bhdr, _ | .stored, _ | .dynhdr, _ | .filt, _ | .filt0, _ => 0

/-- The bit of a Boolean field. -/
def bit (b : Bool) : Nat := if b then 1 else 0

/-- The length symbols 257 to 287 by length code (R102, R225 to R254). -/
def decodeLen (code extra : Nat) : Option Instr :=
  match code with
  | 0 => some .len257
  | 1 => some .len258
  | 2 => some .len259
  | 3 => some .len260
  | 4 => some .len261
  | 5 => some .len262
  | 6 => some .len263
  | 7 => some .len264
  | 8 => some (.len265 (BitVec.ofNat 1 extra))
  | 9 => some (.len266 (BitVec.ofNat 1 extra))
  | 10 => some (.len267 (BitVec.ofNat 1 extra))
  | 11 => some (.len268 (BitVec.ofNat 1 extra))
  | 12 => some (.len269 (BitVec.ofNat 2 extra))
  | 13 => some (.len270 (BitVec.ofNat 2 extra))
  | 14 => some (.len271 (BitVec.ofNat 2 extra))
  | 15 => some (.len272 (BitVec.ofNat 2 extra))
  | 16 => some (.len273 (BitVec.ofNat 3 extra))
  | 17 => some (.len274 (BitVec.ofNat 3 extra))
  | 18 => some (.len275 (BitVec.ofNat 3 extra))
  | 19 => some (.len276 (BitVec.ofNat 3 extra))
  | 20 => some (.len277 (BitVec.ofNat 4 extra))
  | 21 => some (.len278 (BitVec.ofNat 4 extra))
  | 22 => some (.len279 (BitVec.ofNat 4 extra))
  | 23 => some (.len280 (BitVec.ofNat 4 extra))
  | 24 => some (.len281 (BitVec.ofNat 5 extra))
  | 25 => some (.len282 (BitVec.ofNat 5 extra))
  | 26 => some (.len283 (BitVec.ofNat 5 extra))
  | 27 => some (.len284 (BitVec.ofNat 5 extra))
  | 28 => some .len285
  | 29 => some (.llRsvd 0)
  | 30 => some (.llRsvd 1)
  | _ => none

/-- The distance symbols 0 to 31 (R103, R261 to R292). -/
def decodeDist (sym extra : Nat) : Option Instr :=
  match sym with
  | 0 => some .dist0
  | 1 => some .dist1
  | 2 => some .dist2
  | 3 => some .dist3
  | 4 => some (.dist4 (BitVec.ofNat 1 extra))
  | 5 => some (.dist5 (BitVec.ofNat 1 extra))
  | 6 => some (.dist6 (BitVec.ofNat 2 extra))
  | 7 => some (.dist7 (BitVec.ofNat 2 extra))
  | 8 => some (.dist8 (BitVec.ofNat 3 extra))
  | 9 => some (.dist9 (BitVec.ofNat 3 extra))
  | 10 => some (.dist10 (BitVec.ofNat 4 extra))
  | 11 => some (.dist11 (BitVec.ofNat 4 extra))
  | 12 => some (.dist12 (BitVec.ofNat 5 extra))
  | 13 => some (.dist13 (BitVec.ofNat 5 extra))
  | 14 => some (.dist14 (BitVec.ofNat 6 extra))
  | 15 => some (.dist15 (BitVec.ofNat 6 extra))
  | 16 => some (.dist16 (BitVec.ofNat 7 extra))
  | 17 => some (.dist17 (BitVec.ofNat 7 extra))
  | 18 => some (.dist18 (BitVec.ofNat 8 extra))
  | 19 => some (.dist19 (BitVec.ofNat 8 extra))
  | 20 => some (.dist20 (BitVec.ofNat 9 extra))
  | 21 => some (.dist21 (BitVec.ofNat 9 extra))
  | 22 => some (.dist22 (BitVec.ofNat 10 extra))
  | 23 => some (.dist23 (BitVec.ofNat 10 extra))
  | 24 => some (.dist24 (BitVec.ofNat 11 extra))
  | 25 => some (.dist25 (BitVec.ofNat 11 extra))
  | 26 => some (.dist26 (BitVec.ofNat 12 extra))
  | 27 => some (.dist27 (BitVec.ofNat 12 extra))
  | 28 => some (.dist28 (BitVec.ofNat 13 extra))
  | 29 => some (.dist29 (BitVec.ofNat 13 extra))
  | 30 => some (.dRsvd 0)
  | 31 => some (.dRsvd 1)
  | _ => none

/-- The block headers by BTYPE (R93, R101): bit 0 is BFINAL, bits 2:1 are BTYPE. -/
def decodeBlk (word : Nat) : Option Instr :=
  let bfinal := decide (word % 2 = 1)
  match word / 2 with
  | 0 => some (.blkStored bfinal)
  | 1 => some (.blkFixed bfinal)
  | 2 => some (.blkDynamic bfinal)
  | 3 => some (.blkRsvd bfinal)
  | _ => none

/-- The code-length symbols (R96, R104). -/
def decodeCl (sym extra : Nat) : Option Instr :=
  if sym < 16 then some (.cl (BitVec.ofNat 4 sym))
  else if sym = 16 then some (.cl16 (BitVec.ofNat 2 extra))
  else if sym = 17 then some (.cl17 (BitVec.ofNat 3 extra))
  else if sym = 18 then some (.cl18 (BitVec.ofNat 7 extra))
  else none

/-- The literal/length symbols (R97, R102). -/
def decodeLL (sym extra : Nat) : Option Instr :=
  if sym < 256 then some (.lit (BitVec.ofNat 8 sym))
  else if sym = 256 then some .eob
  else decodeLen (sym - 257) extra

/-- The filter byte of a row other than row 0 (R99, R105). -/
def decodeFilt (ft : Nat) : Option Instr :=
  match ft with
  | 0 => some .rowNone
  | 1 => some .rowSub
  | 2 => some .rowUp
  | 3 => some .rowAvg
  | 4 => some .rowPaeth
  | _ => if ft < 256 then some (.rowInvalid (BitVec.ofNat 8 ft)) else none

/-- The filter byte of row 0 (R105, R306). -/
def decodeFilt0 (ft : Nat) : Option Instr :=
  match ft with
  | 0 => some .row0None
  | 1 => some .row0Sub
  | 2 => some .row0Up
  | 3 => some .row0Avg
  | 4 => some .row0Paeth
  | _ => if ft < 256 then some (.row0Invalid (BitVec.ofNat 8 ft)) else none

/-- The row of the opcode table a word of a format selects (R117), or none. -/
def decodeRow (f : Format) (word extra : Nat) : Option Instr :=
  match f with
  | .zhdr => if word < 65536 then some (.zhdr (BitVec.ofNat 8 word) (BitVec.ofNat 8 (word / 256))) else none
  | .bhdr => decodeBlk word
  | .stored => if word < 4294967296 then some (.storedData (BitVec.ofNat 16 word) (BitVec.ofNat 16 (word / 65536))) else none
  | .dynhdr =>
    if word < 16384 then some (.dyn (BitVec.ofNat 5 word) (BitVec.ofNat 5 (word / 32)) (BitVec.ofNat 4 (word / 1024))) else none
  | .clsym => decodeCl word extra
  | .llsym => decodeLL word extra
  | .dsym => decodeDist word extra
  | .filt => decodeFilt word
  | .filt0 => decodeFilt0 word

/-- The decoder: total, a word that no row of its format matches is rejected by name. -/
def decode (f : Format) (word extra : Nat) : Except DecodeError Instr :=
  match decodeRow f word extra with
  | some i => .ok i
  | none => .error (.noRow f word)

/-- An encoded instruction: its format, its word (R117), and the extra bits after a Huffman code as a number. -/
structure Encoded where
  fmt : Format
  word : Nat
  extra : Nat
deriving DecidableEq, Repr

/-- The encoder (R92 to R99, R102 to R105, R117). -/
def encode : Instr → Encoded
  | .zhdr cmf flg => ⟨.zhdr, cmf.toNat + 256 * flg.toNat, 0⟩
  | .blkStored f => ⟨.bhdr, bit f, 0⟩
  | .blkFixed f => ⟨.bhdr, bit f + 2, 0⟩
  | .blkDynamic f => ⟨.bhdr, bit f + 4, 0⟩
  | .blkRsvd f => ⟨.bhdr, bit f + 6, 0⟩
  | .storedData len nlen => ⟨.stored, len.toNat + 65536 * nlen.toNat, 0⟩
  | .dyn hlit hdist hclen => ⟨.dynhdr, hlit.toNat + 32 * hdist.toNat + 1024 * hclen.toNat, 0⟩
  | .cl n => ⟨.clsym, n.toNat, 0⟩
  | .cl16 r => ⟨.clsym, 16, r.toNat⟩
  | .cl17 r => ⟨.clsym, 17, r.toNat⟩
  | .cl18 r => ⟨.clsym, 18, r.toNat⟩
  | .lit b => ⟨.llsym, b.toNat, 0⟩
  | .eob => ⟨.llsym, 256, 0⟩
  | .len257 => ⟨.llsym, 257, 0⟩
  | .len258 => ⟨.llsym, 258, 0⟩
  | .len259 => ⟨.llsym, 259, 0⟩
  | .len260 => ⟨.llsym, 260, 0⟩
  | .len261 => ⟨.llsym, 261, 0⟩
  | .len262 => ⟨.llsym, 262, 0⟩
  | .len263 => ⟨.llsym, 263, 0⟩
  | .len264 => ⟨.llsym, 264, 0⟩
  | .len265 e => ⟨.llsym, 265, e.toNat⟩
  | .len266 e => ⟨.llsym, 266, e.toNat⟩
  | .len267 e => ⟨.llsym, 267, e.toNat⟩
  | .len268 e => ⟨.llsym, 268, e.toNat⟩
  | .len269 e => ⟨.llsym, 269, e.toNat⟩
  | .len270 e => ⟨.llsym, 270, e.toNat⟩
  | .len271 e => ⟨.llsym, 271, e.toNat⟩
  | .len272 e => ⟨.llsym, 272, e.toNat⟩
  | .len273 e => ⟨.llsym, 273, e.toNat⟩
  | .len274 e => ⟨.llsym, 274, e.toNat⟩
  | .len275 e => ⟨.llsym, 275, e.toNat⟩
  | .len276 e => ⟨.llsym, 276, e.toNat⟩
  | .len277 e => ⟨.llsym, 277, e.toNat⟩
  | .len278 e => ⟨.llsym, 278, e.toNat⟩
  | .len279 e => ⟨.llsym, 279, e.toNat⟩
  | .len280 e => ⟨.llsym, 280, e.toNat⟩
  | .len281 e => ⟨.llsym, 281, e.toNat⟩
  | .len282 e => ⟨.llsym, 282, e.toNat⟩
  | .len283 e => ⟨.llsym, 283, e.toNat⟩
  | .len284 e => ⟨.llsym, 284, e.toNat⟩
  | .len285 => ⟨.llsym, 285, 0⟩
  | .llRsvd hi => ⟨.llsym, 286 + hi.toNat, 0⟩
  | .dist0 => ⟨.dsym, 0, 0⟩
  | .dist1 => ⟨.dsym, 1, 0⟩
  | .dist2 => ⟨.dsym, 2, 0⟩
  | .dist3 => ⟨.dsym, 3, 0⟩
  | .dist4 f => ⟨.dsym, 4, f.toNat⟩
  | .dist5 f => ⟨.dsym, 5, f.toNat⟩
  | .dist6 f => ⟨.dsym, 6, f.toNat⟩
  | .dist7 f => ⟨.dsym, 7, f.toNat⟩
  | .dist8 f => ⟨.dsym, 8, f.toNat⟩
  | .dist9 f => ⟨.dsym, 9, f.toNat⟩
  | .dist10 f => ⟨.dsym, 10, f.toNat⟩
  | .dist11 f => ⟨.dsym, 11, f.toNat⟩
  | .dist12 f => ⟨.dsym, 12, f.toNat⟩
  | .dist13 f => ⟨.dsym, 13, f.toNat⟩
  | .dist14 f => ⟨.dsym, 14, f.toNat⟩
  | .dist15 f => ⟨.dsym, 15, f.toNat⟩
  | .dist16 f => ⟨.dsym, 16, f.toNat⟩
  | .dist17 f => ⟨.dsym, 17, f.toNat⟩
  | .dist18 f => ⟨.dsym, 18, f.toNat⟩
  | .dist19 f => ⟨.dsym, 19, f.toNat⟩
  | .dist20 f => ⟨.dsym, 20, f.toNat⟩
  | .dist21 f => ⟨.dsym, 21, f.toNat⟩
  | .dist22 f => ⟨.dsym, 22, f.toNat⟩
  | .dist23 f => ⟨.dsym, 23, f.toNat⟩
  | .dist24 f => ⟨.dsym, 24, f.toNat⟩
  | .dist25 f => ⟨.dsym, 25, f.toNat⟩
  | .dist26 f => ⟨.dsym, 26, f.toNat⟩
  | .dist27 f => ⟨.dsym, 27, f.toNat⟩
  | .dist28 f => ⟨.dsym, 28, f.toNat⟩
  | .dist29 f => ⟨.dsym, 29, f.toNat⟩
  | .dRsvd hi => ⟨.dsym, 30 + hi.toNat, 0⟩
  | .rowNone => ⟨.filt, 0, 0⟩
  | .rowSub => ⟨.filt, 1, 0⟩
  | .rowUp => ⟨.filt, 2, 0⟩
  | .rowAvg => ⟨.filt, 3, 0⟩
  | .rowPaeth => ⟨.filt, 4, 0⟩
  | .rowInvalid ft => ⟨.filt, ft.toNat, 0⟩
  | .row0None => ⟨.filt0, 0, 0⟩
  | .row0Sub => ⟨.filt0, 1, 0⟩
  | .row0Up => ⟨.filt0, 2, 0⟩
  | .row0Avg => ⟨.filt0, 3, 0⟩
  | .row0Paeth => ⟨.filt0, 4, 0⟩
  | .row0Invalid ft => ⟨.filt0, ft.toNat, 0⟩

/-- How many bits a word of the format has (R92 to R99, R117). -/
def Format.wordBits : Format → Nat
  | .zhdr => 16
  | .bhdr => 3
  | .stored => 32
  | .dynhdr => 14
  | .clsym => 5
  | .llsym => 9
  | .dsym => 5
  | .filt => 8
  | .filt0 => 8

/-- `bitrev(v, n)` of R14: bit `i` of the result is bit `n-1-i` of `v`. -/
def bitrev (v : Nat) : (n : Nat) → Nat
  | 0 => 0
  | n + 1 => v % 2 * 2 ^ n + bitrev (v / 2) n

/-- The `n` bits of a field, least significant first (R67). -/
def fieldBits : (n v : Nat) → List Bool
  | 0, _ => []
  | n + 1, v => decide (v % 2 = 1) :: fieldBits n (v / 2)

/-- The `len` bits of a Huffman code, most significant first (R68). -/
def codeBits (len code : Nat) : List Bool :=
  fieldBits len (bitrev code len)

/-- Length and canonical code of an LL symbol in the fixed table (R107). -/
def fixedLLCode (sym : Nat) : Nat × Nat :=
  if sym < 144 then (8, 0x30 + sym)
  else if sym < 256 then (9, 0x190 + (sym - 144))
  else if sym < 280 then (7, sym - 256)
  else (8, 0xC0 + (sym - 280))

/-- The bits of an element in the stream (R107, R118), Huffman codes taken from the fixed tables; a code-length symbol is
written with the flat 5-bit code (symbol = code) that `withFetchWord` loads. A filter byte is a whole byte of OUT. -/
def Encoded.bits (e : Encoded) : List Bool :=
  match e.fmt with
  | .clsym => codeBits 5 e.word ++ fieldBits (clExtra e.word) e.extra
  | .llsym =>
    codeBits (fixedLLCode e.word).1 (fixedLLCode e.word).2 ++ fieldBits (llExtra e.word) e.extra
  | .dsym => codeBits 5 e.word ++ fieldBits (dExtra e.word) e.extra
  | .zhdr => fieldBits 16 e.word
  | .bhdr => fieldBits 3 e.word
  | .stored => fieldBits 32 e.word
  | .dynhdr => fieldBits 14 e.word
  | .filt => fieldBits 8 e.word
  | .filt0 => fieldBits 8 e.word

/-- The value of a list of bits, first bit least significant (R66, R67). -/
def bitsValue : List Bool → Nat
  | [] => 0
  | b :: bs => bit b + 2 * bitsValue bs

/-- The bits packed into bytes (R66), the last byte padded with 0 bits (R118). -/
def packBytes (bs : List Bool) : List Byte :=
  (List.range ((bs.length + 7) / 8)).map fun i => BitVec.ofNat 8 (bitsValue ((bs.drop (8 * i)).take 8))

/-- The format in which `decodeTableWord` reads a table word. Words of different formats share numbers, and which format the
machine reads next is machine state; this choice gives every format words of its own (assumption 12). -/
def tableFormat (nbits w : Nat) : Format :=
  if nbits = 0 then .stored
  else if nbits ≤ 8 then
    if w = 1 then .filt
    else if w = 3 then .filt0
    else if w < 8 ∧ w % 2 = 0 then .bhdr
    else if w < 16 then .dsym
    else if w < 19 then .clsym
    else if w < 32 then .dsym
    else if w / 64 = 1 then .filt0
    else .filt
  else if nbits ≤ 16 then
    if w < 256 ∧ w % 16 = 8 then .zhdr
    else if w < 288 then .llsym
    else .zhdr
  else .dsym

/-- The instruction the decoder reads from a table word (R117), its extra bits 0. -/
def decodeTableWord (nbits w : Nat) : Option Instr :=
  match decode (tableFormat nbits w) w 0 with
  | .ok i => some i
  | .error _ => none

end Sys2Proof
end

