-- ==== Sys2Proof/Machine/State.lean ====
section
/-! DEFINITION. The state of the core (spec/10_state.md), the ways a step can stop, and the state after reset (R43). -/

namespace Sys2Proof.Machine

/-- The phase register of INF (R24). -/
inductive Phase where
  | idle | zhdr | bhdr | stored | dynhdr | syms | done | error
deriving DecidableEq, Repr

/-- The phase register of SLR (R36). -/
inductive SlrPhase where
  | idle | rows | flipping | done | error
deriving DecidableEq, Repr

/-- Which pair of tables the symbol steps use (R25). -/
inductive TableSel where
  | fixed | dynamic
deriving DecidableEq, Repr

/-- Where inside one element INF stands. An element that is more than one table row (a match; a dynamic header) is run row
by row; the host only ever sees `boundary` (R9; assumption 7). -/
inductive SubPhase where
  | boundary
  /-- inside a dynamic header, a code-length token is next (R196). -/
  | clTokens
  /-- inside a match, the distance symbol is next (R223). -/
  | distance
deriving DecidableEq, Repr

/-- The registers of INF (R21 to R27), and the locals of an element in progress (assumption 7). -/
structure Inf where
  acc : Word
  cnt : Nat
  ipos : Nat
  olen : Nat
  phase : Phase
  finalSeen : Bool
  tsel : TableSel
  err : BitVec 8
  inLen : Word
  outCap : Word
  zlibEn : Bool
  sub : SubPhase
  /-- the local `length` of R223. -/
  mlen : Nat
  /-- the local `hlit` of R193. -/
  hlit : Nat
  /-- the local `hdist` of R193. -/
  hdist : Nat
deriving DecidableEq, Repr

/-- The table RAM (R34) and the scratch arrays of the dynamic header (R35). `lens` holds the entries written so far, so the
local `n` of R193 is its length (assumption 16). -/
structure Tables where
  dynLL : HuffTable
  dynD : HuffTable
  clT : HuffTable
  clLen : List (BitVec 3)
  lens : List (BitVec 4)
deriving DecidableEq, Repr

/-- The registers of SLR (R36). -/
structure Slr where
  width : Word
  height : Word
  rawCh : BitVec 3
  outCh : BitVec 3
  flip : Bool
  row : Nat
  forcedTransparency : Bool
  imgLen : Nat
  phase : SlrPhase
  err : BitVec 8
deriving DecidableEq, Repr

/-- One address space: the bytes written since reset, addresses strictly rising. -/
abbrev Memory := List Host.Cell

/-- The canonical form: addresses strictly rising. An unlisted address reads as no byte at all, so no entry can equal it. -/
def Memory.wf : Memory → Bool
  | [] => true
  | [_] => true
  | (a, _) :: (b, w) :: m => decide (a < b) && Memory.wf ((b, w) :: m)

/-- The five spaces (R60). -/
structure Spaces where
  inn : Memory
  out : Memory
  row0 : Memory
  row1 : Memory
  img : Memory
deriving DecidableEq, Repr

/-- One of the two units. -/
inductive CoreUnit where
  | inf | slr
deriving DecidableEq, Repr

/-- A move of the host (R8, R76, R402; assumption 5). -/
inductive HostOp where
  /-- write a register (R28). -/
  | write (reg : Fin 16) (v : Word)
  /-- write a byte of a space (R81). -/
  | writeMem (sp : Space) (addr : Nat) (v : Byte)
  /-- poll a unit's STATUS until BUSY is 0 (R402). -/
  | wait (u : CoreUnit)
  /-- do nothing while the busy unit takes `n` steps. -/
  | pass (n : Nat)
  /-- the external reset (R400). -/
  | reset
deriving DecidableEq, Repr

/-- The whole machine. `draws`, `epoch` and `spoils` only index free values (assumptions 2, 3, 9). -/
structure State where
  inf : Inf
  tabs : Tables
  slr : Slr
  mem : Spaces
  diag : BitVec 8
  caps : Caps
  hostQueue : List HostOp
  draws : Nat
  epoch : Nat
  /-- the host restarted INF under the SLR run in progress, or under the last one (R407; assumption 9). -/
  disturbed : Bool
  /-- how often ROW0, ROW1 and IMG have become unspecified since reset (R407; assumption 9). -/
  spoils : Nat
deriving DecidableEq, Repr

/-- The machine stops with a fault. No stream element and no filter byte does: their faults are entered (R370) and the machine
goes on in the phase ERROR. -/
inductive Fault where
  /-- Raised by a host memory write to an index at or past the space's capacity (R72: such a byte does not exist). Safe. -/
  | noSuchAddress (sp : Space) (addr : Nat)
deriving DecidableEq, Repr

/-- The machine declines to go on. -/
inductive Refusal where
  /-- Raised by `exec` for an instruction without a meaning; no arm does. Safe. -/
  | notModelled (mnemonic : String)
  /-- Raised by a host memory write while a unit is busy (R406, U3: "refuse"). Safe. -/
  | memoryWhileBusy
  /-- Raised by a step of INF when IN_LEN or OUT_CAP exceeds the capacity of its space (R404 (a), U4: "refuse"). Safe. -/
  | lengthsBeyondCapacity
  /-- Raised by a fetch that meets a code-length symbol above 18, which no built table holds (R104). Safe. -/
  | noSuchSymbol (f : Format)
deriving DecidableEq, Repr

/-- The registers of INF after reset (R43). -/
def Inf.reset : Inf where
  acc := 0
  cnt := 0
  ipos := 0
  olen := 0
  phase := .idle
  finalSeen := false
  tsel := .fixed
  err := 0
  inLen := 0
  outCap := 0
  zlibEn := false
  -- DESIGN CHOICE (assumption 7): the model's own fields
  sub := .boundary
  mlen := 0
  hlit := 0
  hdist := 0

/-- The table RAM after reset. DESIGN CHOICE (assumption 1): R43 leaves it unspecified. -/
def Tables.reset : Tables where
  dynLL := HuffTable.zero Config.nLL
  dynD := HuffTable.zero Config.nD
  clT := HuffTable.zero Config.nCL
  clLen := List.replicate 19 0
  lens := []

/-- The registers of SLR after reset (R43). -/
def Slr.reset : Slr where
  width := 0
  height := 0
  rawCh := 0
  outCh := 0
  flip := false
  row := 0
  forcedTransparency := false
  imgLen := 0
  phase := .idle
  err := 0

/-- No byte written yet (R43, R400). -/
def Spaces.reset : Spaces where
  inn := []
  out := []
  row0 := []
  row1 := []
  img := []

/-- The machine right after reset (R43). DESIGN CHOICE (assumptions 2 to 5, 9): `caps`, `hostQueue`, `draws`, `epoch`,
`disturbed`, `spoils`. -/
def State.reset : State where
  inf := Inf.reset
  tabs := Tables.reset
  slr := Slr.reset
  mem := Spaces.reset
  diag := 0
  caps := Config.capsLargest
  hostQueue := []
  draws := 0
  epoch := 0
  disturbed := false
  spoils := 0

end Sys2Proof.Machine
end

