-- ==== Sys2Proof/Machine/Ops.lean ====
section
/-! DEFINITION. The shared operations over memory and registers (spec/20_memory.md), the bit reader (spec/40_bit_reader.md),
and the entry of a fault (R370). -/

namespace Sys2Proof.Machine

/-! ### Memory -/

/-- The byte last written at an index, none where nothing was written. -/
def Memory.get : Memory → Nat → Option Byte
  | [], _ => none
  | (b, v) :: m, a => if b = a then some v else Memory.get m a

/-- Write a byte, keeping the addresses rising. -/
def Memory.set : Memory → Nat → Byte → Memory
  | [], a, v => [(a, v)]
  | (b, w) :: m, a, v =>
    if a < b then (a, v) :: (b, w) :: m
    else if a = b then (a, v) :: m
    else (b, w) :: Memory.set m a v

/-- The memory of a space. -/
def State.space (s : State) : Space → Memory
  | .inn => s.mem.inn
  | .out => s.mem.out
  | .row0 => s.mem.row0
  | .row1 => s.mem.row1
  | .img => s.mem.img

/-- Replace the memory of a space. -/
def State.withSpace (s : State) (sp : Space) (m : Memory) : State :=
  match sp with
  | .inn => { s with mem := { s.mem with inn := m } }
  | .out => { s with mem := { s.mem with out := m } }
  | .row0 => { s with mem := { s.mem with row0 := m } }
  | .row1 => { s with mem := { s.mem with row1 := m } }
  | .img => { s with mem := { s.mem with img := m } }

/-- How often a space has become unspecified since reset: SLR's spaces only (assumption 9). -/
def State.spoilsOf (s : State) : Space → Nat
  | .inn | .out => 0
  | .row0 | .row1 | .img => s.spoils

/-- `S[a]` of R15: the byte at an index. A byte nothing has written is a free value (R410; assumption 2). -/
def State.read (s : State) (sp : Space) (a : Nat) : Byte :=
  match Memory.get (s.space sp) a with
  | some v => v
  | none => Config.unwrittenByte s.epoch (s.spoilsOf sp) sp a

/-- `S[a] <- v` of R15. -/
def State.write (s : State) (sp : Space) (a : Nat) (v : Byte) : State :=
  s.withSpace sp (Memory.set (s.space sp) a v)

/-- The number of bytes a space has (R60, R61). -/
def State.capacity (s : State) : Space → Nat
  | .inn => s.caps.inCap
  | .out => s.caps.outCapMax
  | .row0 => s.caps.rowCap
  | .row1 => s.caps.rowCap
  | .img => s.caps.imgCap

/-! ### Busy (R24, R28) -/

/-- INF is busy: `1 ≤ phase ≤ 5` (R24). -/
def State.infBusy (s : State) : Bool :=
  match s.inf.phase with
  | .zhdr | .bhdr | .stored | .dynhdr | .syms => true
  | .idle | .done | .error => false

/-- SLR is busy: ROWS or FLIPPING (R28, register 9). -/
def State.slrBusy (s : State) : Bool :=
  match s.slr.phase with
  | .rows | .flipping => true
  | .idle | .done | .error => false

/-! ### Faults (R360, R361, R370) -/

/-- The closed list of R361. -/
inductive FaultCode where
  | insufficientData | invalidHuffmanTree | corruptedData | badZlibHeader | invalidBlockType | invalidSymbol
  | distanceTooFar | capacityError | invalidFilter | unsupportedConfig | notReady
deriving DecidableEq, Repr

/-- The code of a fault (R361). -/
def FaultCode.code : FaultCode → BitVec 8
  | .insufficientData => 1
  | .invalidHuffmanTree => 2
  | .corruptedData => 3
  | .badZlibHeader => 4
  | .invalidBlockType => 5
  | .invalidSymbol => 6
  | .distanceTooFar => 7
  | .capacityError => 8
  | .invalidFilter => 9
  | .unsupportedConfig => 10
  | .notReady => 11

/-- `diag` takes the code when it holds 0 and is otherwise left alone (R26, R379). -/
def recordDiag (f : FaultCode) (diag : BitVec 8) : BitVec 8 :=
  if diag = 0 then f.code else diag

/-- Entry of a fault of INF (R370): `err`, `diag`, phase ERROR. What R370 and U1 leave unspecified takes free values, and the
element in progress is dropped (assumptions 3, 7). -/
def infFault (f : FaultCode) (s : State) : State :=
  { s with
    inf := { s.inf with
      acc := Config.freeAcc s.draws
      cnt := (Config.freeCnt s.draws).toNat
      ipos := (Config.freeIpos s.draws).toNat
      finalSeen := Config.freeFinalSeen s.draws
      tsel := if Config.freeTsel s.draws then .dynamic else .fixed
      err := f.code
      phase := .error
      sub := .boundary }
    tabs :=
      { dynLL := Config.freeDynLL s.draws
        dynD := Config.freeDynD s.draws
        clT := Config.freeClT s.draws
        clLen := Config.freeClLen s.draws
        lens := Config.freeLens s.draws }
    diag := recordDiag f s.diag
    draws := s.draws + 1 }

/-- Entry of a fault of SLR (R370): `err_s`, `diag`, phase ERROR (assumption 14). -/
def slrFault (f : FaultCode) (s : State) : State :=
  { s with
    slr := { s.slr with err := f.code, phase := .error }
    diag := recordDiag f s.diag }

/-- The end of a step of INF that began in `s`: the state it reached, or the entry of the fault it raised. A step checks before
it writes, so what the fault leaves is `s` itself but for R370 (R376, D34). -/
def infEnd (s : State) : Except FaultCode State → Host.Outcome State Fault Refusal
  | .ok t => .next t
  | .error f => .next (infFault f s)

/-! ### The bit reader -/

/-- The result of an operation that reads the stream: its value and the state after it, or the fault it raises. -/
abbrev Read (α : Type) := Except FaultCode (α × State)

/-- Move one byte of IN into `acc` above the bits already there (R131). -/
def loadByte (s : State) : State :=
  { s with inf := { s.inf with
      acc := s.inf.acc ||| ((s.read .inn s.inf.ipos).setWidth 32 <<< s.inf.cnt)
      cnt := s.inf.cnt + 8
      ipos := s.inf.ipos + 1 } }

/-- The loop of `refill`, at most `fuel` bytes. -/
def refillLoop : (fuel : Nat) → State → State
  | 0, s => s
  | fuel + 1, s =>
    if s.inf.cnt ≤ 24 ∧ s.inf.ipos < s.inf.inLen.toNat then refillLoop fuel (loadByte s) else s

/-- `refill()` (R131): at most 4 bytes fit. -/
def refill (s : State) : State := refillLoop 4 s

/-- Drop the `n` lowest bits of `acc`. -/
def dropBits (n : Nat) (s : State) : State :=
  { s with inf := { s.inf with acc := s.inf.acc >>> n, cnt := s.inf.cnt - n } }

/-- `consume(n)` (R134), `n ≤ 24`. -/
def consume (n : Nat) (s : State) : Read Nat :=
  if n = 0 then .ok (0, s)
  else
    let t := if s.inf.cnt < 16 ∨ s.inf.cnt < n then refill s else s
    if t.inf.cnt < n then .error .insufficientData
    else .ok (t.inf.acc.toNat % 2 ^ n, dropBits n t)

/-- `fill_to_threshold()` (R135). -/
def fillToThreshold (s : State) : State :=
  if s.inf.cnt < 16 then refill s else s

/-- `align()` (R137). -/
def align (s : State) : State := dropBits (s.inf.cnt % 8) s

/-- `next_byte(F)` (R138). -/
def nextByte (f : FaultCode) (s : State) : Read Byte :=
  if 0 < s.inf.cnt then
    .ok (s.inf.acc.setWidth 8, dropBits 8 s)
  else if s.inf.inLen.toNat ≤ s.inf.ipos then .error f
  else .ok (s.read .inn s.inf.ipos, { s with inf := { s.inf with ipos := s.inf.ipos + 1 } })

/-- The stream position, INF's program counter (R23). -/
def State.bitpos (s : State) : Nat := 8 * s.inf.ipos - s.inf.cnt

/-- Stream bit `k` (R66). -/
def State.streamBit (s : State) (k : Nat) : Bool := (s.read .inn (k / 8)).getLsbD (k % 8)

/-- The value of the `n`-bit field at stream bit `p` (R67). -/
def State.streamField (s : State) (p : Nat) : (n : Nat) → Nat
  | 0 => 0
  | n + 1 => bit (s.streamBit p) + 2 * s.streamField (p + 1) n

/-! ### Appending to OUT -/

/-- `OUT[olen] <- v ; olen <- olen + 1` (R63). -/
def pushOut (v : Byte) (s : State) : State :=
  let t := s.write .out s.inf.olen v
  { t with inf := { t.inf with olen := t.inf.olen + 1 } }

end Sys2Proof.Machine
end

