-- ==== Sys2Proof/Machine/Flags.lean ====
section
/-! DEFINITION. The flags of INF (R25: `final_seen` and `tsel` are the only ones), the phase changes that read them, and the
STATUS words that show them (R28). -/

namespace Sys2Proof.Machine

/-- `final_seen <- bfinal` (R25, R183). -/
def setFinal (bfinal : Bool) (s : State) : State :=
  { s with inf := { s.inf with finalSeen := bfinal } }

/-- `tsel <- FIXED` or `DYNAMIC` (R25, R191, R193). -/
def setTsel (t : TableSel) (s : State) : State :=
  { s with inf := { s.inf with tsel := t } }

/-- `phase <- P` at an element boundary (R15). -/
def setPhase (p : Phase) (s : State) : State :=
  { s with inf := { s.inf with phase := p, sub := .boundary } }

/-- `block_end()` (R187). -/
def blockEnd (s : State) : State :=
  if s.inf.finalSeen then setPhase .done s else setPhase .bhdr s

/-- The code of an INF phase (R24). -/
def Phase.code : Phase → Nat
  | .idle => 0
  | .zhdr => 1
  | .bhdr => 2
  | .stored => 3
  | .dynhdr => 4
  | .syms => 5
  | .done => 6
  | .error => 7

/-- The code of an SLR phase (R36). -/
def SlrPhase.code : SlrPhase → Nat
  | .idle => 0
  | .rows => 1
  | .flipping => 2
  | .done => 6
  | .error => 7

/-- INF_STATUS (R28, register 1). -/
def infStatus (s : State) : Nat :=
  bit s.infBusy + 2 * bit (s.inf.phase = .done) + 4 * bit (s.inf.phase = .error) + 8 * bit s.inf.finalSeen
    + 16 * bit (s.inf.tsel = .dynamic) + 256 * s.inf.phase.code

/-- SLR_STATUS (R28, register 9). -/
def slrStatus (s : State) : Nat :=
  bit s.slrBusy + 2 * bit (s.slr.phase = .done) + 4 * bit (s.slr.phase = .error)
    + 8 * bit s.slr.forcedTransparency + 256 * s.slr.phase.code

end Sys2Proof.Machine
end

