-- ==== Sys2Proof/Machine/Operands.lean ====
section
/-! DEFINITION. Operand assembly (R100) and the constant tables it uses (R41): the base tables of lengths and distances,
CL_ORDER, repeat counts, the counts of a dynamic header. -/

namespace Sys2Proof.Machine

/-- LEN_BASE of R224, indexed by the LL symbol minus 257. The meanings take each symbol's own rule; `Laws` shows they agree. -/
def lenBase : List Nat :=
  [3, 4, 5, 6, 7, 8, 9, 10, 11, 13, 15, 17, 19, 23, 27, 31, 35, 43, 51, 59, 67, 83, 99, 115, 131, 163, 195, 227, 258]

/-- DIST_BASE of R260, indexed by the D symbol. -/
def distBase : List Nat :=
  [1, 2, 3, 4, 5, 7, 9, 13, 17, 25, 33, 49, 65, 97, 129, 193, 257, 385, 513, 769, 1025, 1537, 2049, 3073, 4097, 6145,
    8193, 12289, 16385, 24577]

/-- CL_ORDER of R106. -/
def clOrder : List Nat := [16, 17, 18, 0, 8, 7, 9, 6, 10, 5, 11, 4, 12, 3, 13, 2, 14, 1, 15]

/-- `hlit = HLIT + 257` (R95). -/
def hlitCount (field : BitVec 5) : Nat := field.toNat + 257

/-- `hdist = HDIST + 1` (R95). -/
def hdistCount (field : BitVec 5) : Nat := field.toNat + 1

/-- `hclen = HCLEN + 4` (R95). -/
def hclenCount (field : BitVec 4) : Nat := field.toNat + 4

/-- The repeat count of symbol 16, 3 to 6 (R96). -/
def repCount16 (rep : BitVec 2) : Nat := 3 + rep.toNat

/-- The repeat count of symbol 17, 3 to 10 (R96). -/
def repCount17 (rep : BitVec 3) : Nat := 3 + rep.toNat

/-- The repeat count of symbol 18, 11 to 138 (R96). -/
def repCount18 (rep : BitVec 7) : Nat := 11 + rep.toNat

/-- The zlib check value, most significant byte first (R69, R181). -/
def zlibCheck (cmf flg : Byte) : Nat := cmf.toNat * 256 + flg.toNat

/-- Two bytes of LEN or NLEN, low byte first (R69). -/
def pairLE (lo hi : Byte) : Nat := lo.toNat + 256 * hi.toNat

/-- `hlit + hdist` of the header in progress (R193). -/
def State.total (s : State) : Nat := s.inf.hlit + s.inf.hdist

end Sys2Proof.Machine
end

