-- ==== Sys2Proof/Machine/Blocks.lean ====
section
/-! DEFINITION. The zlib header, the block headers and the stored block (spec/42_blocks.md). -/

namespace Sys2Proof.Machine

/-- ZHDR (R181): the three checks, then phase BHDR. -/
def execZhdr (cmf flg : Byte) (s : State) : Host.Outcome State Fault Refusal :=
  infEnd s <|
    if cmf.toNat % 16 ≠ 8 then .error .badZlibHeader
    else if flg.toNat / 32 % 2 = 1 then .error .badZlibHeader
    else if zlibCheck cmf flg % 31 ≠ 0 then .error .badZlibHeader
    else .ok (setPhase .bhdr s)

/-- BLK STORED (R183, R184). -/
def execBlkStored (bfinal : Bool) (s : State) : Host.Outcome State Fault Refusal :=
  .next (setPhase .stored (setFinal bfinal s))

/-- BLK FIXED (R183, R191). -/
def execBlkFixed (bfinal : Bool) (s : State) : Host.Outcome State Fault Refusal :=
  .next (setPhase .syms (setTsel .fixed (setFinal bfinal s)))

/-- BLK DYNAMIC (R183, R185). -/
def execBlkDynamic (bfinal : Bool) (s : State) : Host.Outcome State Fault Refusal :=
  .next (setPhase .dynhdr (setFinal bfinal s))

/-- BLK RSVD (R183, R186): `final_seen` is written, then InvalidBlockType is raised. -/
def execBlkRsvd (bfinal : Bool) (s : State) : Host.Outcome State Fault Refusal :=
  infEnd (setFinal bfinal s) (.error .invalidBlockType)

/-- The payload loop of R188: `n` bytes from `IN[ipos]` on to `OUT[olen]` on. -/
def copyStored : (n : Nat) → State → State
  | 0, s => s
  | n + 1, s =>
    let t := pushOut (s.read .inn s.inf.ipos) s
    copyStored n { t with inf := { t.inf with ipos := t.inf.ipos + 1 } }

/-- STORED.DATA (R188) after its four header bytes: the checks in their order, the payload, the end of the block. -/
def execStoredData (len nlen : BitVec 16) (s : State) : Host.Outcome State Fault Refusal :=
  infEnd s <|
    if nlen ≠ len ^^^ 0xFFFF#16 then .error .corruptedData
    else if s.inf.inLen.toNat < s.inf.ipos + len.toNat then .error .corruptedData
    else if s.inf.outCap.toNat < s.inf.olen + len.toNat then .error .capacityError
    else .ok (blockEnd (copyStored len.toNat s))

end Sys2Proof.Machine
end

