-- ==== Sys2Proof/Machine/Huffman.lean ====
section
/-! DEFINITION. Canonical Huffman tables (spec/41_huffman.md): `build`, `decode`, and the two fixed tables. -/

namespace Sys2Proof.Machine

/-! ### Build -/

/-- The bookkeeping of one code length (R154). -/
structure LenInfo where
  firstCode : Nat
  firstSymbol : Nat
  maxCode : Nat
deriving DecidableEq, Repr

/-- Part 2 of `build` (R154) for the `n` lengths from `l` on, with the running `code` and `k`: none when over-subscribed. -/
def bookkeep (L : List Nat) : (n l code k : Nat) → Option (List LenInfo)
  | 0, _, _, _ => some []
  | n + 1, l, code, k =>
    if 2 ^ l < code + L.count l then none
    else
      match bookkeep L n (l + 1) (2 * (code + L.count l)) (k + L.count l) with
      | none => none
      | some rest => some (⟨code, k, (code + L.count l) * 2 ^ (16 - l)⟩ :: rest)

/-- Part 1 of `build` (R153): some length is used by more symbols than `2^length`. -/
def tooMany (L : List Nat) : Bool :=
  (List.range' 1 15).any fun l => decide (2 ^ l < L.count l)

/-- A coded symbol: its number, its code length and its canonical code. -/
structure Coded where
  sym : Nat
  len : Nat
  code : Nat
deriving DecidableEq, Repr

/-- The code assignment of part 3 (R155): the coded symbols in symbol order, from symbol `s` on, `next` being `next_code`. -/
def assign : (next : List Nat) → (s : Nat) → (L : List Nat) → List Coded
  | _, _, [] => []
  | next, s, l :: L =>
    if l = 0 then assign next (s + 1) L
    else ⟨s, l, next.getD l 0⟩ :: assign (next.set l (next.getD l 0 + 1)) (s + 1) L

/-- The index of a coded symbol in the slow-path arrays (R155). -/
def slowIndex (firstCode firstSymbol : List Nat) (c : Coded) : Nat :=
  c.code - firstCode.getD c.len 0 + firstSymbol.getD c.len 0

/-- Write an entry to every slot, counted from `j`, whose low `l` bits equal `rev` (R158). -/
def fillSlots (rev l : Nat) (entry : BitVec 16) : (j : Nat) → List (BitVec 16) → List (BitVec 16)
  | _, [] => []
  | j, e :: rest => (if j % 2 ^ l = rev then entry else e) :: fillSlots rev l entry (j + 1) rest

/-- Part 4 (R158) for one coded symbol. -/
def fillFast (fast : List (BitVec 16)) (c : Coded) : List (BitVec 16) :=
  if c.len ≤ 9 then fillSlots (bitrev c.code c.len) c.len (BitVec.ofNat 16 (c.len * 512 + c.sym)) 0 fast else fast

/-- `build(T, L, num)` (R159) for a table of capacity `cap`, `L` holding the `num` lengths: none is InvalidHuffmanTree. The
result does not depend on what the table held before (R152). -/
def build (cap : Nat) (L : List Nat) : Option HuffTable :=
  if tooMany L then none
  else
    match bookkeep L 15 1 0 0 with
    | none => none
    | some infos =>
      let firstCode := 0 :: infos.map LenInfo.firstCode
      let firstSymbol := 0 :: infos.map LenInfo.firstSymbol
      let coded := assign firstCode 0 L
      some
        { fast := coded.foldl fillFast (List.replicate 512 0)
          firstCode := firstCode.map (BitVec.ofNat 16)
          firstSymbol := firstSymbol.map (BitVec.ofNat 9)
          maxCode := (0 :: infos.map LenInfo.maxCode ++ [65536]).map (BitVec.ofNat 17)
          lengths :=
            coded.foldl (fun t c => t.set (slowIndex firstCode firstSymbol c) (BitVec.ofNat 4 c.len)) (List.replicate cap 0)
          symbols :=
            coded.foldl (fun t c => t.set (slowIndex firstCode firstSymbol c) (BitVec.ofNat 9 c.sym)) (List.replicate cap 0) }

/-! ### Decode -/

/-- The search of the slow path (R166): the first length from `l` on, at most `fuel` further, whose `max_code` exceeds `k`. -/
def slowLength (T : HuffTable) (k : Nat) : (fuel l : Nat) → Nat
  | 0, l => l
  | fuel + 1, l => if (T.maxCode.getD l 0).toNat ≤ k then slowLength T k fuel (l + 1) else l

/-- `slow(T, window)` (R166): code length and symbol, or InvalidHuffmanTree when the search reaches 16 (R167). -/
def slow (T : HuffTable) (window : Nat) : Except FaultCode (Nat × Nat) :=
  let k := bitrev window 16
  let l := slowLength T k 6 10
  if l = 16 then .error .invalidHuffmanTree
  else
    let b := k / 2 ^ (16 - l) - (T.firstCode.getD l 0).toNat + (T.firstSymbol.getD l 0).toNat
    .ok (l, (T.symbols.getD b 0).toNat)

/-- The table lookup of `decode` (R165): code length and symbol of a window. -/
def lookup (T : HuffTable) (window : Nat) : Except FaultCode (Nat × Nat) :=
  let e := (T.fast.getD (window % 512) 0).toNat
  if e = 0 then slow T window else .ok (e / 512, e % 512)

/-- `decode(T)` (R165, R168). -/
def decodeSym (T : HuffTable) (s : State) : Read Nat :=
  let t := fillToThreshold s
  match lookup T (t.inf.acc.toNat % 65536) with
  | .error f => .error f
  | .ok (l, sym) => if t.inf.cnt < l then .error .insufficientData else .ok (sym, dropBits l t)

/-! ### The fixed tables -/

/-- FIXED_LL_LENGTHS of R170. -/
def fixedLLLengths : List Nat :=
  List.replicate 144 8 ++ List.replicate 112 9 ++ List.replicate 24 7 ++ List.replicate 8 8

/-- FIXED_D_LENGTHS of R171. -/
def fixedDLengths : List Nat := List.replicate 32 5

/-- The entry of FIX_LL for a slot, from the bit patterns of R107: `k` is the slot read most significant bit first. -/
def fixLLEntry (k : Nat) : Nat :=
  if k / 4 < 24 then 7 * 512 + (256 + k / 4)
  else if k / 2 < 192 then 8 * 512 + (k / 2 - 48)
  else if k / 2 < 200 then 8 * 512 + (280 + (k / 2 - 192))
  else 9 * 512 + (144 + (k - 400))

/-- FIX_LL, a ROM (R34, R170, R172). Its contents are what `build` gives for the fixed lengths (assumption 17). -/
def fixLL : HuffTable where
  fast := (List.range 512).map fun j => BitVec.ofNat 16 (fixLLEntry (bitrev j 9))
  firstCode := [0, 0, 0, 0, 0, 0, 0, 0, 48, 400, 1024, 2048, 4096, 8192, 16384, 32768]
  firstSymbol := [0, 0, 0, 0, 0, 0, 0, 0, 24, 176, 288, 288, 288, 288, 288, 288]
  maxCode := [0, 0, 0, 0, 0, 0, 0, 0x3000, 0xC800] ++ List.replicate 8 0x10000
  lengths := List.replicate 24 7 ++ List.replicate 152 8 ++ List.replicate 112 9
  symbols :=
    (List.range' 256 24 ++ List.range 144 ++ List.range' 280 8 ++ List.range' 144 112).map (BitVec.ofNat 9)

/-- FIX_D, a ROM (R34, R171, R172; assumption 17). -/
def fixD : HuffTable where
  fast := (List.range 512).map fun j => BitVec.ofNat 16 (5 * 512 + bitrev (j % 32) 5)
  firstCode := [0, 0, 0, 0, 0, 0, 64, 128, 256, 512, 1024, 2048, 4096, 8192, 16384, 32768]
  firstSymbol := [0, 0, 0, 0, 0, 0, 32, 32, 32, 32, 32, 32, 32, 32, 32, 32]
  maxCode := [0, 0, 0, 0, 0] ++ List.replicate 12 0x10000
  lengths := List.replicate 32 5
  symbols := (List.range 32).map (BitVec.ofNat 9)

/-- The active literal/length table (R25, R34). -/
def State.llTable (s : State) : HuffTable :=
  match s.inf.tsel with
  | .fixed => fixLL
  | .dynamic => s.tabs.dynLL

/-- The active distance table (R25, R34). -/
def State.dTable (s : State) : HuffTable :=
  match s.inf.tsel with
  | .fixed => fixD
  | .dynamic => s.tabs.dynD

end Sys2Proof.Machine
end

