-- ==== Sys2Proof/Machine/CodeLengths.lean ====
section
/-! DEFINITION. The dynamic-Huffman block header: its fixed part and the code-length tokens (R193 to R204). -/

namespace Sys2Proof.Machine

/-- The loop that reads the 3-bit code-length lengths (R194): `n` of them from position `i` of CL_ORDER on. -/
def readClLens : (n i : Nat) → List (BitVec 3) → State → Read (List (BitVec 3))
  | 0, _, lens, s => .ok (lens, s)
  | n + 1, i, lens, s =>
    match consume 3 s with
    | .error f => .error f
    | .ok (v, t) => readClLens n (i + 1) (lens.set (clOrder.getD i 0) (BitVec.ofNat 3 v)) t

/-- The code-length lengths and CL_T of a header are in place and the tokens follow (R195, R196). -/
def startTokens (hlit hdist : Nat) (clLen : List (BitVec 3)) (clT : HuffTable) (s : State) : State :=
  { s with
    inf := { s.inf with hlit := hlit, hdist := hdist, sub := .clTokens }
    tabs := { s.tabs with clLen := clLen, clT := clT, lens := [] } }

/-- DYN (R193 to R195): the counts, the code-length lengths, CL_T. -/
def execDyn (hlit hdist : BitVec 5) (hclen : BitVec 4) (s : State) : Host.Outcome State Fault Refusal :=
  infEnd s <|
    match readClLens (hclenCount hclen) 0 (List.replicate 19 0) s with
    | .error f => .error f
    | .ok (clLen, t) =>
      match build Config.nCL (clLen.map BitVec.toNat) with
      | none => .error .invalidHuffmanTree
      | some clT => .ok (startTokens (hlitCount hlit) (hdistCount hdist) clLen clT t)

/-- The end of the header (R200): DYN_LL and DYN_D are built, then `tsel` and `phase` are written. -/
def finishHeader (s : State) : Except FaultCode State :=
  match build Config.nLL ((s.tabs.lens.take s.inf.hlit).map BitVec.toNat) with
  | none => .error .invalidHuffmanTree
  | some ll =>
    match build Config.nD ((s.tabs.lens.drop s.inf.hlit).map BitVec.toNat) with
    | none => .error .invalidHuffmanTree
    | some d =>
      .ok (setPhase .syms (setTsel .dynamic { s with tabs := { s.tabs with dynLL := ll, dynD := d } }))

/-- Write `r` copies of a length at `lens[n ..]` (R196): a fault when they run past `hlit + hdist`; when that many lengths are
there the header ends. -/
def addLengths (r : Nat) (v : BitVec 4) (s : State) : Except FaultCode State :=
  if s.total < s.tabs.lens.length + r then .error .invalidHuffmanTree
  else
    let t := { s with tabs := { s.tabs with lens := s.tabs.lens ++ List.replicate r v } }
    if t.tabs.lens.length < t.total then .ok t else finishHeader t

/-- CL 0 to 15 (R201). -/
def execCl (n : BitVec 4) (s : State) : Host.Outcome State Fault Refusal :=
  infEnd s (addLengths 1 n s)

/-- CL16 (R202): repeat the previous length; a fault when there is none (R197). -/
def execCl16 (rep : BitVec 2) (s : State) : Host.Outcome State Fault Refusal :=
  infEnd s <|
    match s.tabs.lens.getLast? with
    | none => .error .invalidHuffmanTree
    | some v => addLengths (repCount16 rep) v s

/-- CL17 (R203): repeat zero. -/
def execCl17 (rep : BitVec 3) (s : State) : Host.Outcome State Fault Refusal :=
  infEnd s (addLengths (repCount17 rep) 0 s)

/-- CL18 (R204): repeat zero. -/
def execCl18 (rep : BitVec 7) (s : State) : Host.Outcome State Fault Refusal :=
  infEnd s (addLengths (repCount18 rep) 0 s)

end Sys2Proof.Machine
end

