-- ==== Sys2Proof/Machine/Scanline.lean ====
section
/-! DEFINITION. The scanline unit: filters, row reconstruction, channel expansion, vertical flip (spec/44_scanline.md,
spec/45_expand_flip.md). -/

namespace Sys2Proof.Machine

/-! ### Predictors -/

/-- The effective filters of R307; `avgFirst` is selected by the row-0 remap only (R306). -/
inductive Filter where
  | none | sub | up | avg | paeth | avgFirst
deriving DecidableEq, Repr

/-- `paeth(a, b, c)` (R322), on signed integers. -/
def paeth (a b c : Byte) : Byte :=
  let p : Int := (a.toNat : Int) + b.toNat - c.toNat
  let pa := (p - a.toNat).natAbs
  let pb := (p - b.toNat).natAbs
  let pc := (p - c.toNat).natAbs
  if pa ≤ pb ∧ pa ≤ pc then a
  else if pb ≤ pc then b
  else c

/-- `pred(eff, x)` of R307 from the neighbours left, above and upper left; computed without wrap. -/
def predict (eff : Filter) (a b c : Byte) : Nat :=
  match eff with
  | .none => 0
  | .sub => a.toNat
  | .up => b.toNat
  | .avg => (a.toNat + b.toNat) / 2
  | .paeth => (paeth a b c).toNat
  | .avgFirst => a.toNat / 2

/-- `(f + pred) mod 256` (R307). -/
def unfilterByte (f : Byte) (pred : Nat) : Byte := BitVec.ofNat 8 (f.toNat + pred)

/-! ### Rows -/

/-- The stride `S = W*C`. -/
def State.stride (s : State) : Nat := s.slr.width.toNat * s.slr.rawCh.toNat

/-- Where row `row` begins in OUT (R302): its filter byte. -/
def State.rowBase (s : State) : Nat := s.slr.row * (s.stride + 1)

/-- The current row buffer of row `r`, `ROW(r mod 2)` (R38). -/
def curRow (r : Nat) : Space := if r % 2 = 0 then .row0 else .row1

/-- The previous row buffer of row `r`, `ROW((r+1) mod 2)` (R38). -/
def prevRow (r : Nat) : Space := if r % 2 = 0 then .row1 else .row0

/-- The left neighbour `a` of byte `x` (R304). -/
def State.leftOf (s : State) (x : Nat) : Byte :=
  if s.slr.rawCh.toNat ≤ x then s.read (curRow s.slr.row) (x - s.slr.rawCh.toNat) else 0

/-- The neighbour above, `b`, of byte `x` (R304). -/
def State.aboveOf (s : State) (x : Nat) : Byte :=
  if 1 ≤ s.slr.row then s.read (prevRow s.slr.row) x else 0

/-- The upper left neighbour `c` of byte `x` (R304). -/
def State.upperLeftOf (s : State) (x : Nat) : Byte :=
  if 1 ≤ s.slr.row ∧ s.slr.rawCh.toNat ≤ x then s.read (prevRow s.slr.row) (x - s.slr.rawCh.toNat) else 0

/-- The value `cur[x]` takes (R303): the filtered byte and the predictor of its neighbours. -/
def reconValue (eff : Filter) (x : Nat) (s : State) : Byte :=
  unfilterByte (s.read .out (s.rowBase + 1 + x)) (predict eff (s.leftOf x) (s.aboveOf x) (s.upperLeftOf x))

/-- The loop of R303: `n` bytes from `x` on, left to right. -/
def reconRow (eff : Filter) : (n x : Nat) → State → State
  | 0, _, s => s
  | n + 1, x, s => reconRow eff n (x + 1) (s.write (curRow s.slr.row) x (reconValue eff x s))

/-! ### Channel expansion -/

/-- `mux(px, k)` (R342). -/
def mux (px k : Nat) (s : State) : Byte :=
  if k < s.slr.rawCh.toNat then s.read (curRow s.slr.row) (px * s.slr.rawCh.toNat + k) else 255

/-- The inner loop of `write_row` (R343): `n` channels of pixel `px` from channel `k` on. -/
def writePixel (px : Nat) : (n k : Nat) → State → State
  | 0, _, s => s
  | n + 1, k, s =>
    writePixel px n (k + 1)
      (s.write .img ((s.slr.row * s.slr.width.toNat + px) * s.slr.outCh.toNat + k) (mux px k s))

/-- The outer loop of `write_row` (R343): `n` pixels from pixel `px` on. -/
def writePixels : (n px : Nat) → State → State
  | 0, _, s => s
  | n + 1, px, s => writePixels n (px + 1) (writePixel px s.slr.outCh.toNat 0 s)

/-- `write_row(r, cur)` (R343). -/
def writeRow (s : State) : State :=
  let t := writePixels s.slr.width.toNat 0 s
  { t with slr := { t.slr with
      forcedTransparency := if t.slr.outCh = t.slr.rawCh then t.slr.forcedTransparency else true } }

/-- The end of a row step (R303). -/
def endRow (s : State) : State :=
  let r := s.slr.row + 1
  { s with slr := { s.slr with
      row := r
      phase := if r = s.slr.height.toNat then (if s.slr.flip then .flipping else .done) else s.slr.phase } }

/-- `step_ROW` (R303) with its effective filter. -/
def runRow (eff : Filter) (s : State) : State :=
  endRow (writeRow (reconRow eff s.stride 0 s))

/-- ROW.NONE, filter byte 0, row 1 and on (R310). -/
def execRowNone (s : State) : Host.Outcome State Fault Refusal :=
  .next (runRow .none s)

/-- ROW.SUB, filter byte 1, row 1 and on (R311). -/
def execRowSub (s : State) : Host.Outcome State Fault Refusal :=
  .next (runRow .sub s)

/-- ROW.UP, filter byte 2, row 1 and on (R312). -/
def execRowUp (s : State) : Host.Outcome State Fault Refusal :=
  .next (runRow .up s)

/-- ROW.AVG, filter byte 3, row 1 and on (R313). -/
def execRowAvg (s : State) : Host.Outcome State Fault Refusal :=
  .next (runRow .avg s)

/-- ROW.PAETH, filter byte 4, row 1 and on (R314). -/
def execRowPaeth (s : State) : Host.Outcome State Fault Refusal :=
  .next (runRow .paeth s)

/-- ROW.INVALID (R305): no byte above 4 selects a filter, whatever the byte. -/
def execRowInvalid (_ft : Byte) (s : State) : Host.Outcome State Fault Refusal :=
  .next (slrFault .invalidFilter s)

/-- ROW0.NONE, filter byte 0 in row 0 (R306, R310). -/
def execRow0None (s : State) : Host.Outcome State Fault Refusal :=
  .next (runRow .none s)

/-- ROW0.SUB, filter byte 1 in row 0 (R306, R311). -/
def execRow0Sub (s : State) : Host.Outcome State Fault Refusal :=
  .next (runRow .sub s)

/-- ROW0.UP, filter byte 2 in row 0 (R306, R310: remapped to NONE). -/
def execRow0Up (s : State) : Host.Outcome State Fault Refusal :=
  .next (runRow .none s)

/-- ROW0.AVG, filter byte 3 in row 0 (R306, R315: remapped to AVG_FIRST). -/
def execRow0Avg (s : State) : Host.Outcome State Fault Refusal :=
  .next (runRow .avgFirst s)

/-- ROW0.PAETH, filter byte 4 in row 0 (R306, R311: remapped to SUB). -/
def execRow0Paeth (s : State) : Host.Outcome State Fault Refusal :=
  .next (runRow .sub s)

/-- ROW0.INVALID (R305), row 0. -/
def execRow0Invalid (_ft : Byte) (s : State) : Host.Outcome State Fault Refusal :=
  .next (slrFault .invalidFilter s)

/-! ### Vertical flip -/

/-- Swap two bytes of IMG (R347). -/
def swapImg (p q : Nat) (s : State) : State :=
  (s.write .img p (s.read .img q)).write .img q (s.read .img p)

/-- The inner loop of R347: `n` bytes of the rows at `p` and `q`, from byte `k` on. -/
def swapRows (p q : Nat) : (n k : Nat) → State → State
  | 0, _, s => s
  | n + 1, k, s => swapRows p q n (k + 1) (swapImg (p + k) (q + k) s)

/-- Bytes of one row of IMG, `RB = W*O` (R347). -/
def State.imgRow (s : State) : Nat := s.slr.width.toNat * s.slr.outCh.toNat

/-- The outer loop of R347: `n` row pairs from row `i` on. -/
def flipRows : (n i : Nat) → State → State
  | 0, _, s => s
  | n + 1, i, s =>
    flipRows n (i + 1) (swapRows (i * s.imgRow) ((s.slr.height.toNat - 1 - i) * s.imgRow) s.imgRow 0 s)

/-- `step_FLIP` (R347). -/
def flipStep (s : State) : State :=
  let t := flipRows (s.slr.height.toNat / 2) 0 s
  { t with slr := { t.slr with phase := .done } }

/-! ### A run the host has disturbed -/

/-- ROW0, ROW1 and IMG become unspecified: every byte of them is a new free value (R407, U6; assumption 9). -/
def spoilRows (s : State) : State :=
  { s with mem := { s.mem with row0 := [], row1 := [], img := [] }, spoils := s.spoils + 1 }

/-- A step of SLR after the host has restarted INF under its run (R407, U6: "IMG is any value, no fault"): the row counter, the
phase and `forced_transparency` go on as R303, R343 and R347 say, whatever the filter; what it writes is unspecified. -/
def disturbedStep (s : State) : State :=
  spoilRows (if s.slr.phase = .flipping then flipStep s else runRow .none s)

end Sys2Proof.Machine
end

