-- ==== Sys2Proof/Machine/Symbols.lean ====
section
/-! DEFINITION. The symbol loop and the LZ77 expander (spec/43_symbols_lz77.md): literals, end of block, length symbols,
distance symbols. The extra bits of a symbol are operands of its instruction; a match is a length symbol and then a distance
symbol. -/

namespace Sys2Proof.Machine

/-- LIT (R221). -/
def execLit (b : Byte) (s : State) : Host.Outcome State Fault Refusal :=
  infEnd s <|
    if s.inf.outCap.toNat < s.inf.olen + 1 then .error .capacityError
    else .ok (pushOut b s)

/-- EOB (R222). -/
def execEob (s : State) : Host.Outcome State Fault Refusal :=
  .next (blockEnd s)

/-- The first half of a match (R223): `length <- base + e`; the distance code follows. -/
def lengthToken (base e : Nat) (s : State) : Host.Outcome State Fault Refusal :=
  .next { s with inf := { s.inf with mlen := base + e, sub := .distance } }

/-- LL symbol 257 (R225): length 3. -/
def execLen257 (s : State) : Host.Outcome State Fault Refusal :=
  lengthToken 3 0 s

/-- LL symbol 258 (R226): length 4. -/
def execLen258 (s : State) : Host.Outcome State Fault Refusal :=
  lengthToken 4 0 s

/-- LL symbol 259 (R227): length 5. -/
def execLen259 (s : State) : Host.Outcome State Fault Refusal :=
  lengthToken 5 0 s

/-- LL symbol 260 (R228): length 6. -/
def execLen260 (s : State) : Host.Outcome State Fault Refusal :=
  lengthToken 6 0 s

/-- LL symbol 261 (R229): length 7. -/
def execLen261 (s : State) : Host.Outcome State Fault Refusal :=
  lengthToken 7 0 s

/-- LL symbol 262 (R230): length 8. -/
def execLen262 (s : State) : Host.Outcome State Fault Refusal :=
  lengthToken 8 0 s

/-- LL symbol 263 (R231): length 9. -/
def execLen263 (s : State) : Host.Outcome State Fault Refusal :=
  lengthToken 9 0 s

/-- LL symbol 264 (R232): length 10. -/
def execLen264 (s : State) : Host.Outcome State Fault Refusal :=
  lengthToken 10 0 s

/-- LL symbol 265 (R233): length 11 + e. -/
def execLen265 (e : BitVec 1) (s : State) : Host.Outcome State Fault Refusal :=
  lengthToken 11 e.toNat s

/-- LL symbol 266 (R234): length 13 + e. -/
def execLen266 (e : BitVec 1) (s : State) : Host.Outcome State Fault Refusal :=
  lengthToken 13 e.toNat s

/-- LL symbol 267 (R235): length 15 + e. -/
def execLen267 (e : BitVec 1) (s : State) : Host.Outcome State Fault Refusal :=
  lengthToken 15 e.toNat s

/-- LL symbol 268 (R236): length 17 + e. -/
def execLen268 (e : BitVec 1) (s : State) : Host.Outcome State Fault Refusal :=
  lengthToken 17 e.toNat s

/-- LL symbol 269 (R237): length 19 + e. -/
def execLen269 (e : BitVec 2) (s : State) : Host.Outcome State Fault Refusal :=
  lengthToken 19 e.toNat s

/-- LL symbol 270 (R238): length 23 + e. -/
def execLen270 (e : BitVec 2) (s : State) : Host.Outcome State Fault Refusal :=
  lengthToken 23 e.toNat s

/-- LL symbol 271 (R239): length 27 + e. -/
def execLen271 (e : BitVec 2) (s : State) : Host.Outcome State Fault Refusal :=
  lengthToken 27 e.toNat s

/-- LL symbol 272 (R240): length 31 + e. -/
def execLen272 (e : BitVec 2) (s : State) : Host.Outcome State Fault Refusal :=
  lengthToken 31 e.toNat s

/-- LL symbol 273 (R241): length 35 + e. -/
def execLen273 (e : BitVec 3) (s : State) : Host.Outcome State Fault Refusal :=
  lengthToken 35 e.toNat s

/-- LL symbol 274 (R242): length 43 + e. -/
def execLen274 (e : BitVec 3) (s : State) : Host.Outcome State Fault Refusal :=
  lengthToken 43 e.toNat s

/-- LL symbol 275 (R243): length 51 + e. -/
def execLen275 (e : BitVec 3) (s : State) : Host.Outcome State Fault Refusal :=
  lengthToken 51 e.toNat s

/-- LL symbol 276 (R244): length 59 + e. -/
def execLen276 (e : BitVec 3) (s : State) : Host.Outcome State Fault Refusal :=
  lengthToken 59 e.toNat s

/-- LL symbol 277 (R245): length 67 + e. -/
def execLen277 (e : BitVec 4) (s : State) : Host.Outcome State Fault Refusal :=
  lengthToken 67 e.toNat s

/-- LL symbol 278 (R246): length 83 + e. -/
def execLen278 (e : BitVec 4) (s : State) : Host.Outcome State Fault Refusal :=
  lengthToken 83 e.toNat s

/-- LL symbol 279 (R247): length 99 + e. -/
def execLen279 (e : BitVec 4) (s : State) : Host.Outcome State Fault Refusal :=
  lengthToken 99 e.toNat s

/-- LL symbol 280 (R248): length 115 + e. -/
def execLen280 (e : BitVec 4) (s : State) : Host.Outcome State Fault Refusal :=
  lengthToken 115 e.toNat s

/-- LL symbol 281 (R249): length 131 + e. -/
def execLen281 (e : BitVec 5) (s : State) : Host.Outcome State Fault Refusal :=
  lengthToken 131 e.toNat s

/-- LL symbol 282 (R250): length 163 + e. -/
def execLen282 (e : BitVec 5) (s : State) : Host.Outcome State Fault Refusal :=
  lengthToken 163 e.toNat s

/-- LL symbol 283 (R251): length 195 + e. -/
def execLen283 (e : BitVec 5) (s : State) : Host.Outcome State Fault Refusal :=
  lengthToken 195 e.toNat s

/-- LL symbol 284 (R252): length 227 + e. -/
def execLen284 (e : BitVec 5) (s : State) : Host.Outcome State Fault Refusal :=
  lengthToken 227 e.toNat s

/-- LL symbol 285 (R253): length 258. -/
def execLen285 (s : State) : Host.Outcome State Fault Refusal :=
  lengthToken 258 0 s

/-- LL symbols 286 and 287 (R254): reserved, whichever of the two it is. -/
def execLlRsvd (_hi : BitVec 1) (s : State) : Host.Outcome State Fault Refusal :=
  infEnd s (.error .invalidSymbol)

/-- The byte loop of `copy` (R295): one byte read, then one byte written. -/
def copyLoop (distance : Nat) : (n : Nat) → State → State
  | 0, s => s
  | n + 1, s => copyLoop distance n (pushOut (s.read .out (s.inf.olen - distance)) s)

/-- `copy(length, distance)` (R295). -/
def copyMatch (length distance : Nat) (s : State) : Except FaultCode State :=
  if s.inf.olen < distance then .error .distanceTooFar
  else if s.inf.outCap.toNat < s.inf.olen + length then .error .capacityError
  else .ok (copyLoop distance length s)

/-- The second half of a match (R223): `distance <- base + f`, then the copy of the pending length; the element ends. -/
def distanceToken (base f : Nat) (s : State) : Host.Outcome State Fault Refusal :=
  infEnd s <|
    match copyMatch s.inf.mlen (base + f) s with
    | .error e => .error e
    | .ok t => .ok { t with inf := { t.inf with sub := .boundary } }

/-- D symbol 0 (R261): distance 1. -/
def execDist0 (s : State) : Host.Outcome State Fault Refusal :=
  distanceToken 1 0 s

/-- D symbol 1 (R262): distance 2. -/
def execDist1 (s : State) : Host.Outcome State Fault Refusal :=
  distanceToken 2 0 s

/-- D symbol 2 (R263): distance 3. -/
def execDist2 (s : State) : Host.Outcome State Fault Refusal :=
  distanceToken 3 0 s

/-- D symbol 3 (R264): distance 4. -/
def execDist3 (s : State) : Host.Outcome State Fault Refusal :=
  distanceToken 4 0 s

/-- D symbol 4 (R265): distance 5 + f. -/
def execDist4 (f : BitVec 1) (s : State) : Host.Outcome State Fault Refusal :=
  distanceToken 5 f.toNat s

/-- D symbol 5 (R266): distance 7 + f. -/
def execDist5 (f : BitVec 1) (s : State) : Host.Outcome State Fault Refusal :=
  distanceToken 7 f.toNat s

/-- D symbol 6 (R267): distance 9 + f. -/
def execDist6 (f : BitVec 2) (s : State) : Host.Outcome State Fault Refusal :=
  distanceToken 9 f.toNat s

/-- D symbol 7 (R268): distance 13 + f. -/
def execDist7 (f : BitVec 2) (s : State) : Host.Outcome State Fault Refusal :=
  distanceToken 13 f.toNat s

/-- D symbol 8 (R269): distance 17 + f. -/
def execDist8 (f : BitVec 3) (s : State) : Host.Outcome State Fault Refusal :=
  distanceToken 17 f.toNat s

/-- D symbol 9 (R270): distance 25 + f. -/
def execDist9 (f : BitVec 3) (s : State) : Host.Outcome State Fault Refusal :=
  distanceToken 25 f.toNat s

/-- D symbol 10 (R271): distance 33 + f. -/
def execDist10 (f : BitVec 4) (s : State) : Host.Outcome State Fault Refusal :=
  distanceToken 33 f.toNat s

/-- D symbol 11 (R272): distance 49 + f. -/
def execDist11 (f : BitVec 4) (s : State) : Host.Outcome State Fault Refusal :=
  distanceToken 49 f.toNat s

/-- D symbol 12 (R273): distance 65 + f. -/
def execDist12 (f : BitVec 5) (s : State) : Host.Outcome State Fault Refusal :=
  distanceToken 65 f.toNat s

/-- D symbol 13 (R274): distance 97 + f. -/
def execDist13 (f : BitVec 5) (s : State) : Host.Outcome State Fault Refusal :=
  distanceToken 97 f.toNat s

/-- D symbol 14 (R275): distance 129 + f. -/
def execDist14 (f : BitVec 6) (s : State) : Host.Outcome State Fault Refusal :=
  distanceToken 129 f.toNat s

/-- D symbol 15 (R276): distance 193 + f. -/
def execDist15 (f : BitVec 6) (s : State) : Host.Outcome State Fault Refusal :=
  distanceToken 193 f.toNat s

/-- D symbol 16 (R277): distance 257 + f. -/
def execDist16 (f : BitVec 7) (s : State) : Host.Outcome State Fault Refusal :=
  distanceToken 257 f.toNat s

/-- D symbol 17 (R278): distance 385 + f. -/
def execDist17 (f : BitVec 7) (s : State) : Host.Outcome State Fault Refusal :=
  distanceToken 385 f.toNat s

/-- D symbol 18 (R279): distance 513 + f. -/
def execDist18 (f : BitVec 8) (s : State) : Host.Outcome State Fault Refusal :=
  distanceToken 513 f.toNat s

/-- D symbol 19 (R280): distance 769 + f. -/
def execDist19 (f : BitVec 8) (s : State) : Host.Outcome State Fault Refusal :=
  distanceToken 769 f.toNat s

/-- D symbol 20 (R281): distance 1025 + f. -/
def execDist20 (f : BitVec 9) (s : State) : Host.Outcome State Fault Refusal :=
  distanceToken 1025 f.toNat s

/-- D symbol 21 (R282): distance 1537 + f. -/
def execDist21 (f : BitVec 9) (s : State) : Host.Outcome State Fault Refusal :=
  distanceToken 1537 f.toNat s

/-- D symbol 22 (R283): distance 2049 + f. -/
def execDist22 (f : BitVec 10) (s : State) : Host.Outcome State Fault Refusal :=
  distanceToken 2049 f.toNat s

/-- D symbol 23 (R284): distance 3073 + f. -/
def execDist23 (f : BitVec 10) (s : State) : Host.Outcome State Fault Refusal :=
  distanceToken 3073 f.toNat s

/-- D symbol 24 (R285): distance 4097 + f. -/
def execDist24 (f : BitVec 11) (s : State) : Host.Outcome State Fault Refusal :=
  distanceToken 4097 f.toNat s

/-- D symbol 25 (R286): distance 6145 + f. -/
def execDist25 (f : BitVec 11) (s : State) : Host.Outcome State Fault Refusal :=
  distanceToken 6145 f.toNat s

/-- D symbol 26 (R287): distance 8193 + f. -/
def execDist26 (f : BitVec 12) (s : State) : Host.Outcome State Fault Refusal :=
  distanceToken 8193 f.toNat s

/-- D symbol 27 (R288): distance 12289 + f. -/
def execDist27 (f : BitVec 12) (s : State) : Host.Outcome State Fault Refusal :=
  distanceToken 12289 f.toNat s

/-- D symbol 28 (R289): distance 16385 + f. -/
def execDist28 (f : BitVec 13) (s : State) : Host.Outcome State Fault Refusal :=
  distanceToken 16385 f.toNat s

/-- D symbol 29 (R290): distance 24577 + f. -/
def execDist29 (f : BitVec 13) (s : State) : Host.Outcome State Fault Refusal :=
  distanceToken 24577 f.toNat s

/-- D symbols 30 and 31 (R292): reserved, whichever of the two it is. -/
def execDRsvd (_hi : BitVec 1) (s : State) : Host.Outcome State Fault Refusal :=
  infEnd s (.error .invalidSymbol)

end Sys2Proof.Machine
end

