-- ==== Sys2Proof/Machine/Dispatch.lean ====
section
/-! DEFINITION. The dispatch: one arm for each instruction. -/

namespace Sys2Proof.Machine

def exec (i : Instr) (s : State) : Host.Outcome State Fault Refusal :=
  match i with
  | .zhdr cmf flg => Sys2Proof.Machine.execZhdr cmf flg s
  | .blkStored bfinal => Sys2Proof.Machine.execBlkStored bfinal s
  | .blkFixed bfinal => Sys2Proof.Machine.execBlkFixed bfinal s
  | .blkDynamic bfinal => Sys2Proof.Machine.execBlkDynamic bfinal s
  | .blkRsvd bfinal => Sys2Proof.Machine.execBlkRsvd bfinal s
  | .storedData len nlen => Sys2Proof.Machine.execStoredData len nlen s
  | .dyn hlit hdist hclen => Sys2Proof.Machine.execDyn hlit hdist hclen s
  | .cl n => Sys2Proof.Machine.execCl n s
  | .cl16 rep => Sys2Proof.Machine.execCl16 rep s
  | .cl17 rep => Sys2Proof.Machine.execCl17 rep s
  | .cl18 rep => Sys2Proof.Machine.execCl18 rep s
  | .lit b => Sys2Proof.Machine.execLit b s
  | .eob => Sys2Proof.Machine.execEob s
  | .len257 => Sys2Proof.Machine.execLen257 s
  | .len258 => Sys2Proof.Machine.execLen258 s
  | .len259 => Sys2Proof.Machine.execLen259 s
  | .len260 => Sys2Proof.Machine.execLen260 s
  | .len261 => Sys2Proof.Machine.execLen261 s
  | .len262 => Sys2Proof.Machine.execLen262 s
  | .len263 => Sys2Proof.Machine.execLen263 s
  | .len264 => Sys2Proof.Machine.execLen264 s
  | .len265 e => Sys2Proof.Machine.execLen265 e s
  | .len266 e => Sys2Proof.Machine.execLen266 e s
  | .len267 e => Sys2Proof.Machine.execLen267 e s
  | .len268 e => Sys2Proof.Machine.execLen268 e s
  | .len269 e => Sys2Proof.Machine.execLen269 e s
  | .len270 e => Sys2Proof.Machine.execLen270 e s
  | .len271 e => Sys2Proof.Machine.execLen271 e s
  | .len272 e => Sys2Proof.Machine.execLen272 e s
  | .len273 e => Sys2Proof.Machine.execLen273 e s
  | .len274 e => Sys2Proof.Machine.execLen274 e s
  | .len275 e => Sys2Proof.Machine.execLen275 e s
  | .len276 e => Sys2Proof.Machine.execLen276 e s
  | .len277 e => Sys2Proof.Machine.execLen277 e s
  | .len278 e => Sys2Proof.Machine.execLen278 e s
  | .len279 e => Sys2Proof.Machine.execLen279 e s
  | .len280 e => Sys2Proof.Machine.execLen280 e s
  | .len281 e => Sys2Proof.Machine.execLen281 e s
  | .len282 e => Sys2Proof.Machine.execLen282 e s
  | .len283 e => Sys2Proof.Machine.execLen283 e s
  | .len284 e => Sys2Proof.Machine.execLen284 e s
  | .len285 => Sys2Proof.Machine.execLen285 s
  | .llRsvd hi => Sys2Proof.Machine.execLlRsvd hi s
  | .dist0 => Sys2Proof.Machine.execDist0 s
  | .dist1 => Sys2Proof.Machine.execDist1 s
  | .dist2 => Sys2Proof.Machine.execDist2 s
  | .dist3 => Sys2Proof.Machine.execDist3 s
  | .dist4 f => Sys2Proof.Machine.execDist4 f s
  | .dist5 f => Sys2Proof.Machine.execDist5 f s
  | .dist6 f => Sys2Proof.Machine.execDist6 f s
  | .dist7 f => Sys2Proof.Machine.execDist7 f s
  | .dist8 f => Sys2Proof.Machine.execDist8 f s
  | .dist9 f => Sys2Proof.Machine.execDist9 f s
  | .dist10 f => Sys2Proof.Machine.execDist10 f s
  | .dist11 f => Sys2Proof.Machine.execDist11 f s
  | .dist12 f => Sys2Proof.Machine.execDist12 f s
  | .dist13 f => Sys2Proof.Machine.execDist13 f s
  | .dist14 f => Sys2Proof.Machine.execDist14 f s
  | .dist15 f => Sys2Proof.Machine.execDist15 f s
  | .dist16 f => Sys2Proof.Machine.execDist16 f s
  | .dist17 f => Sys2Proof.Machine.execDist17 f s
  | .dist18 f => Sys2Proof.Machine.execDist18 f s
  | .dist19 f => Sys2Proof.Machine.execDist19 f s
  | .dist20 f => Sys2Proof.Machine.execDist20 f s
  | .dist21 f => Sys2Proof.Machine.execDist21 f s
  | .dist22 f => Sys2Proof.Machine.execDist22 f s
  | .dist23 f => Sys2Proof.Machine.execDist23 f s
  | .dist24 f => Sys2Proof.Machine.execDist24 f s
  | .dist25 f => Sys2Proof.Machine.execDist25 f s
  | .dist26 f => Sys2Proof.Machine.execDist26 f s
  | .dist27 f => Sys2Proof.Machine.execDist27 f s
  | .dist28 f => Sys2Proof.Machine.execDist28 f s
  | .dist29 f => Sys2Proof.Machine.execDist29 f s
  | .dRsvd hi => Sys2Proof.Machine.execDRsvd hi s
  | .rowNone => Sys2Proof.Machine.execRowNone s
  | .rowSub => Sys2Proof.Machine.execRowSub s
  | .rowUp => Sys2Proof.Machine.execRowUp s
  | .rowAvg => Sys2Proof.Machine.execRowAvg s
  | .rowPaeth => Sys2Proof.Machine.execRowPaeth s
  | .rowInvalid ft => Sys2Proof.Machine.execRowInvalid ft s
  | .row0None => Sys2Proof.Machine.execRow0None s
  | .row0Sub => Sys2Proof.Machine.execRow0Sub s
  | .row0Up => Sys2Proof.Machine.execRow0Up s
  | .row0Avg => Sys2Proof.Machine.execRow0Avg s
  | .row0Paeth => Sys2Proof.Machine.execRow0Paeth s
  | .row0Invalid ft => Sys2Proof.Machine.execRow0Invalid ft s

end Sys2Proof.Machine
end

