-- ==== Sys2Proof/Machine/Fetch.lean ====
section
/-! DEFINITION. Fetching: which format comes next (R98, R180, R300), reading its word and extra bits from the stream, and
decoding them. -/

namespace Sys2Proof.Machine

/-- The format INF reads next while it is busy (R180), inside an element the one the element goes on with (R196, R223). -/
def State.infFormat (s : State) : Format :=
  match s.inf.sub with
  | .clTokens => .clsym
  | .distance => .dsym
  | .boundary =>
    match s.inf.phase with
    | .zhdr => .zhdr
    | .stored => .stored
    | .dynhdr => .dynhdr
    | .syms => .llsym
    | .bhdr | .idle | .done | .error => .bhdr

/-- Two bit fields one after the other. -/
def consumeTwo (n m : Nat) (s : State) : Read (Nat × Nat) :=
  match consume n s with
  | .error f => .error f
  | .ok (v, t) =>
    match consume m t with
    | .error f => .error f
    | .ok (w, u) => .ok ((v, w), u)

/-- Two bytes of a stored block's header, low byte first (R69, R188). -/
def nextPair (s : State) : Read Nat :=
  match nextByte .insufficientData s with
  | .error f => .error f
  | .ok (lo, t) =>
    match nextByte .insufficientData t with
    | .error f => .error f
    | .ok (hi, u) => .ok (pairLE lo hi, u)

/-- A Huffman code of a table and then the extra bits of its symbol (R96, R97). -/
def fetchSym (f : Format) (T : HuffTable) (s : State) : Read (Nat × Nat) :=
  match decodeSym T s with
  | .error e => .error e
  | .ok (sym, t) =>
    match consume (extraBits f sym) t with
    | .error e => .error e
    | .ok (x, u) => .ok ((sym, x), u)

/-- The word and the extra bits of the next table row of a format of INF. -/
def fetchWord (f : Format) (s : State) : Read (Nat × Nat) :=
  match f with
  | .zhdr =>
    match consumeTwo 8 8 s with
    | .error e => .error e
    | .ok ((cmf, flg), t) => .ok ((cmf + 256 * flg, 0), t)
  | .stored =>
    match nextPair (align s) with
    | .error e => .error e
    | .ok (len, t) =>
      match nextPair t with
      | .error e => .error e
      | .ok (nlen, u) => .ok ((len + 65536 * nlen, 0), u)
  | .dynhdr =>
    match consumeTwo 5 5 s with
    | .error e => .error e
    | .ok ((hlit, hdist), t) =>
      match consume 4 t with
      | .error e => .error e
      | .ok (hclen, u) => .ok ((hlit + 32 * hdist + 1024 * hclen, 0), u)
  | .clsym => fetchSym .clsym s.tabs.clT s
  | .llsym => fetchSym .llsym s.llTable s
  | .dsym => fetchSym .dsym s.dTable s
  | .bhdr | .filt | .filt0 =>
    match consumeTwo 1 2 s with
    | .error e => .error e
    | .ok ((bfinal, btype), t) => .ok ((bfinal + 2 * btype, 0), t)

/-- What a fetch gives: an instruction and the state past its word, a fault to enter, or a word the machine has no meaning for. -/
inductive Fetched where
  | instr (i : Instr) (s : State)
  | raise (f : FaultCode)
  | refuse (r : Refusal)
deriving DecidableEq, Repr

/-- A decoded symbol outside its alphabet: R220 and R223 raise InvalidSymbol for every LL symbol from 286 and every D symbol
from 30 on; a code-length symbol above 18 has no rule and no built table holds one (R104; assumption 18). -/
def badWord (f : Format) : Fetched :=
  match f with
  | .llsym | .dsym => .raise .invalidSymbol
  | .zhdr | .bhdr | .stored | .dynhdr | .clsym | .filt | .filt0 => .refuse (.noSuchSymbol f)

/-- The next instruction of INF. -/
def fetchInf (s : State) : Fetched :=
  match fetchWord s.infFormat s with
  | .error f => .raise f
  | .ok ((w, x), t) =>
    match decode s.infFormat w x with
    | .ok i => .instr i t
    | .error _ => badWord s.infFormat

/-- The format of SLR's next filter byte: row 0 has rules of its own (R306, R117). -/
def State.slrFormat (s : State) : Format := if s.slr.row = 0 then .filt0 else .filt

/-- The next instruction of SLR: the filter byte of row `row` (R302). Nothing is consumed: `row` is the program counter. -/
def fetchSlr (s : State) : Fetched :=
  match decode s.slrFormat (s.read .out s.rowBase).toNat 0 with
  | .ok i => .instr i s
  | .error _ => badWord s.slrFormat

end Sys2Proof.Machine
end

