-- ==== Sys2Proof/Machine/HostPort.lean ====
section
/-! DEFINITION. The host interface: the register map (R28), the START actions (R29, R37, R301), writes while busy (R411),
memory access (R81), reset (R400). -/

namespace Sys2Proof.Machine

/-- `INF_CTRL.START` (R29). It is not interlocked with SLR: a run of SLR in progress is disturbed (R407; assumption 9). -/
def startInf (zlib : Bool) (s : State) : State :=
  { s with
    inf := { s.inf with
      zlibEn := zlib
      acc := 0
      cnt := 0
      ipos := 0
      olen := 0
      finalSeen := false
      tsel := .fixed
      err := 0
      phase := if zlib then .zhdr else .bhdr
      sub := .boundary }
    disturbed := s.disturbed || s.slrBusy }

/-- The legal pairs of R341. -/
def legalPair (c o : Nat) : Bool :=
  decide (1 ≤ c ∧ c ≤ 4 ∧ o = c) || decide (c = 1 ∧ o = 2) || decide (c = 3 ∧ o = 4)

/-- `(W*C + 1) * H`, in the naturals (R301). -/
def State.needed (s : State) : Nat := (s.stride + 1) * s.slr.height.toNat

/-- `W*O*H`, in the naturals (R301). -/
def State.imgSize (s : State) : Nat := s.slr.width.toNat * s.slr.outCh.toNat * s.slr.height.toNat

/-- The start checks of R301 in their order: the fault the first failing one raises, or none. -/
def slrCheck (s : State) : Option FaultCode :=
  let w := s.slr.width.toNat
  let h := s.slr.height.toNat
  let c := s.slr.rawCh.toNat
  if s.inf.phase ≠ .done then some .notReady
  else if w = 0 ∨ Config.dimMax < w ∨ h = 0 ∨ Config.dimMax < h then some .unsupportedConfig
  else if c = 0 ∨ 4 < c then some .unsupportedConfig
  else if legalPair c s.slr.outCh.toNat = false then some .unsupportedConfig
  else if Config.sizeLimit ≤ s.needed ∨ Config.sizeLimit ≤ s.imgSize then some .capacityError
  else if s.inf.olen < s.needed then some .capacityError
  else if s.caps.rowCap < s.stride then some .capacityError
  else if s.caps.imgCap < s.imgSize then some .capacityError
  else none

/-- What `SLR_CTRL.START` sets before its checks (R37). The run it begins is not disturbed (assumption 9). -/
def clearSlr (flip : Bool) (s : State) : State :=
  { s with
    slr := { s.slr with flip := flip, err := 0, row := 0, imgLen := 0, forcedTransparency := false }
    disturbed := false }

/-- `SLR_CTRL.START` (R37, R301). -/
def startSlr (flip : Bool) (s : State) : State :=
  let t := clearSlr flip s
  match slrCheck t with
  | some f => slrFault f t
  | none => { t with slr := { t.slr with imgLen := t.imgSize, phase := .rows } }

/-- A host write of a register (R28); ignored while the unit it configures is busy (R411). -/
def hostWrite (reg : Fin 16) (v : Word) (s : State) : State :=
  match reg.val with
  | 0 =>
    if s.infBusy then s
    else if v.getLsbD 0 then startInf (v.getLsbD 1) s
    else { s with inf := { s.inf with zlibEn := v.getLsbD 1 } }
  | 3 => if s.infBusy then s else { s with inf := { s.inf with inLen := v } }
  | 4 => if s.infBusy then s else { s with inf := { s.inf with outCap := v } }
  | 8 =>
    if s.slrBusy then s
    else if v.getLsbD 0 then startSlr (v.getLsbD 1) s
    else { s with slr := { s.slr with flip := v.getLsbD 1 } }
  | 11 => if s.slrBusy then s else { s with slr := { s.slr with width := v } }
  | 12 => if s.slrBusy then s else { s with slr := { s.slr with height := v } }
  | 13 =>
    if s.slrBusy then s
    else { s with slr := { s.slr with rawCh := v.extractLsb' 0 3, outCh := v.extractLsb' 4 3 } }
  | 15 => { s with diag := v.setWidth 8 }
  | _ => s

/-- A host read of a register (R28): no side effect (R30). -/
def hostRead (reg : Fin 16) (s : State) : Word :=
  match reg.val with
  | 0 => BitVec.ofNat 32 (2 * bit s.inf.zlibEn)
  | 1 => BitVec.ofNat 32 (infStatus s)
  | 2 => s.inf.err.setWidth 32
  | 3 => s.inf.inLen
  | 4 => s.inf.outCap
  | 5 => BitVec.ofNat 32 s.inf.olen
  | 6 => BitVec.ofNat 32 s.inf.ipos
  | 7 => BitVec.ofNat 32 (s.inf.cnt % 64)
  | 8 => BitVec.ofNat 32 (2 * bit s.slr.flip)
  | 9 => BitVec.ofNat 32 (slrStatus s)
  | 10 => s.slr.err.setWidth 32
  | 11 => s.slr.width
  | 12 => s.slr.height
  | 13 => BitVec.ofNat 32 (s.slr.rawCh.toNat + 16 * s.slr.outCh.toNat)
  | 14 => BitVec.ofNat 32 s.slr.imgLen
  | _ => s.diag.setWidth 32

/-- A host read of a byte of a space (R81): only while both units are idle, and only of a byte that exists. -/
def hostReadByte (sp : Space) (a : Nat) (s : State) : Option Byte :=
  if s.infBusy || s.slrBusy then none
  else if a < s.capacity sp then some (s.read sp a) else none

/-- A host write of a byte of a space: refused while a unit is busy (R406, U3; assumption 8), a fault where the space has no
such byte (R72; assumption 11). -/
def hostWriteByte (sp : Space) (a : Nat) (v : Byte) (s : State) : Host.Outcome State Fault Refusal :=
  if s.infBusy || s.slrBusy then .refused .memoryWhileBusy
  else if a < s.capacity sp then .next (s.write sp a v)
  else .fault (.noSuchAddress sp a)

/-- Reset (R400): every register as R43, memory unspecified again, the instance and the host's further moves untouched
(assumption 24). -/
def resetMachine (s : State) : State :=
  { State.reset with caps := s.caps, hostQueue := s.hostQueue, draws := s.draws, epoch := s.epoch + 1 }

end Sys2Proof.Machine
end

