-- ==== Sys2Proof/Machine/Run.lean ====
section
/-! DEFINITION. Running: a table row of INF, an element of INF (R9, R180), a step of SLR (R300), the units, the host's moves. -/

namespace Sys2Proof.Machine

/-- Run what a fetch that began in `s` gives: the instruction, or the entry of the fault the fetch raised. -/
def runFetched (s : State) : Fetched → Host.Outcome State Fault Refusal
  | .instr i t => exec i t
  | .raise f => .next (infFault f s)
  | .refuse r => .refused r

/-- One table row of INF: fetch, decode, execute. -/
def infRow (s : State) : Host.Outcome State Fault Refusal := runFetched s (fetchInf s)

/-- Run on inside an element until it ends: the tokens of a dynamic header, the second half of a match (R9: an element is
atomic to the host). -/
def finishElement : (fuel : Nat) → Host.Outcome State Fault Refusal → Host.Outcome State Fault Refusal
  | 0, o => o
  | _ + 1, .fault r => .fault r
  | _ + 1, .refused r => .refused r
  | fuel + 1, .next s => if s.inf.sub = .boundary then .next s else finishElement fuel (infRow s)

/-- One INF step (R9, R180): one stream element. A dynamic header has at most 320 tokens (R416). -/
def infStep (s : State) : Host.Outcome State Fault Refusal := finishElement 320 (infRow s)

/-- One SLR step (R300): a scanline, or the whole flip; in a run the host has disturbed, see `disturbedStep`. -/
def slrStep (s : State) : Host.Outcome State Fault Refusal :=
  if s.disturbed then .next (disturbedStep s)
  else
    match s.slr.phase with
    | .flipping => .next (flipStep s)
    | .rows | .idle | .done | .error => runFetched s (fetchSlr s)

/-- IN_LEN and OUT_CAP fit their spaces (R28, R404 (a)). -/
def State.lengthsFit (s : State) : Bool :=
  decide (s.inf.inLen.toNat ≤ s.caps.inCap ∧ s.inf.outCap.toNat ≤ s.caps.outCapMax)

/-- INF takes a step, unless its lengths are beyond its spaces (R404 (a), U4; assumption 10). -/
def infTurn (s : State) : Host.Outcome State Fault Refusal :=
  if s.lengthsFit then infStep s else .refused .lengthsBeyondCapacity

/-- Both units are busy: one of them takes a step, and which one is open (R407; assumption 9). -/
def contendedStep (s : State) : Host.Outcome State Fault Refusal :=
  let t := { s with draws := s.draws + 1 }
  if Config.freeTurn s.draws then infTurn t else slrStep t

/-- A busy unit takes a step; with none busy nothing happens (R180, R300; assumption 6). -/
def unitStep (s : State) : Host.Outcome State Fault Refusal :=
  if s.infBusy then
    if s.slrBusy then contendedStep s else infTurn s
  else if s.slrBusy then slrStep s
  else .next s

/-- The unit is busy. -/
def State.busy (s : State) : CoreUnit → Bool
  | .inf => s.infBusy
  | .slr => s.slrBusy

/-- One move of the host on a state whose queue no longer holds it; waiting and passing let the busy unit take a step and put
the rest of the move back (assumption 5). -/
def hostMove (op : HostOp) (s : State) : Host.Outcome State Fault Refusal :=
  match op with
  | .write reg v => .next (hostWrite reg v s)
  | .writeMem sp a v => hostWriteByte sp a v s
  | .wait u => if s.busy u then unitStep { s with hostQueue := .wait u :: s.hostQueue } else .next s
  | .pass 0 => .next s
  | .pass (n + 1) =>
    if s.infBusy || s.slrBusy then unitStep { s with hostQueue := .pass n :: s.hostQueue } else .next s
  | .reset => .next (resetMachine s)

/-- One step of the whole machine: the host's next move if there is one, else a step of the busy unit. -/
def machineStep (s : State) : Host.Outcome State Fault Refusal :=
  match s.hostQueue with
  | [] => unitStep s
  | op :: rest => hostMove op { s with hostQueue := rest }

end Sys2Proof.Machine
end

