-- ==== Sys2Proof/Machine/Place.lean ====
section
/-! DEFINITION. Placing one instruction where the machine fetches next (assumption 12): the bits in IN with the bit reader at
stream bit 0, or the filter byte in OUT. -/

namespace Sys2Proof.Machine

/-- Bytes stored at consecutive indexes from `a` on. -/
def State.writeBytes (s : State) (sp : Space) : (a : Nat) → List Byte → State
  | _, [] => s
  | a, v :: vs => (s.write sp a v).writeBytes sp (a + 1) vs

/-- The table that spells code-length symbol `n` with the 5-bit code `n`. -/
def flatCl : HuffTable :=
  { fixD with lengths := fixD.lengths.take 19, symbols := fixD.symbols.take 19 }

/-- The phase, the place inside the element and the tables with which INF reads the format next. -/
def selectInf (f : Format) (s : State) : State :=
  match f with
  | .zhdr => { s with inf := { s.inf with phase := .zhdr, sub := .boundary } }
  | .bhdr => { s with inf := { s.inf with phase := .bhdr, sub := .boundary } }
  | .stored => { s with inf := { s.inf with phase := .stored, sub := .boundary } }
  | .dynhdr => { s with inf := { s.inf with phase := .dynhdr, sub := .boundary } }
  | .llsym => { s with inf := { s.inf with phase := .syms, sub := .boundary, tsel := .fixed } }
  | .dsym => { s with inf := { s.inf with phase := .syms, sub := .distance, tsel := .fixed } }
  | .clsym =>
    { s with
      inf := { s.inf with phase := .dynhdr, sub := .clTokens, hlit := 257, hdist := 1 }
      tabs := { s.tabs with clT := flatCl, lens := [] } }
  | .filt | .filt0 => s

/-- An INF element: its bits are all of IN, and INF stands at stream bit 0 of them. -/
def placeInf (e : Encoded) (s : State) : State :=
  let bytes := packBytes e.bits
  let t := selectInf e.fmt s
  State.writeBytes
    { t with
      inf := { t.inf with acc := 0, cnt := 0, ipos := 0, inLen := BitVec.ofNat 32 bytes.length }
      slr := { t.slr with phase := .idle }
      hostQueue := [] }
    .inn 0 bytes

/-- A filter byte: SLR stands at row `row`, whose first byte in OUT it is. -/
def placeRow (row : Nat) (ft : Byte) (s : State) : State :=
  let t :=
    { s with
      inf := { s.inf with phase := .done, sub := .boundary }
      slr := { s.slr with phase := .rows, row := row }
      hostQueue := []
      disturbed := false }
  t.write .out t.rowBase ft

/-- Place an encoded instruction. -/
def place (e : Encoded) (s : State) : State :=
  match e.fmt with
  | .filt => placeRow 1 (BitVec.ofNat 8 e.word) s
  | .filt0 => placeRow 0 (BitVec.ofNat 8 e.word) s
  | .zhdr | .bhdr | .stored | .dynhdr | .clsym | .llsym | .dsym => placeInf e s

end Sys2Proof.Machine
end

