-- ==== Sys2Proof/Machine/Step.lean ====
section
/-! DEFINITION. The step, and placing a table word where it fetches. -/

namespace Sys2Proof.Machine

/-- One step of the machine. -/
def step (s : State) : Host.Outcome State Fault Refusal := Sys2Proof.Machine.machineStep s

/-- `s` with the instruction of a table word placed where `step` fetches next (assumption 12); `s` itself for a word the
decoder rejects. -/
def State.withFetchWord (s : State) (nbits w : Nat) : State :=
  match decodeTableWord nbits w with
  | some i => place (encode i) s
  | none => s

end Sys2Proof.Machine
end

