-- ==== Sys2Proof/Safety.lean ====
section
/-! DEFINITION. The terms in which the statements are written: the invariants of a safe run, what a step leaves unchanged, and
the functions of the spec that are said apart from the way the machine computes them. -/

namespace Sys2Proof.Machine

/-! ### Invariants -/

/-- Every space holds its bytes in the canonical form. -/
def State.memoriesOk (s : State) : Bool :=
  Memory.wf s.mem.inn && Memory.wf s.mem.out && Memory.wf s.mem.row0 && Memory.wf s.mem.row1 && Memory.wf s.mem.img

/-- INV-ACC (R21, R132). -/
structure State.BitReaderOk (s : State) : Prop where
  cnt_le : s.inf.cnt ≤ 32
  acc_lt : s.inf.acc.toNat < 2 ^ s.inf.cnt
  ipos_le : s.inf.ipos ≤ s.inf.inLen.toNat
  cnt_le_bits : s.inf.cnt ≤ 8 * s.inf.ipos
  acc_bits : ∀ i < s.inf.cnt, s.inf.acc.getLsbD i = s.streamBit (s.bitpos + i)

/-- A run of INF in progress: the bit reader keeps INV-ACC and the output stays within OUT_CAP (R22). -/
def State.InfRunOk (s : State) : Prop :=
  s.infBusy = true → s.BitReaderOk ∧ s.inf.olen ≤ s.inf.outCap.toNat

/-- What `build` makes of some code lengths (R150). -/
def BuiltFrom (cap : Nat) (T : HuffTable) : Prop :=
  ∃ L : List Nat, L.length ≤ cap ∧ (∀ l ∈ L, l ≤ 15) ∧ build cap L = some T

/-- INF stands at the boundary of an element, and the dynamic tables are built ones whenever a symbol step reads them
(R34, R412). -/
def State.ElementOk (s : State) : Prop :=
  s.inf.sub = .boundary ∧
    (s.inf.phase = .syms → s.inf.tsel = .dynamic →
      BuiltFrom Config.nLL s.tabs.dynLL ∧ BuiltFrom Config.nD s.tabs.dynD)

/-- A run of SLR in progress: the configuration has passed the start checks (R301), `img_len` is the size of the image, `row`
is in range (R36), and unless the host has restarted INF under the run the data of every row is there (R407). -/
structure State.SlrRunOk (s : State) : Prop where
  width : 1 ≤ s.slr.width.toNat ∧ s.slr.width.toNat ≤ Config.dimMax
  height : 1 ≤ s.slr.height.toNat ∧ s.slr.height.toNat ≤ Config.dimMax
  channels : legalPair s.slr.rawCh.toNat s.slr.outCh.toNat = true
  sizes : s.needed < Config.sizeLimit ∧ s.imgSize < Config.sizeLimit
  capacities : s.stride ≤ s.caps.rowCap ∧ s.imgSize ≤ s.caps.imgCap
  imgLen : s.slr.imgLen = s.imgSize
  inRows : s.slr.phase = .rows → s.slr.row < s.slr.height.toNat
  inFlip : s.slr.phase = .flipping → s.slr.row = s.slr.height.toNat ∧ s.slr.flip = true
  data : s.disturbed = false → s.inf.phase = .done ∧ s.needed ≤ s.inf.olen

/-- The error registers (R31, R361): a code of the unit's own faults in the phase ERROR, 0 in every other phase. -/
def State.ErrorsOk (s : State) : Prop :=
  (if s.inf.phase = .error then 1 ≤ s.inf.err.toNat ∧ s.inf.err.toNat ≤ 8 else s.inf.err = 0) ∧
    (if s.slr.phase = .error then 8 ≤ s.slr.err.toNat ∧ s.slr.err.toNat ≤ 11 else s.slr.err = 0)

/-! ### What is left unchanged -/

/-- Every byte of every space reads the same. -/
def SameMemory (s t : State) : Prop := ∀ (sp : Space) (a : Nat), t.read sp a = s.read sp a

/-- Every byte outside the `n` bytes of `sp` from `lo` on reads the same. -/
def SameOutside (sp : Space) (lo n : Nat) (s t : State) : Prop :=
  ∀ (sp' : Space) (a : Nat), ¬(sp' = sp ∧ lo ≤ a ∧ a < lo + n) → t.read sp' a = s.read sp' a

/-- Everything but INF's registers and memory is the same. -/
def SameBesidesInf (s t : State) : Prop :=
  t.tabs = s.tabs ∧ t.slr = s.slr ∧ t.diag = s.diag ∧ t.caps = s.caps ∧ t.hostQueue = s.hostQueue ∧ t.draws = s.draws ∧
    t.epoch = s.epoch ∧ t.disturbed = s.disturbed ∧ t.spoils = s.spoils

/-- Everything but SLR's registers and memory is the same. -/
def SameBesidesSlr (s t : State) : Prop :=
  t.inf = s.inf ∧ t.tabs = s.tabs ∧ t.diag = s.diag ∧ t.caps = s.caps ∧ t.hostQueue = s.hostQueue ∧ t.draws = s.draws ∧
    t.epoch = s.epoch ∧ t.disturbed = s.disturbed ∧ t.spoils = s.spoils

/-! ### The stream (R66, R67, R139) -/

/-- Bits of the stream not consumed yet. -/
def State.bitsLeft (s : State) : Nat := 8 * s.inf.inLen.toNat - s.bitpos

/-- The `n`-bit field at stream bit `p`, bits past the end of the stream read as 0 (R136, R139). -/
def State.paddedField (s : State) (p : Nat) : (n : Nat) → Nat
  | 0 => 0
  | n + 1 => bit (decide (p < 8 * s.inf.inLen.toNat) && s.streamBit p) + 2 * s.paddedField (p + 1) n

/-- `t` is `s` with `n` more bits consumed: only `acc`, `cnt`, `ipos` differ, and INV-ACC holds. -/
def ReaderMoved (n : Nat) (s t : State) : Prop :=
  t = { s with inf := { s.inf with acc := t.inf.acc, cnt := t.inf.cnt, ipos := t.inf.ipos } } ∧ t.BitReaderOk ∧
    t.bitpos = s.bitpos + n

/-! ### Huffman codes -/

/-- The number of symbols with a code of `l` bits (R153): length 0 is no code. -/
def codesOfLength (L : List Nat) (l : Nat) : Nat := if l = 0 then 0 else L.count l

/-- The canonical code of the first symbol of length `l` (R154, R156). -/
def firstCodeOf (L : List Nat) : (l : Nat) → Nat
  | 0 => 0
  | l + 1 => 2 * (firstCodeOf L l + codesOfLength L l)

/-- The canonical code of symbol `s` (R151). -/
def canonicalCode (L : List Nat) (s : Nat) : Nat :=
  firstCodeOf L (L.getD s 0) + (L.take s).count (L.getD s 0)

/-- `2^15` times the sum of `2^(-l)` over the coded symbols (R154). -/
def kraftSum (L : List Nat) : Nat :=
  ((L.filter fun l => decide (l ≠ 0)).map fun l => 2 ^ (15 - l)).sum

/-- Symbol `s` is the one whose code the window begins with (R169). -/
def CodeMatches (L : List Nat) (window s : Nat) : Prop :=
  s < L.length ∧ L.getD s 0 ≠ 0 ∧ window % 2 ^ L.getD s 0 = bitrev (canonicalCode L s) (L.getD s 0)

/-- In the table, the `n`-bit code `code` is the code of `sym`, whatever bits follow it. -/
def HasCode (T : HuffTable) (n code sym : Nat) : Prop :=
  ∀ window < 65536, window % 2 ^ n = bitrev code n → lookup T window = .ok (n, sym)

/-! ### Elements -/

/-- The block header of a BFINAL and a BTYPE (R93, R101). -/
def blockHeader (bfinal btype : Nat) : Instr :=
  match btype with
  | 0 => .blkStored (bfinal = 1)
  | 1 => .blkFixed (bfinal = 1)
  | 2 => .blkDynamic (bfinal = 1)
  | _ => .blkRsvd (bfinal = 1)

/-- The lengths of the code-length alphabet that `n` 3-bit fields at stream bit `p` give (R194). -/
def State.clLengths (s : State) (p n : Nat) : List Nat :=
  (List.range 19).map fun k =>
    if clOrder.idxOf k < n then s.streamField (p + 3 * clOrder.idxOf k) 3 else 0

/-- A length symbol: its number and extra bits, its code in the fixed table, and the match length it gives; the length waits in
`mlen`, the local `length` of R223, for the distance. -/
def LengthMeans (i : Instr) (sym n code k e length : Nat) : Prop :=
  encode i = ⟨.llsym, sym, e⟩ ∧ extraBits .llsym sym = k ∧ HasCode fixLL n code sym ∧
    ∀ s, exec i s = .next { s with inf := { s.inf with mlen := length, sub := .distance } }

/-- `t` is `s` after `copy(length, distance)` (R295): the bytes, what they are appended to, and nothing else but `sub`. -/
def CopyDone (length distance : Nat) (sub : SubPhase) (s t : State) : Prop :=
  t.inf = { s.inf with olen := s.inf.olen + length, sub := sub } ∧ SameBesidesInf s t ∧
    (∀ i < length, t.read .out (s.inf.olen + i) = s.read .out (s.inf.olen - distance + i % distance)) ∧
    SameOutside .out s.inf.olen length s t

/-- A distance symbol: its number and extra bits, its code in the fixed table, and the copy it performs with the length that
waits in `mlen`; the two faults come in the order of R295. -/
def DistanceMeans (i : Instr) (sym code k f distance : Nat) : Prop :=
  encode i = ⟨.dsym, sym, f⟩ ∧ extraBits .dsym sym = k ∧ HasCode fixD 5 code sym ∧
    ∀ s : State,
      (distance ≤ s.inf.olen → s.inf.olen + s.inf.mlen ≤ s.inf.outCap.toNat →
        ∃ t, exec i s = .next t ∧ CopyDone s.inf.mlen distance .boundary s t) ∧
      (s.inf.olen < distance → exec i s = .next (infFault .distanceTooFar s)) ∧
      (distance ≤ s.inf.olen → s.inf.outCap.toNat < s.inf.olen + s.inf.mlen →
        exec i s = .next (infFault .capacityError s))

/-- A code-length token that writes `r` copies of `v` (R196, R201 to R204), in a header of `hlit + hdist` lengths of which the
list `lens` holds those written so far: it goes on, ends the header and builds both tables, or raises InvalidHuffmanTree. -/
def TokenMeans (i : Instr) (r : Nat) (v : BitVec 4) (s : State) : Prop :=
  let lens := s.tabs.lens ++ List.replicate r v
  (lens.length < s.total → exec i s = .next { s with tabs := { s.tabs with lens := lens } }) ∧
    (lens.length = s.total →
      ∀ ll d, build Config.nLL ((lens.take s.inf.hlit).map BitVec.toNat) = some ll →
        build Config.nD ((lens.drop s.inf.hlit).map BitVec.toNat) = some d →
        exec i s = .next
          { s with
            inf := { s.inf with tsel := .dynamic, phase := .syms, sub := .boundary }
            tabs := { s.tabs with lens := lens, dynLL := ll, dynD := d } }) ∧
    (lens.length = s.total →
      build Config.nLL ((lens.take s.inf.hlit).map BitVec.toNat) = none ∨
          build Config.nD ((lens.drop s.inf.hlit).map BitVec.toNat) = none →
        exec i s = .next (infFault .invalidHuffmanTree s)) ∧
    (s.total < lens.length → exec i s = .next (infFault .invalidHuffmanTree s))

/-! ### Scanlines -/

/-- The branch-free form of the Paeth predictor (R323). -/
def paethBranchFree (a b c : Byte) : Byte :=
  let thresh : Int := 3 * (c.toNat : Int) - ((a.toNat : Int) + b.toNat)
  let lo := if a.toNat ≤ b.toNat then a else b
  let hi := if a.toNat ≤ b.toNat then b else a
  if thresh ≤ lo.toNat then hi
  else if (hi.toNat : Int) ≤ thresh then lo
  else c

/-- `t` is `s` after one scanline (R303, R343) whose predictor of the neighbours left, above and upper left is `p`: the row in
the current row buffer, left to right; the row of IMG, expanded; `row`, `forced_transparency`, the phase; and nothing else. -/
structure RowDone (p : Byte → Byte → Byte → Nat) (s t : State) : Prop where
  row : ∀ x < s.stride,
    t.read (curRow s.slr.row) x =
      unfilterByte (s.read .out (s.slr.row * (s.stride + 1) + 1 + x))
        (p (if s.slr.rawCh.toNat ≤ x then t.read (curRow s.slr.row) (x - s.slr.rawCh.toNat) else 0)
          (if 1 ≤ s.slr.row then s.read (prevRow s.slr.row) x else 0)
          (if 1 ≤ s.slr.row ∧ s.slr.rawCh.toNat ≤ x then s.read (prevRow s.slr.row) (x - s.slr.rawCh.toNat) else 0))
  image : ∀ px < s.slr.width.toNat, ∀ k < s.slr.outCh.toNat,
    t.read .img ((s.slr.row * s.slr.width.toNat + px) * s.slr.outCh.toNat + k) =
      if k < s.slr.rawCh.toNat then t.read (curRow s.slr.row) (px * s.slr.rawCh.toNat + k) else 255
  registers : t.slr =
    { s.slr with
      row := s.slr.row + 1
      forcedTransparency := if s.slr.outCh = s.slr.rawCh then s.slr.forcedTransparency else true
      phase :=
        if s.slr.row + 1 = s.slr.height.toNat then (if s.slr.flip then .flipping else .done) else s.slr.phase }
  rest : SameBesidesSlr s t
  memory : ∀ (sp : Space) (a : Nat),
    ¬(sp = curRow s.slr.row ∧ a < s.stride) →
    ¬(sp = .img ∧ s.slr.row * s.imgRow ≤ a ∧ a < s.slr.row * s.imgRow + s.imgRow) →
    t.read sp a = s.read sp a

/-- The filtered bytes of the next row in OUT are those the forward filter of predictor `p` makes of the bytes `raw` (R325). -/
def RowIsFiltered (p : Byte → Byte → Byte → Nat) (raw : Nat → Byte) (s : State) : Prop :=
  ∀ x < s.stride,
    s.read .out (s.slr.row * (s.stride + 1) + 1 + x) =
      raw x -
        BitVec.ofNat 8
          (p (if s.slr.rawCh.toNat ≤ x then raw (x - s.slr.rawCh.toNat) else 0)
            (if 1 ≤ s.slr.row then s.read (prevRow s.slr.row) x else 0)
            (if 1 ≤ s.slr.row ∧ s.slr.rawCh.toNat ≤ x then s.read (prevRow s.slr.row) (x - s.slr.rawCh.toNat) else 0))

/-- The instruction gives back the bytes `raw` of a row filtered with predictor `p` (R325). -/
def RowRestores (i : Instr) (p : Byte → Byte → Byte → Nat) (raw : Nat → Byte) (s : State) : Prop :=
  RowIsFiltered p raw s → ∃ t, exec i s = .next t ∧ ∀ x < s.stride, t.read (curRow s.slr.row) x = raw x

end Sys2Proof.Machine
end

