-- ==== Sys2Proof/Certificates/Slice0/Obligations.lean ====
section
/-! DEFINITION. The statements about the model, one `def Obligations.<Name> : Prop` each, from the numbered rules of the spec. -/

open Sys2Proof Sys2Proof.Machine

/-! ### Encoding -/

/-- Decoding an encoded well-formed instruction gives it back, with every operand at every value (R92 to R99, R117). -/
def Obligations.DecodeOfEncode : Prop :=
  ∀ i : Instr, i.wf = true → decode (encode i).fmt (encode i).word (encode i).extra = .ok i

/-- The other direction, and exactly which words are rejected: a word of its format with the extra bits its symbol has decodes to
the well-formed instruction whose encoding it is; only code-length symbols above 18, LL symbols from 288 and words wider than
their format have none (R101 to R105, R117). -/
def Obligations.EncodeOfDecode : Prop :=
  ∀ (f : Format) (w x : Nat), x < 2 ^ extraBits f w →
    (w < 2 ^ f.wordBits → (f = .clsym → w ≤ 18) → (f = .llsym → w < 288) →
      ∃ i, decode f w x = .ok i ∧ i.wf = true ∧ encode i = ⟨f, w, x⟩) ∧
    (2 ^ f.wordBits ≤ w ∨ (f = .clsym ∧ 18 < w) ∨ (f = .llsym ∧ 288 ≤ w) → decode f w x = .error (.noRow f w))

/-- Words written out from the spec's encodings decode to the instructions they stand for (R92 to R97, R105). -/
def Obligations.WrittenWords : Prop :=
  decode .zhdr 0b1001110001111000 0 = .ok (.zhdr 0x78 0x9C) ∧
    decode .bhdr 0b001 0 = .ok (.blkStored true) ∧ decode .bhdr 0b010 0 = .ok (.blkFixed false) ∧
    decode .bhdr 0b101 0 = .ok (.blkDynamic true) ∧ decode .bhdr 0b111 0 = .ok (.blkRsvd true) ∧
    decode .stored 0b11111111111111000000000000000011 0 = .ok (.storedData 3 0xFFFC) ∧
    decode .dynhdr 0b11100000000001 0 = .ok (.dyn 1 0 14) ∧
    decode .clsym 0b00010 0 = .ok (.cl 2) ∧ decode .clsym 0b10010 0b1010110 = .ok (.cl18 86) ∧
    decode .llsym 0b001100001 0 = .ok (.lit 0x61) ∧ decode .llsym 0b100000000 0 = .ok .eob ∧
    decode .llsym 0b100011100 0b11111 = .ok (.len284 31) ∧ decode .llsym 0b100011110 0 = .ok (.llRsvd 0) ∧
    decode .dsym 0b00100 0b1 = .ok (.dist4 1) ∧ decode .dsym 0b11110 0 = .ok (.dRsvd 0) ∧
    decode .filt 0b00000100 0 = .ok .rowPaeth ∧ decode .filt0 0b00000011 0 = .ok .row0Avg ∧
    decode .filt 0b00000101 0 = .ok (.rowInvalid 5) ∧ decode .filt0 0b11111111 0 = .ok (.row0Invalid 255)

/-- The bits of an encoded instruction, placed at the start of IN (a filter byte: at the row's place in OUT), are fetched as that
instruction, every bit of them consumed: decode and encode agree at the level of the stream (R66 to R68, R107). Where the
bits are placed is the model's choice (assumption 12). -/
def Obligations.PlacedInstructionIsFetched : Prop :=
  ∀ (i : Instr) (s : State), i.wf = true →
    ((encode i).fmt ≠ .filt → (encode i).fmt ≠ .filt0 →
      ∃ t, fetchInf (place (encode i) s) = .instr i t ∧ t.bitpos = (encode i).bits.length) ∧
    ((encode i).fmt = .filt ∨ (encode i).fmt = .filt0 →
      fetchSlr (place (encode i) s) = .instr i (place (encode i) s))

/-! ### The bit reader -/

/-- `refill` is the loop of R131: whole bytes from IN above the bits already there, until no byte fits or IN is exhausted; at
most 4 bytes; the stream position and everything but `acc`, `cnt`, `ipos` stay. That INV-ACC is kept (R132) is the spec's own
inference. -/
def Obligations.Refill : Prop :=
  ∀ s : State, s.BitReaderOk →
    (s.inf.cnt ≤ 24 → s.inf.ipos < s.inf.inLen.toNat →
      refill s = refill { s with inf := { s.inf with
        acc := s.inf.acc ||| ((s.read .inn s.inf.ipos).setWidth 32 <<< s.inf.cnt)
        cnt := s.inf.cnt + 8
        ipos := s.inf.ipos + 1 } }) ∧
    (24 < s.inf.cnt ∨ s.inf.inLen.toNat ≤ s.inf.ipos → refill s = s) ∧
    ReaderMoved 0 s (refill s) ∧
    (25 ≤ (refill s).inf.cnt ∨ (refill s).inf.ipos = s.inf.inLen.toNat) ∧
    (refill s).inf.ipos ≤ s.inf.ipos + 4

/-- `consume(n)` (R134): InsufficientData iff fewer than `n` bits remain in the whole stream; otherwise the `n`-bit field at the
stream position, which moves by `n`; the registers as the pseudocode leaves them; `consume(0)` changes nothing. That INV-ACC
is kept (R132) is the spec's own inference. -/
def Obligations.Consume : Prop :=
  ∀ (n : Nat) (s : State), n ≤ 24 → s.BitReaderOk →
    (s.bitsLeft < n → consume n s = .error .insufficientData) ∧
    (n ≤ s.bitsLeft → ∃ t, consume n s = .ok (s.streamField s.bitpos n, t) ∧ ReaderMoved n s t ∧
      (n ≠ 0 → t = dropBits n (if s.inf.cnt < 16 ∨ s.inf.cnt < n then refill s else s))) ∧
    consume 0 s = .ok (0, s)

/-- `fill_to_threshold` and the decode window (R135, R136, R139): afterwards 16 bits are there or IN is exhausted, nothing is
consumed, and the low 16 bits of `acc` are the next 16 bits of the stream, zero past its end. -/
def Obligations.DecodeWindow : Prop :=
  ∀ s : State, s.BitReaderOk →
    ReaderMoved 0 s (fillToThreshold s) ∧
    (16 ≤ (fillToThreshold s).inf.cnt ∨ (fillToThreshold s).inf.ipos = s.inf.inLen.toNat) ∧
    (16 ≤ s.inf.cnt → fillToThreshold s = s) ∧
    (fillToThreshold s).inf.acc.toNat % 65536 = s.paddedField s.bitpos 16

/-- `align` (R137): `cnt mod 8` bits are discarded, and the stream position is the next multiple of 8. That INV-ACC is kept (R132)
is the spec's own inference. -/
def Obligations.Align : Prop :=
  ∀ s : State, s.BitReaderOk →
    align s = { s with inf := { s.inf with
      acc := s.inf.acc >>> (s.inf.cnt % 8), cnt := s.inf.cnt - s.inf.cnt % 8 } } ∧
    ReaderMoved (s.inf.cnt % 8) s (align s) ∧ (align s).inf.cnt % 8 = 0 ∧
    (align s).bitpos = 8 * ((s.bitpos + 7) / 8)

/-- `next_byte` (R138) at a byte boundary: the byte of IN at the stream position, taken from `acc` first, the position moved by
8; the given fault at the end of the stream; no refill. That the byte is IN's in both branches is the spec's own inference. -/
def Obligations.NextByte : Prop :=
  ∀ (f : FaultCode) (s : State), s.BitReaderOk → s.inf.cnt % 8 = 0 →
    (s.bitsLeft < 8 → nextByte f s = .error f) ∧
    (8 ≤ s.bitsLeft → ∃ t, nextByte f s = .ok (s.read .inn (s.bitpos / 8), t) ∧ ReaderMoved 8 s t ∧
      (0 < s.inf.cnt → t.inf.ipos = s.inf.ipos) ∧ (s.inf.cnt = 0 → t.inf.cnt = 0))

/-! ### Huffman tables -/

/-- A length used by more symbols than it has codes is an immediate error, and the later check would find it too (R153). -/
def Obligations.BuildCountCheck : Prop :=
  ∀ (cap : Nat) (L : List Nat) (l : Nat), 1 ≤ l → l ≤ 15 → 2 ^ l < L.count l →
    build cap L = none ∧ bookkeep L 15 1 0 0 = none

/-- `build` fails exactly when the lengths are over-subscribed (R154, the spec's own inference): the sum of `2^(-L[s])`
exceeds 1. -/
def Obligations.BuildFailsIffOversubscribed : Prop :=
  ∀ (cap : Nat) (L : List Nat), (∀ l ∈ L, l ≤ 15) → (build cap L = none ↔ 2 ^ 15 < kraftSum L)

/-- The ROM tables are what `build` makes of the fixed lengths (R170, R171). -/
def Obligations.FixedTables : Prop :=
  build Config.nLL
      (List.replicate 144 8 ++ List.replicate 112 9 ++ List.replicate 24 7 ++ List.replicate 8 8) = some fixLL ∧
    build Config.nD (List.replicate 32 5) = some fixD

/-- What `decode` computes, without the tables (R169, R151): the two-tier lookup in a built table finds the symbol whose canonical
code the window begins with, there is at most one, and where there is none it raises InvalidHuffmanTree (R167). -/
def Obligations.LookupIsCanonical : Prop :=
  ∀ (cap : Nat) (L : List Nat) (T : HuffTable), L.length ≤ cap → cap ≤ 288 → (∀ l ∈ L, l ≤ 15) → build cap L = some T →
    ∀ window < 65536,
      (∀ sym, CodeMatches L window sym → lookup T window = .ok (L.getD sym 0, sym)) ∧
      (∀ s₁ s₂, CodeMatches L window s₁ → CodeMatches L window s₂ → s₁ = s₂) ∧
      ((¬∃ sym, CodeMatches L window sym) → lookup T window = .error .invalidHuffmanTree)

/-- `decode(T)` (R165, R167, R168): the lookup on the padded window comes first; then a code longer than what the stream still
has raises InsufficientData; otherwise exactly its bits are consumed. -/
def Obligations.DecodeSymbol : Prop :=
  ∀ (cap : Nat) (T : HuffTable) (s : State), cap ≤ 288 → BuiltFrom cap T → s.BitReaderOk →
    (∀ f, lookup T (s.paddedField s.bitpos 16) = .error f → decodeSym T s = .error f) ∧
    (∀ l sym, lookup T (s.paddedField s.bitpos 16) = .ok (l, sym) →
      (s.bitsLeft < l → decodeSym T s = .error .insufficientData) ∧
      (l ≤ s.bitsLeft → ∃ t, decodeSym T s = .ok (sym, t) ∧ ReaderMoved l s t))

/-! ### Blocks -/

/-- The zlib header step (R181): two `consume(8)`, the three checks, then phase BHDR; nothing else changes. That INV-ACC is kept
(R132) is the spec's own inference; `sub` at the boundary is the model's (assumption 7). -/
def Obligations.ZlibHeader : Prop :=
  (∀ s : State, s.inf.phase = .zhdr → s.inf.sub = .boundary → s.BitReaderOk →
    (s.bitsLeft < 16 → fetchInf s = .raise .insufficientData) ∧
    (16 ≤ s.bitsLeft → ∃ t, ReaderMoved 16 s t ∧
      fetchInf s = .instr (.zhdr (BitVec.ofNat 8 (s.streamField s.bitpos 8))
        (BitVec.ofNat 8 (s.streamField (s.bitpos + 8) 8))) t)) ∧
  ∀ (cmf flg : Byte) (s : State),
    (cmf.toNat % 16 = 8 → flg.toNat / 32 % 2 = 0 → (cmf.toNat * 256 + flg.toNat) % 31 = 0 →
      exec (.zhdr cmf flg) s = .next { s with inf := { s.inf with phase := .bhdr, sub := .boundary } }) ∧
    (cmf.toNat % 16 ≠ 8 ∨ flg.toNat / 32 % 2 = 1 ∨ (cmf.toNat * 256 + flg.toNat) % 31 ≠ 0 →
      exec (.zhdr cmf flg) s = .next (infFault .badZlibHeader s))

/-- The block header step (R183 to R186, R191): `consume(1)`, `consume(2)`; `final_seen`, the phase, and for a fixed block `tsel`;
BTYPE 3 raises InvalidBlockType; nothing else changes. That INV-ACC is kept (R132) is the spec's own inference; `sub` at the
boundary is the model's (assumption 7). -/
def Obligations.BlockHeader : Prop :=
  (∀ s : State, s.inf.phase = .bhdr → s.inf.sub = .boundary → s.BitReaderOk →
    (s.bitsLeft < 3 → fetchInf s = .raise .insufficientData) ∧
    (3 ≤ s.bitsLeft → ∃ t, ReaderMoved 3 s t ∧
      fetchInf s = .instr (blockHeader (s.streamField s.bitpos 1) (s.streamField (s.bitpos + 1) 2)) t)) ∧
  ∀ (f : Bool) (s : State),
    exec (.blkStored f) s = .next { s with inf := { s.inf with finalSeen := f, phase := .stored, sub := .boundary } } ∧
    exec (.blkFixed f) s =
      .next { s with inf := { s.inf with finalSeen := f, tsel := .fixed, phase := .syms, sub := .boundary } } ∧
    exec (.blkDynamic f) s = .next { s with inf := { s.inf with finalSeen := f, phase := .dynhdr, sub := .boundary } } ∧
    exec (.blkRsvd f) s = .next (infFault .invalidBlockType s)

/-- The stored step (R188): align, four header bytes, the three checks in their order, the payload copied from IN to OUT, the end
of the block; every other byte and register is unchanged. That `cnt` is 0 after the header (R188) and that INV-ACC is kept
(R132) are the spec's own inferences; `sub` at the boundary is the model's (assumption 7). -/
def Obligations.StoredBlock : Prop :=
  (∀ s : State, s.inf.phase = .stored → s.inf.sub = .boundary → s.BitReaderOk →
    let p := (s.bitpos + 7) / 8
    (8 * s.inf.inLen.toNat < 8 * p + 32 → fetchInf s = .raise .insufficientData) ∧
    (8 * p + 32 ≤ 8 * s.inf.inLen.toNat → ∃ t, ReaderMoved (8 * p - s.bitpos + 32) s t ∧ t.inf.cnt = 0 ∧
      fetchInf s = .instr
        (.storedData (BitVec.ofNat 16 ((s.read .inn p).toNat + 256 * (s.read .inn (p + 1)).toNat))
          (BitVec.ofNat 16 ((s.read .inn (p + 2)).toNat + 256 * (s.read .inn (p + 3)).toNat))) t)) ∧
  ∀ (len nlen : BitVec 16) (s : State),
    (nlen = len ^^^ 0xFFFF → s.inf.ipos + len.toNat ≤ s.inf.inLen.toNat →
      s.inf.olen + len.toNat ≤ s.inf.outCap.toNat →
      ∃ t, exec (.storedData len nlen) s = .next t ∧
        t.inf = { s.inf with
          ipos := s.inf.ipos + len.toNat
          olen := s.inf.olen + len.toNat
          phase := if s.inf.finalSeen then .done else .bhdr
          sub := .boundary } ∧
        SameBesidesInf s t ∧
        (∀ i < len.toNat, t.read .out (s.inf.olen + i) = s.read .inn (s.inf.ipos + i)) ∧
        SameOutside .out s.inf.olen len.toNat s t) ∧
    (nlen ≠ len ^^^ 0xFFFF → exec (.storedData len nlen) s = .next (infFault .corruptedData s)) ∧
    (nlen = len ^^^ 0xFFFF → s.inf.inLen.toNat < s.inf.ipos + len.toNat →
      exec (.storedData len nlen) s = .next (infFault .corruptedData s)) ∧
    (nlen = len ^^^ 0xFFFF → s.inf.ipos + len.toNat ≤ s.inf.inLen.toNat →
      s.inf.outCap.toNat < s.inf.olen + len.toNat →
      exec (.storedData len nlen) s = .next (infFault .capacityError s))

/-- The fixed part of a dynamic header (R193 to R195): the three counts, the 3-bit code-length lengths in CL_ORDER, CL_T; the
tokens follow (`hlit`, `hdist`, `sub` hold the locals of the step, assumption 7). -/
def Obligations.DynamicHeader : Prop :=
  (∀ s : State, s.inf.phase = .dynhdr → s.inf.sub = .boundary → s.BitReaderOk →
    (s.bitsLeft < 14 → fetchInf s = .raise .insufficientData) ∧
    (14 ≤ s.bitsLeft → ∃ t, ReaderMoved 14 s t ∧
      fetchInf s = .instr (.dyn (BitVec.ofNat 5 (s.streamField s.bitpos 5))
        (BitVec.ofNat 5 (s.streamField (s.bitpos + 5) 5)) (BitVec.ofNat 4 (s.streamField (s.bitpos + 10) 4))) t)) ∧
  ∀ (hlit hdist : BitVec 5) (hclen : BitVec 4) (s : State), s.BitReaderOk →
    (s.bitsLeft < 3 * (hclen.toNat + 4) → exec (.dyn hlit hdist hclen) s = .next (infFault .insufficientData s)) ∧
    (3 * (hclen.toNat + 4) ≤ s.bitsLeft →
      (build Config.nCL (s.clLengths s.bitpos (hclen.toNat + 4)) = none →
        exec (.dyn hlit hdist hclen) s = .next (infFault .invalidHuffmanTree s)) ∧
      (∀ T, build Config.nCL (s.clLengths s.bitpos (hclen.toNat + 4)) = some T →
        ∃ u, ReaderMoved (3 * (hclen.toNat + 4)) s u ∧
          exec (.dyn hlit hdist hclen) s = .next
            { u with
              inf := { u.inf with hlit := hlit.toNat + 257, hdist := hdist.toNat + 1, sub := .clTokens }
              tabs := { u.tabs with
                clLen := (s.clLengths s.bitpos (hclen.toNat + 4)).map (BitVec.ofNat 3)
                clT := T
                lens := [] } }))

/-- The code-length tokens (R196, R197, R200 to R204): a length, a repeat of the previous length, a run of zeros; the last one ends
the header. The count of lengths written is the length of `lens` (assumption 16). -/
def Obligations.CodeLengthTokens : Prop :=
  ∀ s : State,
    (∀ n : BitVec 4, TokenMeans (.cl n) 1 n s) ∧
    (∀ (rep : BitVec 2) (lens : List (BitVec 4)) (v : BitVec 4), s.tabs.lens = lens ++ [v] →
      TokenMeans (.cl16 rep) (3 + rep.toNat) v s) ∧
    (∀ rep : BitVec 2, s.tabs.lens = [] → exec (.cl16 rep) s = .next (infFault .invalidHuffmanTree s)) ∧
    (∀ rep : BitVec 3, TokenMeans (.cl17 rep) (3 + rep.toNat) 0 s) ∧
    ∀ rep : BitVec 7, TokenMeans (.cl18 rep) (11 + rep.toNat) 0 s

/-! ### Symbols -/

/-- How a Huffman-coded element is fetched (R96, R97, R220, R223): the code through the table that is active, then the extra bits
of its symbol; the first of the two that fails raises its fault. -/
def Obligations.SymbolFetch : Prop :=
  ∀ (s : State) (f : Format) (T : HuffTable),
    (f = .llsym ∧ s.inf.sub = .boundary ∧ s.inf.phase = .syms ∧
        T = (if s.inf.tsel = .fixed then fixLL else s.tabs.dynLL) ∨
      f = .dsym ∧ s.inf.sub = .distance ∧ T = (if s.inf.tsel = .fixed then fixD else s.tabs.dynD) ∨
      f = .clsym ∧ s.inf.sub = .clTokens ∧ T = s.tabs.clT) →
    (∀ e, decodeSym T s = .error e → fetchInf s = .raise e) ∧
    ∀ sym t, decodeSym T s = .ok (sym, t) →
      (∀ e, consume (extraBits f sym) t = .error e → fetchInf s = .raise e) ∧
      ∀ x u i, consume (extraBits f sym) t = .ok (x, u) → decode f sym x = .ok i → fetchInf s = .instr i u

/-- A literal (R221): its number, no extra bits, its code in the fixed table; the byte at `OUT[olen]`, `olen` one more,
CapacityError when OUT is full; nothing else changes. -/
def Obligations.Literal : Prop :=
  (∀ sym ≤ 143, HasCode fixLL 8 (0b00110000 + sym) sym) ∧
  (∀ sym, 144 ≤ sym → sym ≤ 255 → HasCode fixLL 9 (0b110010000 + (sym - 144)) sym) ∧
  ∀ (b : Byte) (s : State),
    encode (.lit b) = ⟨.llsym, b.toNat, 0⟩ ∧ extraBits .llsym b.toNat = 0 ∧
    (s.inf.olen + 1 ≤ s.inf.outCap.toNat →
      ∃ t, exec (.lit b) s = .next t ∧ t.inf = { s.inf with olen := s.inf.olen + 1 } ∧ SameBesidesInf s t ∧
        t.read .out s.inf.olen = b ∧ SameOutside .out s.inf.olen 1 s t) ∧
    (s.inf.outCap.toNat < s.inf.olen + 1 → exec (.lit b) s = .next (infFault .capacityError s))

/-- The end of a block (R222, R187): its number, no extra bits, its code in the fixed table; DONE after the final block, else
BHDR; no byte is written, nothing else changes. `sub` at the boundary is the model's (assumption 7). -/
def Obligations.EndOfBlock : Prop :=
  encode .eob = ⟨.llsym, 256, 0⟩ ∧ extraBits .llsym 256 = 0 ∧ HasCode fixLL 7 0b0000000 256 ∧
  ∀ s : State,
    (s.inf.finalSeen = true → exec .eob s = .next { s with inf := { s.inf with phase := .done, sub := .boundary } }) ∧
    (s.inf.finalSeen = false → exec .eob s = .next { s with inf := { s.inf with phase := .bhdr, sub := .boundary } })

/-- Length symbols 257 to 268 (R225 to R236). That the length waits in `mlen` for the distance is the model's choice (assumption 7). -/
def Obligations.LengthSymbols257To268 : Prop :=
  LengthMeans .len257 257 7 0b0000001 0 0 3 ∧
    LengthMeans .len258 258 7 0b0000010 0 0 4 ∧
    LengthMeans .len259 259 7 0b0000011 0 0 5 ∧
    LengthMeans .len260 260 7 0b0000100 0 0 6 ∧
    LengthMeans .len261 261 7 0b0000101 0 0 7 ∧
    LengthMeans .len262 262 7 0b0000110 0 0 8 ∧
    LengthMeans .len263 263 7 0b0000111 0 0 9 ∧
    LengthMeans .len264 264 7 0b0001000 0 0 10 ∧
    (∀ e : BitVec 1, LengthMeans (.len265 e) 265 7 0b0001001 1 e.toNat (11 + e.toNat)) ∧
    (∀ e : BitVec 1, LengthMeans (.len266 e) 266 7 0b0001010 1 e.toNat (13 + e.toNat)) ∧
    (∀ e : BitVec 1, LengthMeans (.len267 e) 267 7 0b0001011 1 e.toNat (15 + e.toNat)) ∧
    (∀ e : BitVec 1, LengthMeans (.len268 e) 268 7 0b0001100 1 e.toNat (17 + e.toNat))

/-- Length symbols 269 to 280 (R237 to R248). That the length waits in `mlen` for the distance is the model's choice (assumption 7). -/
def Obligations.LengthSymbols269To280 : Prop :=
  (∀ e : BitVec 2, LengthMeans (.len269 e) 269 7 0b0001101 2 e.toNat (19 + e.toNat)) ∧
    (∀ e : BitVec 2, LengthMeans (.len270 e) 270 7 0b0001110 2 e.toNat (23 + e.toNat)) ∧
    (∀ e : BitVec 2, LengthMeans (.len271 e) 271 7 0b0001111 2 e.toNat (27 + e.toNat)) ∧
    (∀ e : BitVec 2, LengthMeans (.len272 e) 272 7 0b0010000 2 e.toNat (31 + e.toNat)) ∧
    (∀ e : BitVec 3, LengthMeans (.len273 e) 273 7 0b0010001 3 e.toNat (35 + e.toNat)) ∧
    (∀ e : BitVec 3, LengthMeans (.len274 e) 274 7 0b0010010 3 e.toNat (43 + e.toNat)) ∧
    (∀ e : BitVec 3, LengthMeans (.len275 e) 275 7 0b0010011 3 e.toNat (51 + e.toNat)) ∧
    (∀ e : BitVec 3, LengthMeans (.len276 e) 276 7 0b0010100 3 e.toNat (59 + e.toNat)) ∧
    (∀ e : BitVec 4, LengthMeans (.len277 e) 277 7 0b0010101 4 e.toNat (67 + e.toNat)) ∧
    (∀ e : BitVec 4, LengthMeans (.len278 e) 278 7 0b0010110 4 e.toNat (83 + e.toNat)) ∧
    (∀ e : BitVec 4, LengthMeans (.len279 e) 279 7 0b0010111 4 e.toNat (99 + e.toNat)) ∧
    (∀ e : BitVec 4, LengthMeans (.len280 e) 280 8 0b11000000 4 e.toNat (115 + e.toNat))

/-- Length symbols 281 to 285 (R249 to R253). That the length waits in `mlen` for the distance is the model's choice (assumption 7). -/
def Obligations.LengthSymbols281To285 : Prop :=
  (∀ e : BitVec 5, LengthMeans (.len281 e) 281 8 0b11000001 5 e.toNat (131 + e.toNat)) ∧
    (∀ e : BitVec 5, LengthMeans (.len282 e) 282 8 0b11000010 5 e.toNat (163 + e.toNat)) ∧
    (∀ e : BitVec 5, LengthMeans (.len283 e) 283 8 0b11000011 5 e.toNat (195 + e.toNat)) ∧
    (∀ e : BitVec 5, LengthMeans (.len284 e) 284 8 0b11000100 5 e.toNat (227 + e.toNat)) ∧
    LengthMeans .len285 285 8 0b11000101 0 0 258

/-- The reserved symbols (R254, R292): LL 286 and 287, D 30 and 31 have codes in the fixed tables, no extra bits, and raise
InvalidSymbol. -/
def Obligations.ReservedSymbols : Prop :=
  (∀ (hi : BitVec 1) (s : State), exec (.llRsvd hi) s = .next (infFault .invalidSymbol s)) ∧
    (∀ (hi : BitVec 1) (s : State), exec (.dRsvd hi) s = .next (infFault .invalidSymbol s)) ∧
    HasCode fixLL 8 0b11000110 286 ∧ HasCode fixLL 8 0b11000111 287 ∧ HasCode fixD 5 0b11110 30 ∧
    HasCode fixD 5 0b11111 31 ∧
    extraBits .llsym 286 = 0 ∧ extraBits .llsym 287 = 0 ∧ extraBits .dsym 30 = 0 ∧ extraBits .dsym 31 = 0

/-- Distance symbols 0 to 11 (R261 to R272), each with the copy of R295. That the length waits in `mlen` is the model's choice
(assumption 7). -/
def Obligations.DistanceSymbols0To11 : Prop :=
  DistanceMeans .dist0 0 0b00000 0 0 1 ∧
    DistanceMeans .dist1 1 0b00001 0 0 2 ∧
    DistanceMeans .dist2 2 0b00010 0 0 3 ∧
    DistanceMeans .dist3 3 0b00011 0 0 4 ∧
    (∀ f : BitVec 1, DistanceMeans (.dist4 f) 4 0b00100 1 f.toNat (5 + f.toNat)) ∧
    (∀ f : BitVec 1, DistanceMeans (.dist5 f) 5 0b00101 1 f.toNat (7 + f.toNat)) ∧
    (∀ f : BitVec 2, DistanceMeans (.dist6 f) 6 0b00110 2 f.toNat (9 + f.toNat)) ∧
    (∀ f : BitVec 2, DistanceMeans (.dist7 f) 7 0b00111 2 f.toNat (13 + f.toNat)) ∧
    (∀ f : BitVec 3, DistanceMeans (.dist8 f) 8 0b01000 3 f.toNat (17 + f.toNat)) ∧
    (∀ f : BitVec 3, DistanceMeans (.dist9 f) 9 0b01001 3 f.toNat (25 + f.toNat)) ∧
    (∀ f : BitVec 4, DistanceMeans (.dist10 f) 10 0b01010 4 f.toNat (33 + f.toNat)) ∧
    (∀ f : BitVec 4, DistanceMeans (.dist11 f) 11 0b01011 4 f.toNat (49 + f.toNat))

/-- Distance symbols 12 to 23 (R273 to R284), each with the copy of R295. That the length waits in `mlen` is the model's choice
(assumption 7). -/
def Obligations.DistanceSymbols12To23 : Prop :=
  (∀ f : BitVec 5, DistanceMeans (.dist12 f) 12 0b01100 5 f.toNat (65 + f.toNat)) ∧
    (∀ f : BitVec 5, DistanceMeans (.dist13 f) 13 0b01101 5 f.toNat (97 + f.toNat)) ∧
    (∀ f : BitVec 6, DistanceMeans (.dist14 f) 14 0b01110 6 f.toNat (129 + f.toNat)) ∧
    (∀ f : BitVec 6, DistanceMeans (.dist15 f) 15 0b01111 6 f.toNat (193 + f.toNat)) ∧
    (∀ f : BitVec 7, DistanceMeans (.dist16 f) 16 0b10000 7 f.toNat (257 + f.toNat)) ∧
    (∀ f : BitVec 7, DistanceMeans (.dist17 f) 17 0b10001 7 f.toNat (385 + f.toNat)) ∧
    (∀ f : BitVec 8, DistanceMeans (.dist18 f) 18 0b10010 8 f.toNat (513 + f.toNat)) ∧
    (∀ f : BitVec 8, DistanceMeans (.dist19 f) 19 0b10011 8 f.toNat (769 + f.toNat)) ∧
    (∀ f : BitVec 9, DistanceMeans (.dist20 f) 20 0b10100 9 f.toNat (1025 + f.toNat)) ∧
    (∀ f : BitVec 9, DistanceMeans (.dist21 f) 21 0b10101 9 f.toNat (1537 + f.toNat)) ∧
    (∀ f : BitVec 10, DistanceMeans (.dist22 f) 22 0b10110 10 f.toNat (2049 + f.toNat)) ∧
    (∀ f : BitVec 10, DistanceMeans (.dist23 f) 23 0b10111 10 f.toNat (3073 + f.toNat))

/-- Distance symbols 24 to 29 (R285 to R290), each with the copy of R295. That the length waits in `mlen` is the model's choice
(assumption 7). -/
def Obligations.DistanceSymbols24To29 : Prop :=
  (∀ f : BitVec 11, DistanceMeans (.dist24 f) 24 0b11000 11 f.toNat (4097 + f.toNat)) ∧
    (∀ f : BitVec 11, DistanceMeans (.dist25 f) 25 0b11001 11 f.toNat (6145 + f.toNat)) ∧
    (∀ f : BitVec 12, DistanceMeans (.dist26 f) 26 0b11010 12 f.toNat (8193 + f.toNat)) ∧
    (∀ f : BitVec 12, DistanceMeans (.dist27 f) 27 0b11011 12 f.toNat (12289 + f.toNat)) ∧
    (∀ f : BitVec 13, DistanceMeans (.dist28 f) 28 0b11100 13 f.toNat (16385 + f.toNat)) ∧
    (∀ f : BitVec 13, DistanceMeans (.dist29 f) 29 0b11101 13 f.toNat (24577 + f.toNat))

/-- `copy(length, distance)` (R295): the two checks in their order; byte-serial, so each byte is the one `distance` before it in the
result; the closed form over the old contents (the spec's own inference); nothing else changes. -/
def Obligations.Copy : Prop :=
  ∀ (length distance : Nat) (s : State), 1 ≤ distance →
    (s.inf.olen < distance → copyMatch length distance s = .error .distanceTooFar) ∧
    (distance ≤ s.inf.olen → s.inf.outCap.toNat < s.inf.olen + length →
      copyMatch length distance s = .error .capacityError) ∧
    (distance ≤ s.inf.olen → s.inf.olen + length ≤ s.inf.outCap.toNat →
      ∃ t, copyMatch length distance s = .ok t ∧ CopyDone length distance s.inf.sub s t ∧
        ∀ i < length, t.read .out (s.inf.olen + i) = t.read .out (s.inf.olen + i - distance))

/-- A match of distance 1 repeats the most recent byte (R296). The pending length is the model's `mlen` (assumption 7). -/
def Obligations.RunLength : Prop :=
  ∀ s : State, 1 ≤ s.inf.olen → s.inf.olen + s.inf.mlen ≤ s.inf.outCap.toNat →
    ∃ t, exec .dist0 s = .next t ∧ t.inf.olen = s.inf.olen + s.inf.mlen ∧
      ∀ i < s.inf.mlen, t.read .out (s.inf.olen + i) = s.read .out (s.inf.olen - 1)

/-! ### Scanlines -/

/-- The filters of rows 1 and on (R303, R304, R307, R310 to R314), with their filter bytes, the row of IMG they write (R342, R343)
and what they leave unchanged. -/
def Obligations.RowFilters : Prop :=
  (decode .filt 0 0 = .ok .rowNone ∧ decode .filt 1 0 = .ok .rowSub ∧ decode .filt 2 0 = .ok .rowUp ∧
    decode .filt 3 0 = .ok .rowAvg ∧ decode .filt 4 0 = .ok .rowPaeth) ∧
  ∀ s : State,
    (∃ t, exec .rowNone s = .next t ∧ RowDone (fun _ _ _ => 0) s t) ∧
    (∃ t, exec .rowSub s = .next t ∧ RowDone (fun a _ _ => a.toNat) s t) ∧
    (∃ t, exec .rowUp s = .next t ∧ RowDone (fun _ b _ => b.toNat) s t) ∧
    (∃ t, exec .rowAvg s = .next t ∧ RowDone (fun a b _ => (a.toNat + b.toNat) / 2) s t) ∧
    ∃ t, exec .rowPaeth s = .next t ∧ RowDone (fun a b c => (paeth a b c).toNat) s t

/-- The filters of row 0 (R306): remapped, so that no byte of the previous row is read; and the remap is exact (R316): with the
neighbours above equal to 0 the remapped filter adds what the PNG filter adds. -/
def Obligations.RowZeroFilters : Prop :=
  (decode .filt0 0 0 = .ok .row0None ∧ decode .filt0 1 0 = .ok .row0Sub ∧ decode .filt0 2 0 = .ok .row0Up ∧
    decode .filt0 3 0 = .ok .row0Avg ∧ decode .filt0 4 0 = .ok .row0Paeth) ∧
  (∀ s : State,
    (∃ t, exec .row0None s = .next t ∧ RowDone (fun _ _ _ => 0) s t) ∧
    (∃ t, exec .row0Sub s = .next t ∧ RowDone (fun a _ _ => a.toNat) s t) ∧
    (∃ t, exec .row0Up s = .next t ∧ RowDone (fun _ _ _ => 0) s t) ∧
    (∃ t, exec .row0Avg s = .next t ∧ RowDone (fun a _ _ => a.toNat / 2) s t) ∧
    ∃ t, exec .row0Paeth s = .next t ∧ RowDone (fun a _ _ => a.toNat) s t) ∧
  ∀ a : Byte, (a.toNat + (0 : Byte).toNat) / 2 = a.toNat / 2 ∧ paeth a 0 0 = a

/-- An illegal filter byte, 5 to 255 (R305): InvalidFilter, code 9 (R361), entered as R370 says; no byte and no other register
changes: that `img_len`, `forced_transparency` and the rest keep the values the rules gave them is assumption 14. -/
def Obligations.InvalidFilterByte : Prop :=
  (∀ ft : Byte, 5 ≤ ft.toNat →
    decode .filt ft.toNat 0 = .ok (.rowInvalid ft) ∧ decode .filt0 ft.toNat 0 = .ok (.row0Invalid ft)) ∧
  ∀ (ft : Byte) (s : State),
    exec (.rowInvalid ft) s =
      .next { s with slr := { s.slr with err := 9, phase := .error }, diag := if s.diag = 0 then 9 else s.diag } ∧
    exec (.row0Invalid ft) s =
      .next { s with slr := { s.slr with err := 9, phase := .error }, diag := if s.diag = 0 then 9 else s.diag }

/-- The Paeth predictor (R322) is one of its three arguments and equals the branch-free form (R323) on every triple. -/
def Obligations.PaethBranchFree : Prop :=
  ∀ a b c : Byte, paeth a b c = paethBranchFree a b c ∧ (paeth a b c = a ∨ paeth a b c = b ∨ paeth a b c = c)

/-- Unfiltering undoes filtering (R325), for every filter, and in row 0 for the filters as PNG defines them although the hardware
runs the remapped ones. -/
def Obligations.UnfilterInverts : Prop :=
  ∀ (raw : Nat → Byte) (s : State),
    RowRestores .rowNone (fun _ _ _ => 0) raw s ∧
    RowRestores .rowSub (fun a _ _ => a.toNat) raw s ∧
    RowRestores .rowUp (fun _ b _ => b.toNat) raw s ∧
    RowRestores .rowAvg (fun a b _ => (a.toNat + b.toNat) / 2) raw s ∧
    RowRestores .rowPaeth (fun a b c => (paeth a b c).toNat) raw s ∧
    (s.slr.row = 0 →
      RowRestores .row0None (fun _ _ _ => 0) raw s ∧
      RowRestores .row0Sub (fun a _ _ => a.toNat) raw s ∧
      RowRestores .row0Up (fun _ b _ => b.toNat) raw s ∧
      RowRestores .row0Avg (fun a b _ => (a.toNat + b.toNat) / 2) raw s ∧
      RowRestores .row0Paeth (fun a b c => (paeth a b c).toNat) raw s)

/-- The vertical flip (R347): the step of phase FLIPPING; row `y` of IMG reads as row `H-1-y` did, nothing outside the image
changes, the phase is DONE; and doing it twice restores IMG (the spec's own inference). -/
def Obligations.VerticalFlip : Prop :=
  ∀ s : State,
    (s.disturbed = false → s.slr.phase = .flipping → slrStep s = .next (flipStep s)) ∧
    (∀ y < s.slr.height.toNat, ∀ k < s.slr.width.toNat * s.slr.outCh.toNat,
      (flipStep s).read .img (y * (s.slr.width.toNat * s.slr.outCh.toNat) + k) =
        s.read .img ((s.slr.height.toNat - 1 - y) * (s.slr.width.toNat * s.slr.outCh.toNat) + k)) ∧
    SameOutside .img 0 (s.slr.height.toNat * (s.slr.width.toNat * s.slr.outCh.toNat)) s (flipStep s) ∧
    (flipStep s).slr = { s.slr with phase := .done } ∧ SameBesidesSlr s (flipStep s) ∧
    SameMemory s (flipStep (flipStep s))

/-! ### Faults -/

/-- The fault codes (R361), and fault entry (R370): the unit's error register, `diag` if it holds 0, the phase ERROR; OUT, `olen`,
the configuration, the other unit and all memory as they were. Nothing is said of what R370 leaves unspecified (assumption 3);
that SLR's other registers stay is what the rules give (assumption 14). -/
def Obligations.FaultEntry : Prop :=
  (FaultCode.code .insufficientData = 1 ∧ FaultCode.code .invalidHuffmanTree = 2 ∧ FaultCode.code .corruptedData = 3 ∧
    FaultCode.code .badZlibHeader = 4 ∧ FaultCode.code .invalidBlockType = 5 ∧ FaultCode.code .invalidSymbol = 6 ∧
    FaultCode.code .distanceTooFar = 7 ∧ FaultCode.code .capacityError = 8 ∧ FaultCode.code .invalidFilter = 9 ∧
    FaultCode.code .unsupportedConfig = 10 ∧ FaultCode.code .notReady = 11) ∧
  ∀ (f : FaultCode) (s : State),
    ((infFault f s).inf.err = f.code ∧ (infFault f s).inf.phase = .error ∧
      (infFault f s).diag = (if s.diag = 0 then f.code else s.diag) ∧
      (infFault f s).inf.olen = s.inf.olen ∧ (infFault f s).inf.inLen = s.inf.inLen ∧
      (infFault f s).inf.outCap = s.inf.outCap ∧ (infFault f s).inf.zlibEn = s.inf.zlibEn ∧
      (infFault f s).slr = s.slr ∧ SameMemory s (infFault f s)) ∧
    slrFault f s =
      { s with slr := { s.slr with err := f.code, phase := .error }, diag := if s.diag = 0 then f.code else s.diag }

/-- A faulting step has written nothing to OUT, `olen`, IMG or `row` (R370, R376): a step of INF from the boundary of an element,
a row step of SLR. That SLR's other registers (`img_len`, `forced_transparency` and the rest) keep the values the rules gave
them is assumption 14. -/
def Obligations.FaultingStepWritesNothing : Prop :=
  (∀ s t : State, s.infBusy = true → s.inf.sub = .boundary → infStep s = .next t → t.inf.phase = .error →
    SameMemory s t ∧ t.inf.olen = s.inf.olen ∧ t.slr = s.slr ∧ 1 ≤ t.inf.err.toNat ∧ t.inf.err.toNat ≤ 8 ∧
      t.diag = (if s.diag = 0 then t.inf.err else s.diag)) ∧
  ∀ s t : State, s.slrBusy = true → slrStep s = .next t → t.slr.phase = .error →
    t = { s with slr := { s.slr with err := 9, phase := .error }, diag := if s.diag = 0 then 9 else s.diag }

/-- The error registers hold a code of the unit's own faults in the phase ERROR and 0 in every other phase (R31, R361): every step
of the machine keeps it. -/
def Obligations.ErrorRegisters : Prop :=
  ∀ s t : State, s.ErrorsOk → step s = .next t → t.ErrorsOk

/-- The diagnostic register (R26, R379): a fault records its code when it holds 0, later failures do not overwrite
it, no START clears it, a host write stores its value. -/
def Obligations.DiagFirstFailure : Prop :=
  (∀ (f : FaultCode) (s : State), s.diag = 0 → (infFault f s).diag = f.code ∧ (slrFault f s).diag = f.code) ∧
  (∀ s t : State, unitStep s = .next t → s.diag ≠ 0 → t.diag = s.diag) ∧
    (∀ (v : Word) (s : State), (hostWrite 0 v s).diag = s.diag ∧ (s.diag ≠ 0 → (hostWrite 8 v s).diag = s.diag)) ∧
    ∀ (v : Word) (s : State), hostWrite 15 v s = { s with diag := v.setWidth 8 }

/-! ### The machine -/

/-- A step runs the next move of the host if one is pending, as that move says (R8, R76, R402; assumption 5): a register write, a
memory write, a reset; waiting and passing let a busy unit take a step and put the rest of the move back. Otherwise it runs the
decoded instruction (R9, R180, R300): with INF busy, the word at the stream position, decoded, is executed, and inside a dynamic
header or a match the element is run to its end, row by row (the model's choice, assumption 7); with SLR busy, the filter byte
of row `row`, unless the host has disturbed the run (R407). A fault of the fetch is entered. -/
def Obligations.StepRunsDecoded : Prop :=
  (∀ (s : State) (op : HostOp) (rest : List HostOp), s.hostQueue = op :: rest →
    step s = hostMove op { s with hostQueue := rest }) ∧
  (∀ s : State,
    (∀ r v, hostMove (.write r v) s = .next (hostWrite r v s)) ∧
    (∀ sp a v, hostMove (.writeMem sp a v) s = hostWriteByte sp a v s) ∧
    hostMove .reset s = .next (resetMachine s) ∧
    (s.infBusy = false → hostMove (.wait .inf) s = .next s) ∧
    (s.infBusy = true → hostMove (.wait .inf) s = unitStep { s with hostQueue := .wait .inf :: s.hostQueue }) ∧
    (s.slrBusy = false → hostMove (.wait .slr) s = .next s) ∧
    (s.slrBusy = true → hostMove (.wait .slr) s = unitStep { s with hostQueue := .wait .slr :: s.hostQueue }) ∧
    hostMove (.pass 0) s = .next s ∧
    ∀ n, (s.infBusy = false → s.slrBusy = false → hostMove (.pass (n + 1)) s = .next s) ∧
      (s.infBusy = true ∨ s.slrBusy = true →
        hostMove (.pass (n + 1)) s = unitStep { s with hostQueue := .pass n :: s.hostQueue })) ∧
  ∀ s : State, s.hostQueue = [] →
    step s = unitStep s ∧
    (s.infBusy = true → s.slrBusy = false → s.lengthsFit = true →
      (∀ w x t i, fetchWord s.infFormat s = .ok ((w, x), t) → decode s.infFormat w x = .ok i →
        step s = finishElement 320 (exec i t)) ∧
      ∀ f, fetchWord s.infFormat s = .error f → step s = .next (infFault f s)) ∧
    (s.infBusy = false → s.slr.phase = .rows → s.disturbed = false →
      ∀ i, decode (if s.slr.row = 0 then .filt0 else .filt)
          (s.read .out (s.slr.row * (s.slr.width.toNat * s.slr.rawCh.toNat + 1))).toNat 0 = .ok i →
        step s = exec i s) ∧
    ∀ (n : Nat) (t : State),
      finishElement (n + 1) (.next t) = if t.inf.sub = .boundary then .next t else finishElement n (infRow t)

/-- With no unit busy and no host move pending a step changes nothing (R180, R300; assumption 6); with both busy it is a step of
SLR or of INF, which is open (R407; assumption 9); with lengths beyond the capacities INF declines to go on (assumption 10). -/
def Obligations.UnitsAtRest : Prop :=
  ∀ s : State, s.hostQueue = [] →
    (s.infBusy = false → s.slrBusy = false → step s = .next s) ∧
    (s.infBusy = true → s.slrBusy = true →
      step s = slrStep { s with draws := s.draws + 1 } ∨
        step s = if s.lengthsFit then infStep { s with draws := s.draws + 1 } else .refused .lengthsBeyondCapacity) ∧
    (s.infBusy = true → s.slrBusy = false →
      s.caps.inCap < s.inf.inLen.toNat ∨ s.caps.outCapMax < s.inf.outCap.toNat →
      step s = .refused .lengthsBeyondCapacity)

/-- INF restarted under a run of SLR (R407, U6): the START is accepted and touches nothing of SLR, and every later step of that
run completes without a fault, its registers going on as R303, R343 and R347 say, with IN, OUT and INF as they were. Of ROW0,
ROW1 and IMG, which are unspecified from then on, nothing is said. The flag `disturbed`, and that the run raises no fault
whatever filter bytes it meets, is assumption 9. -/
def Obligations.RestartUnderSlr : Prop :=
  (∀ (v : Word) (s : State), s.infBusy = false → s.slrBusy = true → v.getLsbD 0 = true →
    (hostWrite 0 v s).infBusy = true ∧ (hostWrite 0 v s).disturbed = true ∧ (hostWrite 0 v s).slr = s.slr ∧
      (hostWrite 0 v s).diag = s.diag ∧ SameMemory s (hostWrite 0 v s)) ∧
  ∀ s : State, s.disturbed = true → s.slrBusy = true →
    ∃ t, slrStep s = .next t ∧ t.disturbed = true ∧
      t.inf = s.inf ∧ t.tabs = s.tabs ∧ t.diag = s.diag ∧ t.caps = s.caps ∧ t.hostQueue = s.hostQueue ∧
      (∀ a, t.read .inn a = s.read .inn a ∧ t.read .out a = s.read .out a) ∧
      (s.slr.phase = .rows → t.slr =
        { s.slr with
          row := s.slr.row + 1
          forcedTransparency := if s.slr.outCh = s.slr.rawCh then s.slr.forcedTransparency else true
          phase := if s.slr.row + 1 = s.slr.height.toNat then (if s.slr.flip then .flipping else .done) else .rows }) ∧
      (s.slr.phase = .flipping → t.slr = { s.slr with phase := .done })

/-- INF reads IN and appends to OUT (R62, R63, R65): a step of it changes no byte of the other spaces, no byte of OUT below `olen`
or from the new `olen` on, and nothing of SLR; `olen` never decreases. -/
def Obligations.InfWritesOnlyNewOutput : Prop :=
  ∀ s t : State, infStep s = .next t →
    s.inf.olen ≤ t.inf.olen ∧ SameOutside .out s.inf.olen (t.inf.olen - s.inf.olen) s t ∧ t.slr = s.slr ∧
      t.caps = s.caps ∧ t.hostQueue = s.hostQueue ∧ t.epoch = s.epoch ∧ t.disturbed = s.disturbed ∧ t.spoils = s.spoils

/-- SLR writes the row buffers and IMG only, inside the stride and the image (R63 to R65), and nothing of INF; its program counter
moves by one row, and its configuration stays. -/
def Obligations.SlrWritesOnlyRowsAndImage : Prop :=
  ∀ s t : State, s.slrBusy = true → s.SlrRunOk → slrStep s = .next t →
    (∀ a, t.read .inn a = s.read .inn a ∧ t.read .out a = s.read .out a) ∧
    (s.disturbed = false → ∀ a,
      (s.stride ≤ a → t.read .row0 a = s.read .row0 a ∧ t.read .row1 a = s.read .row1 a) ∧
      (s.imgSize ≤ a → t.read .img a = s.read .img a)) ∧
    t.inf = s.inf ∧ t.tabs = s.tabs ∧ t.caps = s.caps ∧ t.disturbed = s.disturbed ∧
    (t.slr.row = s.slr.row ∨ t.slr.row = s.slr.row + 1) ∧
    t.slr.width = s.slr.width ∧ t.slr.height = s.slr.height ∧ t.slr.rawCh = s.slr.rawCh ∧ t.slr.outCh = s.slr.outCh ∧
    t.slr.flip = s.slr.flip

/-- The configuration of a unit is constant while the unit is busy, whatever the host does short of a reset (R27, R36, R349,
R411). -/
def Obligations.ConfigurationConstant : Prop :=
  ∀ s t : State, step s = .next t → (∀ rest, s.hostQueue ≠ .reset :: rest) →
    (s.infBusy = true → t.inf.inLen = s.inf.inLen ∧ t.inf.outCap = s.inf.outCap ∧ t.inf.zlibEn = s.inf.zlibEn) ∧
    (s.slrBusy = true →
      t.slr.width = s.slr.width ∧ t.slr.height = s.slr.height ∧ t.slr.rawCh = s.slr.rawCh ∧ t.slr.outCh = s.slr.outCh ∧
        t.slr.flip = s.slr.flip) ∧
    t.caps = s.caps

/-- Progress (R23, R416, R417): every step of INF that completes moves the stream position forward, and not past the end of the
stream; a row step of SLR that completes moves `row` by one. -/
def Obligations.Progress : Prop :=
  (∀ s t : State, s.infBusy = true → s.BitReaderOk → s.ElementOk → infStep s = .next t → t.inf.phase ≠ .error →
    s.bitpos < t.bitpos ∧ t.bitpos ≤ 8 * s.inf.inLen.toNat) ∧
  ∀ s t : State, s.slr.phase = .rows → slrStep s = .next t → t.slr.phase ≠ .error → t.slr.row = s.slr.row + 1

/-! ### The host -/

/-- `INF_CTRL.START` (R29): what it sets, what it leaves; ignored while INF is busy; without the bit only ZLIB is updated. That the
model's own `sub` is put at the boundary (assumption 7) and its `disturbed` is set when SLR is busy (R407, assumption 9) is the
model's. -/
def Obligations.InfStart : Prop :=
  ∀ (v : Word) (s : State),
    (s.infBusy = false → v.getLsbD 0 = true →
      hostWrite 0 v s =
        { s with
          inf := { s.inf with
            zlibEn := v.getLsbD 1, acc := 0, cnt := 0, ipos := 0, olen := 0, finalSeen := false, tsel := .fixed, err := 0,
            phase := if v.getLsbD 1 then .zhdr else .bhdr, sub := .boundary }
          disturbed := s.disturbed || s.slrBusy }) ∧
    (s.infBusy = true → hostWrite 0 v s = s) ∧
    (s.infBusy = false → v.getLsbD 0 = false →
      hostWrite 0 v s = { s with inf := { s.inf with zlibEn := v.getLsbD 1 } })

/-- `SLR_CTRL.START` (R37) and the start checks in their order (R301), the sizes computed without wrap; ignored while SLR is
busy; without the bit only FLIP is updated. That `img_len` and `forced_transparency` keep their 0 after a failed check is
assumption 14; the flag `disturbed` is the model's (assumption 9). -/
def Obligations.SlrStart : Prop :=
  ∀ (v : Word) (s : State),
    (s.slrBusy = true → hostWrite 8 v s = s) ∧
    (s.slrBusy = false → v.getLsbD 0 = false →
      hostWrite 8 v s = { s with slr := { s.slr with flip := v.getLsbD 1 } }) ∧
    (s.slrBusy = false → v.getLsbD 0 = true →
      let t : State :=
        { s with
          slr := { s.slr with flip := v.getLsbD 1, err := 0, row := 0, imgLen := 0, forcedTransparency := false }
          disturbed := false }
      let w := s.slr.width.toNat
      let h := s.slr.height.toNat
      let c := s.slr.rawCh.toNat
      let o := s.slr.outCh.toNat
      hostWrite 8 v s =
        if s.inf.phase ≠ .done then slrFault .notReady t
        else if ¬(1 ≤ w ∧ w ≤ 2 ^ 24 ∧ 1 ≤ h ∧ h ≤ 2 ^ 24) then slrFault .unsupportedConfig t
        else if (c, o) ∉ [(1, 1), (2, 2), (3, 3), (4, 4), (1, 2), (3, 4)] then slrFault .unsupportedConfig t
        else if ¬((w * c + 1) * h < 2 ^ 32 ∧ w * o * h < 2 ^ 32 ∧ (w * c + 1) * h ≤ s.inf.olen ∧ w * c ≤ s.caps.rowCap ∧
            w * o * h ≤ s.caps.imgCap) then slrFault .capacityError t
        else { t with slr := { t.slr with imgLen := w * o * h, phase := .rows } })

/-- Register writes while the unit is busy, and writes to read-only registers, are ignored (R411). -/
def Obligations.BusyWritesIgnored : Prop :=
  ∀ (v : Word) (s : State),
    (s.infBusy = true → ∀ r ∈ [0, 3, 4], hostWrite r v s = s) ∧
    (s.slrBusy = true → ∀ r ∈ [8, 11, 12, 13], hostWrite r v s = s) ∧
    ∀ r ∈ [1, 2, 5, 6, 7, 9, 10, 14], hostWrite r v s = s

/-- The register map (R28): what a read of the writable registers gives after a write, the STATUS words field by field with the
phase codes of R24 and R36, the views
of the error registers, cursors and lengths. -/
def Obligations.RegisterMap : Prop :=
  (∀ (v : Word) (s : State), s.infBusy = false → s.slrBusy = false →
    hostRead 3 (hostWrite 3 v s) = v ∧ hostRead 4 (hostWrite 4 v s) = v ∧ hostRead 11 (hostWrite 11 v s) = v ∧
      hostRead 12 (hostWrite 12 v s) = v ∧ hostRead 13 (hostWrite 13 v s) = v &&& 0x77 ∧
      hostRead 15 (hostWrite 15 v s) = v &&& 0xFF ∧
      hostRead 0 (hostWrite 0 v s) = v &&& 2 ∧ hostRead 8 (hostWrite 8 v s) = v &&& 2) ∧
  ∀ s : State,
    (hostRead 1 s).getLsbD 0 = decide (s.inf.phase ∈ [.zhdr, .bhdr, .stored, .dynhdr, .syms]) ∧
    (hostRead 1 s).getLsbD 1 = decide (s.inf.phase = .done) ∧
    (hostRead 1 s).getLsbD 2 = decide (s.inf.phase = .error) ∧ (hostRead 1 s).getLsbD 3 = s.inf.finalSeen ∧
    (hostRead 1 s).getLsbD 4 = decide (s.inf.tsel = .dynamic) ∧
    (∀ p ∈ [(Phase.idle, 0), (.zhdr, 1), (.bhdr, 2), (.stored, 3), (.dynhdr, 4), (.syms, 5), (.done, 6), (.error, 7)],
      s.inf.phase = p.1 → ((hostRead 1 s).extractLsb' 8 3).toNat = p.2) ∧ hostRead 1 s &&& 0xFFFFF8E0 = 0 ∧
    (hostRead 9 s).getLsbD 0 = decide (s.slr.phase ∈ [.rows, .flipping]) ∧ (hostRead 9 s).getLsbD 1 = decide (s.slr.phase = .done) ∧
    (hostRead 9 s).getLsbD 2 = decide (s.slr.phase = .error) ∧ (hostRead 9 s).getLsbD 3 = s.slr.forcedTransparency ∧
    (∀ p ∈ [(SlrPhase.idle, 0), (.rows, 1), (.flipping, 2), (.done, 6), (.error, 7)],
      s.slr.phase = p.1 → ((hostRead 9 s).extractLsb' 8 3).toNat = p.2) ∧ hostRead 9 s &&& 0xFFFFF8F0 = 0 ∧
    hostRead 2 s = s.inf.err.setWidth 32 ∧ hostRead 5 s = BitVec.ofNat 32 s.inf.olen ∧
    hostRead 6 s = BitVec.ofNat 32 s.inf.ipos ∧ hostRead 7 s = BitVec.ofNat 32 (s.inf.cnt % 64) ∧
    hostRead 10 s = s.slr.err.setWidth 32 ∧ hostRead 14 s = BitVec.ofNat 32 s.slr.imgLen

/-- Reset (R43, R400): the register values the spec gives, so every register of the map reads 0; and the reset move of the host puts
them there from any state. -/
def Obligations.ResetRegisters : Prop :=
  (∀ r, hostRead r State.reset = 0) ∧
    ∀ s : State, s = State.reset ∨ (∃ u, hostMove .reset u = .next s) →
      s.inf.phase = .idle ∧ s.inf.acc = 0 ∧ s.inf.cnt = 0 ∧ s.inf.ipos = 0 ∧ s.inf.olen = 0 ∧ s.inf.finalSeen = false ∧
      s.inf.tsel = .fixed ∧ s.inf.err = 0 ∧ s.inf.inLen = 0 ∧ s.inf.outCap = 0 ∧ s.inf.zlibEn = false ∧
      s.slr.phase = .idle ∧ s.slr.err = 0 ∧ s.slr.width = 0 ∧ s.slr.height = 0 ∧ s.slr.rawCh = 0 ∧ s.slr.outCh = 0 ∧
      s.slr.flip = false ∧ s.slr.row = 0 ∧ s.slr.forcedTransparency = false ∧ s.slr.imgLen = 0 ∧ s.diag = 0

/-- Host memory writes (R81): while both units are idle the byte is stored and every other byte stays; while a unit is busy the
model declines (R406; assumption 8); an index the space does not have stops the machine (R72; assumption 11). -/
def Obligations.HostMemoryWrite : Prop :=
  ∀ (sp : Space) (a : Nat) (v : Byte) (s : State),
    (s.infBusy = false → s.slrBusy = false → a < s.capacity sp →
      ∃ t, hostMove (.writeMem sp a v) s = .next t ∧ t.read sp a = v ∧ SameOutside sp a 1 s t ∧ t.inf = s.inf ∧
        t.slr = s.slr ∧ t.tabs = s.tabs ∧ t.diag = s.diag ∧ t.caps = s.caps) ∧
    (s.infBusy = true ∨ s.slrBusy = true → hostMove (.writeMem sp a v) s = .refused .memoryWhileBusy) ∧
    (s.infBusy = false → s.slrBusy = false → s.capacity sp ≤ a →
      hostMove (.writeMem sp a v) s = .fault (.noSuchAddress sp a))

/-- Host memory reads (R81): while both units are idle the answer is the byte, the one written after a write and else the one that
was there; while a unit is busy (R406), and for an index the space does not have (R72), the model answers no byte
(assumption 23). -/
def Obligations.HostMemoryRead : Prop :=
  ∀ (sp : Space) (a : Nat) (s : State),
    (s.infBusy = false → s.slrBusy = false → a < s.capacity sp →
      hostReadByte sp a s = some (s.read sp a) ∧
      ∀ (v : Byte) (t : State), hostMove (.writeMem sp a v) s = .next t →
        hostReadByte sp a t = some v ∧ ∀ sp' a', ¬(sp' = sp ∧ a' = a) → hostReadByte sp' a' t = hostReadByte sp' a' s) ∧
    (s.infBusy = true ∨ s.slrBusy = true → hostReadByte sp a s = none) ∧
    (s.infBusy = false → s.slrBusy = false → s.capacity sp ≤ a → hostReadByte sp a s = none)

/-! ### Invariants every step keeps -/

/-- Every step of the machine keeps the canonical form of the five memories, which is the model's (assumption 2). -/
def Obligations.StepKeepsMemories : Prop :=
  ∀ s t : State, s.memoriesOk = true → step s = .next t → t.memoriesOk = true

/-- Every step keeps INV-ACC and `olen` within OUT_CAP while INF is busy (R21, R22, R132). -/
def Obligations.StepKeepsInfRun : Prop :=
  ∀ s t : State, s.InfRunOk → step s = .next t → t.InfRunOk

/-- Every step ends at the boundary of an element, and the dynamic tables are built ones whenever a symbol step will read them
(R9, R34, R412). The boundary is the model's (assumption 7). -/
def Obligations.StepKeepsElement : Prop :=
  ∀ s t : State, s.ElementOk → step s = .next t → t.ElementOk

/-- Every step keeps what the start checks of SLR established, while SLR is busy (R301, R36, R302), and, unless the host restarts
INF under the run, the data of every row (R407; assumption 9). -/
def Obligations.StepKeepsSlrRun : Prop :=
  ∀ s t : State, (s.slrBusy = true → s.SlrRunOk) → step s = .next t → t.slrBusy = true → t.SlrRunOk

/-- The invariants hold at reset. -/
def Obligations.InvariantsAtReset : Prop :=
  State.reset.memoriesOk = true ∧ State.reset.InfRunOk ∧ State.reset.ElementOk ∧
    (State.reset.slrBusy = true → State.reset.SlrRunOk) ∧ State.reset.ErrorsOk
end

