-- ==== Sys2Proof/Laws/State.lean ====
section
/-! SUPPORT. One lemma per field per update of `State`, so that no later proof unfolds a record update. -/

namespace Sys2Proof.Machine

/-! ### `withSpace` and `write` touch memory only -/

@[simp] theorem State.withSpace_inf (s : State) (sp : Space) (m : Memory) : (s.withSpace sp m).inf = s.inf := by
  cases sp <;> rfl
@[simp] theorem State.withSpace_tabs (s : State) (sp : Space) (m : Memory) : (s.withSpace sp m).tabs = s.tabs := by
  cases sp <;> rfl
@[simp] theorem State.withSpace_slr (s : State) (sp : Space) (m : Memory) : (s.withSpace sp m).slr = s.slr := by
  cases sp <;> rfl
@[simp] theorem State.withSpace_diag (s : State) (sp : Space) (m : Memory) : (s.withSpace sp m).diag = s.diag := by
  cases sp <;> rfl
@[simp] theorem State.withSpace_caps (s : State) (sp : Space) (m : Memory) : (s.withSpace sp m).caps = s.caps := by
  cases sp <;> rfl
@[simp] theorem State.withSpace_hostQueue (s : State) (sp : Space) (m : Memory) :
    (s.withSpace sp m).hostQueue = s.hostQueue := by cases sp <;> rfl
@[simp] theorem State.withSpace_draws (s : State) (sp : Space) (m : Memory) : (s.withSpace sp m).draws = s.draws := by
  cases sp <;> rfl
@[simp] theorem State.withSpace_epoch (s : State) (sp : Space) (m : Memory) : (s.withSpace sp m).epoch = s.epoch := by
  cases sp <;> rfl
@[simp] theorem State.withSpace_disturbed (s : State) (sp : Space) (m : Memory) :
    (s.withSpace sp m).disturbed = s.disturbed := by cases sp <;> rfl
@[simp] theorem State.withSpace_spoils (s : State) (sp : Space) (m : Memory) :
    (s.withSpace sp m).spoils = s.spoils := by cases sp <;> rfl

theorem State.space_withSpace (s : State) (sp sp' : Space) (m : Memory) :
    (s.withSpace sp m).space sp' = if sp' = sp then m else s.space sp' := by
  cases sp <;> cases sp' <;> rfl

@[simp] theorem State.write_inf (s : State) (sp : Space) (a : Nat) (v : Byte) : (s.write sp a v).inf = s.inf := by
  simp [State.write]
@[simp] theorem State.write_tabs (s : State) (sp : Space) (a : Nat) (v : Byte) : (s.write sp a v).tabs = s.tabs := by
  simp [State.write]
@[simp] theorem State.write_slr (s : State) (sp : Space) (a : Nat) (v : Byte) : (s.write sp a v).slr = s.slr := by
  simp [State.write]
@[simp] theorem State.write_diag (s : State) (sp : Space) (a : Nat) (v : Byte) : (s.write sp a v).diag = s.diag := by
  simp [State.write]
@[simp] theorem State.write_caps (s : State) (sp : Space) (a : Nat) (v : Byte) : (s.write sp a v).caps = s.caps := by
  simp [State.write]
@[simp] theorem State.write_hostQueue (s : State) (sp : Space) (a : Nat) (v : Byte) :
    (s.write sp a v).hostQueue = s.hostQueue := by simp [State.write]
@[simp] theorem State.write_draws (s : State) (sp : Space) (a : Nat) (v : Byte) : (s.write sp a v).draws = s.draws := by
  simp [State.write]
@[simp] theorem State.write_epoch (s : State) (sp : Space) (a : Nat) (v : Byte) : (s.write sp a v).epoch = s.epoch := by
  simp [State.write]
@[simp] theorem State.write_disturbed (s : State) (sp : Space) (a : Nat) (v : Byte) :
    (s.write sp a v).disturbed = s.disturbed := by simp [State.write]
@[simp] theorem State.write_spoils (s : State) (sp : Space) (a : Nat) (v : Byte) :
    (s.write sp a v).spoils = s.spoils := by simp [State.write]

/-! ### Reading memory looks at memory, `epoch` and `spoils` only -/

theorem State.read_congr {s t : State} (hm : t.mem = s.mem) (he : t.epoch = s.epoch) (hp : t.spoils = s.spoils) (sp : Space)
    (a : Nat) : t.read sp a = s.read sp a := by
  cases sp <;> simp only [State.read, State.space, State.spoilsOf, hm, he, hp]

/-- What IN reads as depends on the bytes of IN and `epoch` only. -/
theorem State.read_inn_congr {s t : State} (hm : t.mem.inn = s.mem.inn) (he : t.epoch = s.epoch) (a : Nat) :
    t.read .inn a = s.read .inn a := by
  simp only [State.read, State.space, State.spoilsOf, hm, he]

/-! ### Updates of INF's registers -/

@[simp] theorem setFinal_mem (b : Bool) (s : State) : (setFinal b s).mem = s.mem := rfl
@[simp] theorem setFinal_finalSeen (b : Bool) (s : State) : (setFinal b s).inf.finalSeen = b := rfl
@[simp] theorem setFinal_slr (b : Bool) (s : State) : (setFinal b s).slr = s.slr := rfl
@[simp] theorem setTsel_mem (t : TableSel) (s : State) : (setTsel t s).mem = s.mem := rfl
@[simp] theorem setTsel_tsel (t : TableSel) (s : State) : (setTsel t s).inf.tsel = t := rfl
@[simp] theorem setTsel_slr (t : TableSel) (s : State) : (setTsel t s).slr = s.slr := rfl
@[simp] theorem setPhase_mem (p : Phase) (s : State) : (setPhase p s).mem = s.mem := rfl
@[simp] theorem setPhase_phase (p : Phase) (s : State) : (setPhase p s).inf.phase = p := rfl
@[simp] theorem setPhase_sub (p : Phase) (s : State) : (setPhase p s).inf.sub = .boundary := rfl
@[simp] theorem setPhase_slr (p : Phase) (s : State) : (setPhase p s).slr = s.slr := rfl

/-- All that the end of a block can do (R187). -/
theorem blockEnd_eq (s : State) :
    blockEnd s = { s with inf := { s.inf with
      phase := if s.inf.finalSeen then .done else .bhdr, sub := .boundary } } := by
  unfold blockEnd setPhase
  split <;> rfl

@[simp] theorem dropBits_mem (n : Nat) (s : State) : (dropBits n s).mem = s.mem := rfl
@[simp] theorem dropBits_epoch (n : Nat) (s : State) : (dropBits n s).epoch = s.epoch := rfl
@[simp] theorem dropBits_spoils (n : Nat) (s : State) : (dropBits n s).spoils = s.spoils := rfl
@[simp] theorem dropBits_cnt (n : Nat) (s : State) : (dropBits n s).inf.cnt = s.inf.cnt - n := rfl
@[simp] theorem dropBits_ipos (n : Nat) (s : State) : (dropBits n s).inf.ipos = s.inf.ipos := rfl
@[simp] theorem dropBits_inLen (n : Nat) (s : State) : (dropBits n s).inf.inLen = s.inf.inLen := rfl
@[simp] theorem loadByte_mem (s : State) : (loadByte s).mem = s.mem := rfl
@[simp] theorem loadByte_epoch (s : State) : (loadByte s).epoch = s.epoch := rfl
@[simp] theorem loadByte_spoils (s : State) : (loadByte s).spoils = s.spoils := rfl
@[simp] theorem loadByte_cnt (s : State) : (loadByte s).inf.cnt = s.inf.cnt + 8 := rfl
@[simp] theorem loadByte_ipos (s : State) : (loadByte s).inf.ipos = s.inf.ipos + 1 := rfl
@[simp] theorem loadByte_inLen (s : State) : (loadByte s).inf.inLen = s.inf.inLen := rfl

/-! ### Fault entries -/

@[simp] theorem infFault_mem (f : FaultCode) (s : State) : (infFault f s).mem = s.mem := rfl
@[simp] theorem infFault_epoch (f : FaultCode) (s : State) : (infFault f s).epoch = s.epoch := rfl
@[simp] theorem infFault_spoils (f : FaultCode) (s : State) : (infFault f s).spoils = s.spoils := rfl
@[simp] theorem infFault_slr (f : FaultCode) (s : State) : (infFault f s).slr = s.slr := rfl
@[simp] theorem infFault_caps (f : FaultCode) (s : State) : (infFault f s).caps = s.caps := rfl
@[simp] theorem infFault_hostQueue (f : FaultCode) (s : State) : (infFault f s).hostQueue = s.hostQueue := rfl
@[simp] theorem infFault_disturbed (f : FaultCode) (s : State) : (infFault f s).disturbed = s.disturbed := rfl
@[simp] theorem infFault_phase (f : FaultCode) (s : State) : (infFault f s).inf.phase = .error := rfl
@[simp] theorem infFault_sub (f : FaultCode) (s : State) : (infFault f s).inf.sub = .boundary := rfl
@[simp] theorem infFault_err (f : FaultCode) (s : State) : (infFault f s).inf.err = f.code := rfl
@[simp] theorem infFault_olen (f : FaultCode) (s : State) : (infFault f s).inf.olen = s.inf.olen := rfl
@[simp] theorem infFault_inLen (f : FaultCode) (s : State) : (infFault f s).inf.inLen = s.inf.inLen := rfl
@[simp] theorem infFault_outCap (f : FaultCode) (s : State) : (infFault f s).inf.outCap = s.inf.outCap := rfl
@[simp] theorem infFault_zlibEn (f : FaultCode) (s : State) : (infFault f s).inf.zlibEn = s.inf.zlibEn := rfl
@[simp] theorem infFault_diag (f : FaultCode) (s : State) : (infFault f s).diag = recordDiag f s.diag := rfl
@[simp] theorem slrFault_mem (f : FaultCode) (s : State) : (slrFault f s).mem = s.mem := rfl
@[simp] theorem slrFault_inf (f : FaultCode) (s : State) : (slrFault f s).inf = s.inf := rfl
@[simp] theorem slrFault_disturbed (f : FaultCode) (s : State) : (slrFault f s).disturbed = s.disturbed := rfl
@[simp] theorem slrFault_phase (f : FaultCode) (s : State) : (slrFault f s).slr.phase = .error := rfl
@[simp] theorem slrFault_err (f : FaultCode) (s : State) : (slrFault f s).slr.err = f.code := rfl
@[simp] theorem slrFault_diag (f : FaultCode) (s : State) : (slrFault f s).diag = recordDiag f s.diag := rfl

/-! ### Spoiling SLR's spaces (R407) -/

@[simp] theorem spoilRows_inf (s : State) : (spoilRows s).inf = s.inf := rfl
@[simp] theorem spoilRows_tabs (s : State) : (spoilRows s).tabs = s.tabs := rfl
@[simp] theorem spoilRows_slr (s : State) : (spoilRows s).slr = s.slr := rfl
@[simp] theorem spoilRows_diag (s : State) : (spoilRows s).diag = s.diag := rfl
@[simp] theorem spoilRows_caps (s : State) : (spoilRows s).caps = s.caps := rfl
@[simp] theorem spoilRows_hostQueue (s : State) : (spoilRows s).hostQueue = s.hostQueue := rfl
@[simp] theorem spoilRows_draws (s : State) : (spoilRows s).draws = s.draws := rfl
@[simp] theorem spoilRows_epoch (s : State) : (spoilRows s).epoch = s.epoch := rfl
@[simp] theorem spoilRows_disturbed (s : State) : (spoilRows s).disturbed = s.disturbed := rfl
@[simp] theorem spoilRows_spoils (s : State) : (spoilRows s).spoils = s.spoils + 1 := rfl
@[simp] theorem spoilRows_read_inn (s : State) (a : Nat) : (spoilRows s).read .inn a = s.read .inn a := rfl
@[simp] theorem spoilRows_read_out (s : State) (a : Nat) : (spoilRows s).read .out a = s.read .out a := rfl

end Sys2Proof.Machine
end

