-- ==== Sys2Proof/Laws/Memory.lean ====
section
/-! SUPPORT. Memory: a read after a write, the canonical form, the same of the spaces of a state and of appending to OUT. -/

namespace Sys2Proof.Machine

theorem Memory.get_set (m : Memory) (a b : Nat) (v : Byte) :
    Memory.get (Memory.set m a v) b = if a = b then some v else Memory.get m b := by
  induction m with
  | nil => simp [Memory.set, Memory.get]
  | cons c m ih =>
    obtain ⟨k, w⟩ := c
    simp only [Memory.set]
    split
    · simp [Memory.get]
    · split
      · subst_vars
        simp only [Memory.get]
        split <;> rfl
      · simp only [Memory.get, ih]
        grind

/-- In canonical form the addresses after the first entry are above it. -/
theorem Memory.wf_cons (k : Nat) (w : Byte) (m : Memory) :
    Memory.wf ((k, w) :: m) = true ↔ (∀ c ∈ m, k < c.1) ∧ Memory.wf m = true := by
  induction m generalizing k w with
  | nil => simp [Memory.wf]
  | cons c m ih =>
    obtain ⟨k', w'⟩ := c
    rw [Memory.wf, Bool.and_eq_true, decide_eq_true_iff]
    constructor
    · rintro ⟨h, hw⟩
      refine ⟨?_, hw⟩
      have := ((ih k' w').1 hw).1
      intro c hc
      rcases List.mem_cons.1 hc with rfl | hc
      · exact h
      · exact lt_trans h (this c hc)
    · rintro ⟨h, hw⟩
      exact ⟨h (k', w') (by simp), hw⟩

theorem Memory.mem_set_key {m : Memory} {a : Nat} {v : Byte} {c : Host.Cell} (h : c ∈ Memory.set m a v) :
    c.1 = a ∨ c ∈ m := by
  induction m with
  | nil => simp [Memory.set] at h; simp [h]
  | cons d m ih =>
    obtain ⟨k, w⟩ := d
    simp only [Memory.set] at h
    split at h
    · rcases List.mem_cons.1 h with rfl | h
      · exact .inl rfl
      · exact .inr h
    · split at h
      · rcases List.mem_cons.1 h with rfl | h
        · exact .inl rfl
        · exact .inr (List.mem_cons_of_mem _ h)
      · rcases List.mem_cons.1 h with rfl | h
        · exact .inr (by simp)
        · rcases ih h with h | h
          · exact .inl h
          · exact .inr (List.mem_cons_of_mem _ h)

/-- A write keeps the canonical form. -/
theorem Memory.wf_set (m : Memory) (a : Nat) (v : Byte) (h : Memory.wf m = true) : Memory.wf (Memory.set m a v) = true := by
  induction m with
  | nil => rfl
  | cons c m ih =>
    obtain ⟨k, w⟩ := c
    obtain ⟨hk, hm⟩ := (Memory.wf_cons k w m).1 h
    simp only [Memory.set]
    split
    · rename_i hlt
      refine (Memory.wf_cons _ _ _).2 ⟨?_, h⟩
      intro c hc
      rcases List.mem_cons.1 hc with rfl | hc
      · exact hlt
      · exact lt_trans hlt (hk c hc)
    · split
      · subst_vars
        exact (Memory.wf_cons _ _ _).2 ⟨hk, hm⟩
      · refine (Memory.wf_cons _ _ _).2 ⟨?_, ih hm⟩
        intro c hc
        rcases Memory.mem_set_key hc with rfl | hc
        · omega
        · exact hk c hc

/-- A read after a write of one byte. -/
theorem State.read_write (s : State) (sp sp' : Space) (a b : Nat) (v : Byte) :
    (s.write sp a v).read sp' b = if sp' = sp ∧ b = a then v else s.read sp' b := by
  unfold State.read
  have hs : (s.write sp a v).spoilsOf sp' = s.spoilsOf sp' := by cases sp' <;> simp [State.spoilsOf]
  rw [hs, State.write_epoch, State.write, State.space_withSpace]
  by_cases hs : sp' = sp
  · subst hs
    rw [if_pos rfl, Memory.get_set]
    by_cases hb : a = b
    · simp [hb]
    · simp [hb, Ne.symm hb]
  · simp [hs]

@[simp] theorem State.read_write_same (s : State) (sp : Space) (a : Nat) (v : Byte) : (s.write sp a v).read sp a = v := by
  simp [State.read_write]

theorem State.read_write_other (s : State) {sp sp' : Space} {a b : Nat} (v : Byte) (h : ¬(sp' = sp ∧ b = a)) :
    (s.write sp a v).read sp' b = s.read sp' b := by
  rw [State.read_write, if_neg h]

@[simp] theorem pushOut_tabs (v : Byte) (s : State) : (pushOut v s).tabs = s.tabs := by simp [pushOut]
@[simp] theorem pushOut_slr (v : Byte) (s : State) : (pushOut v s).slr = s.slr := by simp [pushOut]
@[simp] theorem pushOut_diag (v : Byte) (s : State) : (pushOut v s).diag = s.diag := by simp [pushOut]
@[simp] theorem pushOut_caps (v : Byte) (s : State) : (pushOut v s).caps = s.caps := by simp [pushOut]
@[simp] theorem pushOut_hostQueue (v : Byte) (s : State) : (pushOut v s).hostQueue = s.hostQueue := by simp [pushOut]
@[simp] theorem pushOut_draws (v : Byte) (s : State) : (pushOut v s).draws = s.draws := by simp [pushOut]
@[simp] theorem pushOut_epoch (v : Byte) (s : State) : (pushOut v s).epoch = s.epoch := by simp [pushOut]
@[simp] theorem pushOut_disturbed (v : Byte) (s : State) : (pushOut v s).disturbed = s.disturbed := by simp [pushOut]
@[simp] theorem pushOut_spoils (v : Byte) (s : State) : (pushOut v s).spoils = s.spoils := by simp [pushOut]
@[simp] theorem pushOut_inf (v : Byte) (s : State) : (pushOut v s).inf = { s.inf with olen := s.inf.olen + 1 } := by
  simp [pushOut]

/-- Appending a byte: what every address reads afterwards. -/
theorem pushOut_read (v : Byte) (s : State) (sp : Space) (a : Nat) :
    (pushOut v s).read sp a = if sp = .out ∧ a = s.inf.olen then v else s.read sp a := by
  rw [← State.read_write s .out sp s.inf.olen a v]
  exact State.read_congr rfl rfl rfl sp a

end Sys2Proof.Machine
end

