-- ==== Sys2Proof/Laws/Copy.lean ====
section
/-! SUPPORT. The two byte loops that append to OUT: `copyLoop` (R295) and `copyStored` (R188). -/

namespace Sys2Proof.Machine

theorem SameBesidesInf.refl (s : State) : SameBesidesInf s s := ⟨rfl, rfl, rfl, rfl, rfl, rfl, rfl, rfl, rfl⟩

theorem SameBesidesInf.trans {s t u : State} (h : SameBesidesInf s t) (k : SameBesidesInf t u) : SameBesidesInf s u := by
  obtain ⟨h1, h2, h3, h4, h5, h6, h7, h8, h9⟩ := h
  obtain ⟨k1, k2, k3, k4, k5, k6, k7, k8, k9⟩ := k
  exact ⟨k1.trans h1, k2.trans h2, k3.trans h3, k4.trans h4, k5.trans h5, k6.trans h6, k7.trans h7, k8.trans h8,
    k9.trans h9⟩

theorem SameOutside.refl (sp : Space) (lo n : Nat) (s : State) : SameOutside sp lo n s s := fun _ _ _ => rfl

theorem pushOut_same (v : Byte) (s : State) : SameBesidesInf s (pushOut v s) := by
  simp [SameBesidesInf]

/-- All that `copyLoop` does: `n` bytes are appended, each a copy of the byte `distance` before it; nothing else changes. -/
theorem copyLoop_spec (distance n : Nat) {s : State} (h1 : 1 ≤ distance) (h2 : distance ≤ s.inf.olen) :
    (copyLoop distance n s).inf = { s.inf with olen := s.inf.olen + n } ∧
      SameBesidesInf s (copyLoop distance n s) ∧ SameOutside .out s.inf.olen n s (copyLoop distance n s) ∧
      ∀ i < n, (copyLoop distance n s).read .out (s.inf.olen + i) =
        (copyLoop distance n s).read .out (s.inf.olen + i - distance) := by
  induction n generalizing s with
  | zero => exact ⟨rfl, .refl s, .refl _ _ _ s, fun i hi => absurd hi (by omega)⟩
  | succ n ih =>
    rw [copyLoop]
    generalize hv : s.read .out (s.inf.olen - distance) = v
    have ho : (pushOut v s).inf.olen = s.inf.olen + 1 := by simp
    obtain ⟨e, r, f, c⟩ := ih (s := pushOut v s) (by simp; omega)
    generalize hu : copyLoop distance n (pushOut v s) = u at e r f c ⊢
    rw [ho] at e f c
    refine ⟨?_, (pushOut_same v s).trans r, ?_, ?_⟩
    · rw [e]; simp; omega
    · intro sp a ha
      rw [f sp a (by intro hh; exact ha ⟨hh.1, by omega, by omega⟩), pushOut_read, if_neg]
      rintro ⟨rfl, rfl⟩
      exact ha ⟨rfl, by omega, by omega⟩
    · intro i hi
      cases i with
      | zero =>
        rw [f .out (s.inf.olen + 0) (by omega), f .out (s.inf.olen + 0 - distance) (by omega), pushOut_read, pushOut_read]
        rw [if_pos ⟨rfl, by omega⟩, if_neg (by rintro ⟨-, h⟩; omega), ← hv]
        rfl
      | succ i =>
        have := c i (by omega)
        have e1 : s.inf.olen + (i + 1) = s.inf.olen + 1 + i := by omega
        rw [e1, this]

/-- All that `copyStored` does: `n` bytes of IN are appended to OUT and `ipos` moves past them; nothing else changes. -/
theorem copyStored_spec (n : Nat) (s : State) :
    (copyStored n s).inf = { s.inf with olen := s.inf.olen + n, ipos := s.inf.ipos + n } ∧
      SameBesidesInf s (copyStored n s) ∧ SameOutside .out s.inf.olen n s (copyStored n s) ∧
      ∀ i < n, (copyStored n s).read .out (s.inf.olen + i) = s.read .inn (s.inf.ipos + i) := by
  induction n generalizing s with
  | zero => exact ⟨rfl, .refl s, .refl _ _ _ s, fun i hi => absurd hi (by omega)⟩
  | succ n ih =>
    rw [copyStored]
    generalize hv : s.read .inn s.inf.ipos = v
    generalize hp : ({ pushOut v s with
      inf := { (pushOut v s).inf with ipos := (pushOut v s).inf.ipos + 1 } } : State) = p
    have hpi : p.inf = { s.inf with olen := s.inf.olen + 1, ipos := s.inf.ipos + 1 } := by rw [← hp]; simp
    have hps : SameBesidesInf s p := by rw [← hp]; simp [SameBesidesInf]
    have hpr : ∀ sp a, p.read sp a = if sp = .out ∧ a = s.inf.olen then v else s.read sp a := by
      intro sp a
      rw [← pushOut_read, ← hp]
      exact State.read_congr rfl rfl rfl sp a
    obtain ⟨e, r, f, c⟩ := ih p
    rw [hpi] at e f c
    simp only at f c
    show (copyStored n p).inf = _ ∧ _
    refine ⟨?_, hps.trans r, ?_, ?_⟩
    · rw [e]; simp; omega
    · intro sp a ha
      rw [f sp a (by intro hh; exact ha ⟨hh.1, by omega, by omega⟩), hpr, if_neg]
      rintro ⟨rfl, rfl⟩
      exact ha ⟨rfl, by omega, by omega⟩
    · intro i hi
      cases i with
      | zero =>
        rw [f .out (s.inf.olen + 0) (by rintro ⟨-, h, -⟩; simp at h), hpr, if_pos ⟨rfl, rfl⟩, ← hv]; rfl
      | succ i =>
        have := c i (by omega)
        have e1 : s.inf.olen + (i + 1) = s.inf.olen + 1 + i := by omega
        have e2 : s.inf.ipos + (i + 1) = s.inf.ipos + 1 + i := by omega
        rw [e1, this, e2, hpr, if_neg (by rintro ⟨h, -⟩; cases h)]

end Sys2Proof.Machine
end

