-- ==== Sys2Proof/Laws/Invariants.lean ====
section
/-! SUPPORT. What the operations that write memory do to the canonical form of the five spaces. -/

namespace Sys2Proof.Machine

theorem memoriesOk_congr {s t : State} (h : t.mem = s.mem) : t.memoriesOk = s.memoriesOk := by
  simp only [State.memoriesOk, h]

/-- A write of one byte keeps the canonical form of every space. -/
theorem memoriesOk_write (s : State) (sp : Space) (a : Nat) (v : Byte) (h : s.memoriesOk = true) :
    (s.write sp a v).memoriesOk = true := by
  simp only [State.memoriesOk, Bool.and_eq_true] at h ⊢
  obtain ⟨⟨⟨⟨h1, h2⟩, h3⟩, h4⟩, h5⟩ := h
  cases sp
  · exact ⟨⟨⟨⟨Memory.wf_set _ a v h1, h2⟩, h3⟩, h4⟩, h5⟩
  · exact ⟨⟨⟨⟨h1, Memory.wf_set _ a v h2⟩, h3⟩, h4⟩, h5⟩
  · exact ⟨⟨⟨⟨h1, h2⟩, Memory.wf_set _ a v h3⟩, h4⟩, h5⟩
  · exact ⟨⟨⟨⟨h1, h2⟩, h3⟩, Memory.wf_set _ a v h4⟩, h5⟩
  · exact ⟨⟨⟨⟨h1, h2⟩, h3⟩, h4⟩, Memory.wf_set _ a v h5⟩

theorem memoriesOk_pushOut (v : Byte) (s : State) (h : s.memoriesOk = true) : (pushOut v s).memoriesOk = true := by
  rw [show (pushOut v s).memoriesOk = (s.write .out s.inf.olen v).memoriesOk from memoriesOk_congr rfl]
  exact memoriesOk_write s .out _ v h

theorem memoriesOk_copyLoop (distance n : Nat) (s : State) (h : s.memoriesOk = true) :
    (copyLoop distance n s).memoriesOk = true := by
  induction n generalizing s with
  | zero => exact h
  | succ n ih => exact ih _ (memoriesOk_pushOut _ s h)

theorem memoriesOk_copyStored (n : Nat) (s : State) (h : s.memoriesOk = true) : (copyStored n s).memoriesOk = true := by
  induction n generalizing s with
  | zero => exact h
  | succ n ih =>
    exact ih _ ((memoriesOk_congr (s := pushOut (s.read .inn s.inf.ipos) s) rfl).trans (memoriesOk_pushOut _ s h))

theorem memoriesOk_spoilRows (s : State) (h : s.memoriesOk = true) : (spoilRows s).memoriesOk = true := by
  simp only [State.memoriesOk, Bool.and_eq_true] at h
  simp [State.memoriesOk, spoilRows, Memory.wf, h]

end Sys2Proof.Machine
end

