-- ==== Sys2Proof/Laws/PerInstr.lean ====
section
/-! SUPPORT. Statements for all instructions, made per instruction. -/

set_option Elab.async false

namespace Sys2Proof.Laws.EncodingFits

/-- The encoding of the instruction fits its format: the word has the format's bits (R117), the extra bits are as many as the
word's symbol has (R96, R97). -/
def Statement (i : Instr) : Prop :=
  (encode i).word < 2 ^ (encode i).fmt.wordBits ∧ (encode i).extra < 2 ^ extraBits (encode i).fmt (encode i).word

theorem zhdr (cmf flg : Byte) : Statement (.zhdr cmf flg) :=
  ⟨by have := cmf.isLt; have := flg.isLt; simp only [encode, Format.wordBits]; omega, Nat.zero_lt_one⟩
theorem blkStored (bfinal : Bool) : Statement (.blkStored bfinal) := by
  cases bfinal <;> exact ⟨by decide, by decide⟩
theorem blkFixed (bfinal : Bool) : Statement (.blkFixed bfinal) := by
  cases bfinal <;> exact ⟨by decide, by decide⟩
theorem blkDynamic (bfinal : Bool) : Statement (.blkDynamic bfinal) := by
  cases bfinal <;> exact ⟨by decide, by decide⟩
theorem blkRsvd (bfinal : Bool) : Statement (.blkRsvd bfinal) := by
  cases bfinal <;> exact ⟨by decide, by decide⟩
theorem storedData (len nlen : BitVec 16) : Statement (.storedData len nlen) :=
  ⟨by have := len.isLt; have := nlen.isLt; simp only [encode, Format.wordBits]; omega, Nat.zero_lt_one⟩
theorem dyn (hlit hdist : BitVec 5) (hclen : BitVec 4) : Statement (.dyn hlit hdist hclen) :=
  ⟨by have := hlit.isLt; have := hdist.isLt; have := hclen.isLt; simp only [encode, Format.wordBits]; omega, Nat.zero_lt_one⟩
theorem cl (n : BitVec 4) : Statement (.cl n) :=
  ⟨by have := n.isLt; simp only [encode, Format.wordBits]; omega, by have := n.isLt; simp only [encode, extraBits, clExtra]; split_ifs <;> omega⟩
theorem cl16 (rep : BitVec 2) : Statement (.cl16 rep) :=
  ⟨by simp only [encode, Format.wordBits]; decide, by
    have h : extraBits .clsym 16 = 2 := by decide
    show rep.toNat < 2 ^ extraBits .clsym 16
    rw [h]
    exact rep.isLt⟩
theorem cl17 (rep : BitVec 3) : Statement (.cl17 rep) :=
  ⟨by simp only [encode, Format.wordBits]; decide, by
    have h : extraBits .clsym 17 = 3 := by decide
    show rep.toNat < 2 ^ extraBits .clsym 17
    rw [h]
    exact rep.isLt⟩
theorem cl18 (rep : BitVec 7) : Statement (.cl18 rep) :=
  ⟨by simp only [encode, Format.wordBits]; decide, by
    have h : extraBits .clsym 18 = 7 := by decide
    show rep.toNat < 2 ^ extraBits .clsym 18
    rw [h]
    exact rep.isLt⟩
theorem lit (b : Byte) : Statement (.lit b) :=
  ⟨by have := b.isLt; simp only [encode, Format.wordBits]; omega, by have := b.isLt; simp only [encode, extraBits, llExtra]; split_ifs <;> omega⟩
theorem eob : Statement .eob := ⟨by decide, by decide⟩
theorem len257 : Statement .len257 := ⟨by decide, by decide⟩
theorem len258 : Statement .len258 := ⟨by decide, by decide⟩
theorem len259 : Statement .len259 := ⟨by decide, by decide⟩
theorem len260 : Statement .len260 := ⟨by decide, by decide⟩
theorem len261 : Statement .len261 := ⟨by decide, by decide⟩
theorem len262 : Statement .len262 := ⟨by decide, by decide⟩
theorem len263 : Statement .len263 := ⟨by decide, by decide⟩
theorem len264 : Statement .len264 := ⟨by decide, by decide⟩
theorem len265 (e : BitVec 1) : Statement (.len265 e) :=
  ⟨by simp only [encode, Format.wordBits]; decide, by
    have h : extraBits .llsym 265 = 1 := by decide
    show e.toNat < 2 ^ extraBits .llsym 265
    rw [h]
    exact e.isLt⟩
theorem len266 (e : BitVec 1) : Statement (.len266 e) :=
  ⟨by simp only [encode, Format.wordBits]; decide, by
    have h : extraBits .llsym 266 = 1 := by decide
    show e.toNat < 2 ^ extraBits .llsym 266
    rw [h]
    exact e.isLt⟩
theorem len267 (e : BitVec 1) : Statement (.len267 e) :=
  ⟨by simp only [encode, Format.wordBits]; decide, by
    have h : extraBits .llsym 267 = 1 := by decide
    show e.toNat < 2 ^ extraBits .llsym 267
    rw [h]
    exact e.isLt⟩
theorem len268 (e : BitVec 1) : Statement (.len268 e) :=
  ⟨by simp only [encode, Format.wordBits]; decide, by
    have h : extraBits .llsym 268 = 1 := by decide
    show e.toNat < 2 ^ extraBits .llsym 268
    rw [h]
    exact e.isLt⟩
theorem len269 (e : BitVec 2) : Statement (.len269 e) :=
  ⟨by simp only [encode, Format.wordBits]; decide, by
    have h : extraBits .llsym 269 = 2 := by decide
    show e.toNat < 2 ^ extraBits .llsym 269
    rw [h]
    exact e.isLt⟩
theorem len270 (e : BitVec 2) : Statement (.len270 e) :=
  ⟨by simp only [encode, Format.wordBits]; decide, by
    have h : extraBits .llsym 270 = 2 := by decide
    show e.toNat < 2 ^ extraBits .llsym 270
    rw [h]
    exact e.isLt⟩
theorem len271 (e : BitVec 2) : Statement (.len271 e) :=
  ⟨by simp only [encode, Format.wordBits]; decide, by
    have h : extraBits .llsym 271 = 2 := by decide
    show e.toNat < 2 ^ extraBits .llsym 271
    rw [h]
    exact e.isLt⟩
theorem len272 (e : BitVec 2) : Statement (.len272 e) :=
  ⟨by simp only [encode, Format.wordBits]; decide, by
    have h : extraBits .llsym 272 = 2 := by decide
    show e.toNat < 2 ^ extraBits .llsym 272
    rw [h]
    exact e.isLt⟩
theorem len273 (e : BitVec 3) : Statement (.len273 e) :=
  ⟨by simp only [encode, Format.wordBits]; decide, by
    have h : extraBits .llsym 273 = 3 := by decide
    show e.toNat < 2 ^ extraBits .llsym 273
    rw [h]
    exact e.isLt⟩
theorem len274 (e : BitVec 3) : Statement (.len274 e) :=
  ⟨by simp only [encode, Format.wordBits]; decide, by
    have h : extraBits .llsym 274 = 3 := by decide
    show e.toNat < 2 ^ extraBits .llsym 274
    rw [h]
    exact e.isLt⟩
theorem len275 (e : BitVec 3) : Statement (.len275 e) :=
  ⟨by simp only [encode, Format.wordBits]; decide, by
    have h : extraBits .llsym 275 = 3 := by decide
    show e.toNat < 2 ^ extraBits .llsym 275
    rw [h]
    exact e.isLt⟩
theorem len276 (e : BitVec 3) : Statement (.len276 e) :=
  ⟨by simp only [encode, Format.wordBits]; decide, by
    have h : extraBits .llsym 276 = 3 := by decide
    show e.toNat < 2 ^ extraBits .llsym 276
    rw [h]
    exact e.isLt⟩
theorem len277 (e : BitVec 4) : Statement (.len277 e) :=
  ⟨by simp only [encode, Format.wordBits]; decide, by
    have h : extraBits .llsym 277 = 4 := by decide
    show e.toNat < 2 ^ extraBits .llsym 277
    rw [h]
    exact e.isLt⟩
theorem len278 (e : BitVec 4) : Statement (.len278 e) :=
  ⟨by simp only [encode, Format.wordBits]; decide, by
    have h : extraBits .llsym 278 = 4 := by decide
    show e.toNat < 2 ^ extraBits .llsym 278
    rw [h]
    exact e.isLt⟩
theorem len279 (e : BitVec 4) : Statement (.len279 e) :=
  ⟨by simp only [encode, Format.wordBits]; decide, by
    have h : extraBits .llsym 279 = 4 := by decide
    show e.toNat < 2 ^ extraBits .llsym 279
    rw [h]
    exact e.isLt⟩
theorem len280 (e : BitVec 4) : Statement (.len280 e) :=
  ⟨by simp only [encode, Format.wordBits]; decide, by
    have h : extraBits .llsym 280 = 4 := by decide
    show e.toNat < 2 ^ extraBits .llsym 280
    rw [h]
    exact e.isLt⟩
theorem len281 (e : BitVec 5) : Statement (.len281 e) :=
  ⟨by simp only [encode, Format.wordBits]; decide, by
    have h : extraBits .llsym 281 = 5 := by decide
    show e.toNat < 2 ^ extraBits .llsym 281
    rw [h]
    exact e.isLt⟩
theorem len282 (e : BitVec 5) : Statement (.len282 e) :=
  ⟨by simp only [encode, Format.wordBits]; decide, by
    have h : extraBits .llsym 282 = 5 := by decide
    show e.toNat < 2 ^ extraBits .llsym 282
    rw [h]
    exact e.isLt⟩
theorem len283 (e : BitVec 5) : Statement (.len283 e) :=
  ⟨by simp only [encode, Format.wordBits]; decide, by
    have h : extraBits .llsym 283 = 5 := by decide
    show e.toNat < 2 ^ extraBits .llsym 283
    rw [h]
    exact e.isLt⟩
theorem len284 (e : BitVec 5) : Statement (.len284 e) :=
  ⟨by simp only [encode, Format.wordBits]; decide, by
    have h : extraBits .llsym 284 = 5 := by decide
    show e.toNat < 2 ^ extraBits .llsym 284
    rw [h]
    exact e.isLt⟩
theorem len285 : Statement .len285 := ⟨by decide, by decide⟩
theorem llRsvd (hi : BitVec 1) : Statement (.llRsvd hi) :=
  by have : hi = 0 ∨ hi = 1 := by decide +revert
     rcases this with rfl | rfl <;> exact ⟨by decide, by decide⟩
theorem dist0 : Statement .dist0 := ⟨by decide, by decide⟩
theorem dist1 : Statement .dist1 := ⟨by decide, by decide⟩
theorem dist2 : Statement .dist2 := ⟨by decide, by decide⟩
theorem dist3 : Statement .dist3 := ⟨by decide, by decide⟩
theorem dist4 (f : BitVec 1) : Statement (.dist4 f) :=
  ⟨by simp only [encode, Format.wordBits]; decide, by
    have h : extraBits .dsym 4 = 1 := by decide
    show f.toNat < 2 ^ extraBits .dsym 4
    rw [h]
    exact f.isLt⟩
theorem dist5 (f : BitVec 1) : Statement (.dist5 f) :=
  ⟨by simp only [encode, Format.wordBits]; decide, by
    have h : extraBits .dsym 5 = 1 := by decide
    show f.toNat < 2 ^ extraBits .dsym 5
    rw [h]
    exact f.isLt⟩
theorem dist6 (f : BitVec 2) : Statement (.dist6 f) :=
  ⟨by simp only [encode, Format.wordBits]; decide, by
    have h : extraBits .dsym 6 = 2 := by decide
    show f.toNat < 2 ^ extraBits .dsym 6
    rw [h]
    exact f.isLt⟩
theorem dist7 (f : BitVec 2) : Statement (.dist7 f) :=
  ⟨by simp only [encode, Format.wordBits]; decide, by
    have h : extraBits .dsym 7 = 2 := by decide
    show f.toNat < 2 ^ extraBits .dsym 7
    rw [h]
    exact f.isLt⟩
theorem dist8 (f : BitVec 3) : Statement (.dist8 f) :=
  ⟨by simp only [encode, Format.wordBits]; decide, by
    have h : extraBits .dsym 8 = 3 := by decide
    show f.toNat < 2 ^ extraBits .dsym 8
    rw [h]
    exact f.isLt⟩
theorem dist9 (f : BitVec 3) : Statement (.dist9 f) :=
  ⟨by simp only [encode, Format.wordBits]; decide, by
    have h : extraBits .dsym 9 = 3 := by decide
    show f.toNat < 2 ^ extraBits .dsym 9
    rw [h]
    exact f.isLt⟩
theorem dist10 (f : BitVec 4) : Statement (.dist10 f) :=
  ⟨by simp only [encode, Format.wordBits]; decide, by
    have h : extraBits .dsym 10 = 4 := by decide
    show f.toNat < 2 ^ extraBits .dsym 10
    rw [h]
    exact f.isLt⟩
theorem dist11 (f : BitVec 4) : Statement (.dist11 f) :=
  ⟨by simp only [encode, Format.wordBits]; decide, by
    have h : extraBits .dsym 11 = 4 := by decide
    show f.toNat < 2 ^ extraBits .dsym 11
    rw [h]
    exact f.isLt⟩
theorem dist12 (f : BitVec 5) : Statement (.dist12 f) :=
  ⟨by simp only [encode, Format.wordBits]; decide, by
    have h : extraBits .dsym 12 = 5 := by decide
    show f.toNat < 2 ^ extraBits .dsym 12
    rw [h]
    exact f.isLt⟩
theorem dist13 (f : BitVec 5) : Statement (.dist13 f) :=
  ⟨by simp only [encode, Format.wordBits]; decide, by
    have h : extraBits .dsym 13 = 5 := by decide
    show f.toNat < 2 ^ extraBits .dsym 13
    rw [h]
    exact f.isLt⟩
theorem dist14 (f : BitVec 6) : Statement (.dist14 f) :=
  ⟨by simp only [encode, Format.wordBits]; decide, by
    have h : extraBits .dsym 14 = 6 := by decide
    show f.toNat < 2 ^ extraBits .dsym 14
    rw [h]
    exact f.isLt⟩
theorem dist15 (f : BitVec 6) : Statement (.dist15 f) :=
  ⟨by simp only [encode, Format.wordBits]; decide, by
    have h : extraBits .dsym 15 = 6 := by decide
    show f.toNat < 2 ^ extraBits .dsym 15
    rw [h]
    exact f.isLt⟩
theorem dist16 (f : BitVec 7) : Statement (.dist16 f) :=
  ⟨by simp only [encode, Format.wordBits]; decide, by
    have h : extraBits .dsym 16 = 7 := by decide
    show f.toNat < 2 ^ extraBits .dsym 16
    rw [h]
    exact f.isLt⟩
theorem dist17 (f : BitVec 7) : Statement (.dist17 f) :=
  ⟨by simp only [encode, Format.wordBits]; decide, by
    have h : extraBits .dsym 17 = 7 := by decide
    show f.toNat < 2 ^ extraBits .dsym 17
    rw [h]
    exact f.isLt⟩
theorem dist18 (f : BitVec 8) : Statement (.dist18 f) :=
  ⟨by simp only [encode, Format.wordBits]; decide, by
    have h : extraBits .dsym 18 = 8 := by decide
    show f.toNat < 2 ^ extraBits .dsym 18
    rw [h]
    exact f.isLt⟩
theorem dist19 (f : BitVec 8) : Statement (.dist19 f) :=
  ⟨by simp only [encode, Format.wordBits]; decide, by
    have h : extraBits .dsym 19 = 8 := by decide
    show f.toNat < 2 ^ extraBits .dsym 19
    rw [h]
    exact f.isLt⟩
theorem dist20 (f : BitVec 9) : Statement (.dist20 f) :=
  ⟨by simp only [encode, Format.wordBits]; decide, by
    have h : extraBits .dsym 20 = 9 := by decide
    show f.toNat < 2 ^ extraBits .dsym 20
    rw [h]
    exact f.isLt⟩
theorem dist21 (f : BitVec 9) : Statement (.dist21 f) :=
  ⟨by simp only [encode, Format.wordBits]; decide, by
    have h : extraBits .dsym 21 = 9 := by decide
    show f.toNat < 2 ^ extraBits .dsym 21
    rw [h]
    exact f.isLt⟩
theorem dist22 (f : BitVec 10) : Statement (.dist22 f) :=
  ⟨by simp only [encode, Format.wordBits]; decide, by
    have h : extraBits .dsym 22 = 10 := by decide
    show f.toNat < 2 ^ extraBits .dsym 22
    rw [h]
    exact f.isLt⟩
theorem dist23 (f : BitVec 10) : Statement (.dist23 f) :=
  ⟨by simp only [encode, Format.wordBits]; decide, by
    have h : extraBits .dsym 23 = 10 := by decide
    show f.toNat < 2 ^ extraBits .dsym 23
    rw [h]
    exact f.isLt⟩
theorem dist24 (f : BitVec 11) : Statement (.dist24 f) :=
  ⟨by simp only [encode, Format.wordBits]; decide, by
    have h : extraBits .dsym 24 = 11 := by decide
    show f.toNat < 2 ^ extraBits .dsym 24
    rw [h]
    exact f.isLt⟩
theorem dist25 (f : BitVec 11) : Statement (.dist25 f) :=
  ⟨by simp only [encode, Format.wordBits]; decide, by
    have h : extraBits .dsym 25 = 11 := by decide
    show f.toNat < 2 ^ extraBits .dsym 25
    rw [h]
    exact f.isLt⟩
theorem dist26 (f : BitVec 12) : Statement (.dist26 f) :=
  ⟨by simp only [encode, Format.wordBits]; decide, by
    have h : extraBits .dsym 26 = 12 := by decide
    show f.toNat < 2 ^ extraBits .dsym 26
    rw [h]
    exact f.isLt⟩
theorem dist27 (f : BitVec 12) : Statement (.dist27 f) :=
  ⟨by simp only [encode, Format.wordBits]; decide, by
    have h : extraBits .dsym 27 = 12 := by decide
    show f.toNat < 2 ^ extraBits .dsym 27
    rw [h]
    exact f.isLt⟩
theorem dist28 (f : BitVec 13) : Statement (.dist28 f) :=
  ⟨by simp only [encode, Format.wordBits]; decide, by
    have h : extraBits .dsym 28 = 13 := by decide
    show f.toNat < 2 ^ extraBits .dsym 28
    rw [h]
    exact f.isLt⟩
theorem dist29 (f : BitVec 13) : Statement (.dist29 f) :=
  ⟨by simp only [encode, Format.wordBits]; decide, by
    have h : extraBits .dsym 29 = 13 := by decide
    show f.toNat < 2 ^ extraBits .dsym 29
    rw [h]
    exact f.isLt⟩
theorem dRsvd (hi : BitVec 1) : Statement (.dRsvd hi) :=
  by have : hi = 0 ∨ hi = 1 := by decide +revert
     rcases this with rfl | rfl <;> exact ⟨by decide, by decide⟩
theorem rowNone : Statement .rowNone := ⟨by decide, by decide⟩
theorem rowSub : Statement .rowSub := ⟨by decide, by decide⟩
theorem rowUp : Statement .rowUp := ⟨by decide, by decide⟩
theorem rowAvg : Statement .rowAvg := ⟨by decide, by decide⟩
theorem rowPaeth : Statement .rowPaeth := ⟨by decide, by decide⟩
theorem rowInvalid (ft : Byte) : Statement (.rowInvalid ft) :=
  ⟨ft.isLt, Nat.zero_lt_one⟩
theorem row0None : Statement .row0None := ⟨by decide, by decide⟩
theorem row0Sub : Statement .row0Sub := ⟨by decide, by decide⟩
theorem row0Up : Statement .row0Up := ⟨by decide, by decide⟩
theorem row0Avg : Statement .row0Avg := ⟨by decide, by decide⟩
theorem row0Paeth : Statement .row0Paeth := ⟨by decide, by decide⟩
theorem row0Invalid (ft : Byte) : Statement (.row0Invalid ft) :=
  ⟨ft.isLt, Nat.zero_lt_one⟩

end Sys2Proof.Laws.EncodingFits
end

