-- ==== Sys2Proof/Laws/Reader.lean ====
section
/-! SUPPORT. The bit reader: each register move keeps INV-ACC, and what `acc` holds is the stream. -/

namespace Sys2Proof.Machine

theorem streamBit_congr {s t : State} (hm : t.mem.inn = s.mem.inn) (he : t.epoch = s.epoch) (k : Nat) :
    t.streamBit k = s.streamBit k := by
  simp only [State.streamBit, State.read_inn_congr hm he]

theorem streamField_congr {s t : State} (hm : t.mem.inn = s.mem.inn) (he : t.epoch = s.epoch) (p n : Nat) :
    t.streamField p n = s.streamField p n := by
  induction n generalizing p with
  | zero => rfl
  | succ n ih => simp only [State.streamField, streamBit_congr hm he, ih]

theorem bitpos_loadByte (s : State) : (loadByte s).bitpos = s.bitpos := by
  simp only [State.bitpos, loadByte_ipos, loadByte_cnt]
  omega

/-- One byte moved into `acc` keeps INV-ACC (R131, R132). -/
theorem loadByte_ok {s : State} (h : s.BitReaderOk) (hc : s.inf.cnt ≤ 24) (hi : s.inf.ipos < s.inf.inLen.toNat) :
    (loadByte s).BitReaderOk := by
  have hacc := h.acc_lt
  have hcnt := h.cnt_le_bits
  refine ⟨by simp; omega, ?_, by simp; omega, by simp; omega, ?_⟩
  · simp only [loadByte]
    rw [BitVec.toNat_or, BitVec.toNat_shiftLeft]
    refine Nat.or_lt_two_pow (lt_of_lt_of_le hacc (Nat.pow_le_pow_right (by omega) (by omega))) ?_
    refine lt_of_le_of_lt (Nat.mod_le _ _) ?_
    rw [BitVec.toNat_setWidth, Nat.shiftLeft_eq, Nat.pow_add, Nat.mul_comm]
    refine Nat.mul_lt_mul_of_pos_left ?_ (by positivity)
    exact lt_of_le_of_lt (Nat.mod_le _ _) (BitVec.isLt _)
  · intro i hlt
    rw [bitpos_loadByte, streamBit_congr (s := s) (t := loadByte s) rfl rfl]
    simp only [loadByte_cnt] at hlt
    simp only [loadByte]
    rw [BitVec.getLsbD_or, BitVec.getLsbD_shiftLeft, BitVec.getLsbD_setWidth]
    by_cases hic : i < s.inf.cnt
    · rw [h.acc_bits i hic]
      simp [hic]
    · have hz : s.inf.acc.getLsbD i = false := by
        apply Nat.testBit_lt_two_pow
        exact lt_of_lt_of_le hacc (Nat.pow_le_pow_right (by omega) (by omega))
      rw [hz]
      have hp : s.bitpos + i = 8 * s.inf.ipos + (i - s.inf.cnt) := by
        simp only [State.bitpos]
        omega
      rw [State.streamBit, hp]
      have h1 : (8 * s.inf.ipos + (i - s.inf.cnt)) / 8 = s.inf.ipos := by omega
      have h2 : (8 * s.inf.ipos + (i - s.inf.cnt)) % 8 = i - s.inf.cnt := by omega
      rw [h1, h2]
      have h3 : i < 32 := by omega
      have h4 : i - s.inf.cnt < 32 := by omega
      simp [hic, h3, h4]

theorem bitpos_dropBits {s : State} (h : s.BitReaderOk) {n : Nat} (hn : n ≤ s.inf.cnt) :
    (dropBits n s).bitpos = s.bitpos + n := by
  have := h.cnt_le_bits
  simp only [State.bitpos, dropBits_ipos, dropBits_cnt]
  omega

/-- Dropping bits keeps INV-ACC (R132). -/
theorem dropBits_ok {s : State} (h : s.BitReaderOk) {n : Nat} (hn : n ≤ s.inf.cnt) : (dropBits n s).BitReaderOk := by
  have hb := h.cnt_le_bits
  have hc := h.cnt_le
  refine ⟨by simp; omega, ?_, h.ipos_le, by simp; omega, ?_⟩
  · simp only [dropBits]
    rw [BitVec.toNat_ushiftRight, Nat.shiftRight_eq_div_pow]
    refine Nat.div_lt_of_lt_mul ?_
    rw [← Nat.pow_add]
    have : n + (s.inf.cnt - n) = s.inf.cnt := by omega
    rw [this]
    exact h.acc_lt
  · intro i hi
    simp only [dropBits_cnt] at hi
    rw [bitpos_dropBits h hn, streamBit_congr (s := s) (t := dropBits n s) rfl rfl]
    simp only [dropBits]
    rw [BitVec.getLsbD_ushiftRight, h.acc_bits (n + i) (by omega), Nat.add_assoc]

/-- `fuel` bytes at most: INV-ACC, the stream position and everything but the three registers stay; the reader ends full or at
the end of IN unless the fuel ran out. -/
theorem refillLoop_spec (fuel : Nat) {s : State} (h : s.BitReaderOk) :
    ReaderMoved 0 s (refillLoop fuel s) ∧
      (25 ≤ (refillLoop fuel s).inf.cnt ∨ (refillLoop fuel s).inf.ipos = s.inf.inLen.toNat ∨
        s.inf.cnt + 8 * fuel ≤ (refillLoop fuel s).inf.cnt) ∧
      (refillLoop fuel s).inf.ipos ≤ s.inf.ipos + fuel ∧ s.inf.cnt ≤ (refillLoop fuel s).inf.cnt := by
  induction fuel generalizing s with
  | zero => exact ⟨⟨rfl, h, rfl⟩, .inr (.inr le_rfl), le_rfl, le_rfl⟩
  | succ fuel ih =>
    simp only [refillLoop]
    by_cases hg : s.inf.cnt ≤ 24 ∧ s.inf.ipos < s.inf.inLen.toNat
    · rw [if_pos hg]
      obtain ⟨⟨e, ok, p⟩, hfull, hipos, hcnt⟩ := ih (loadByte_ok h hg.1 hg.2)
      simp only [loadByte_cnt, loadByte_ipos, loadByte_inLen] at hfull hipos hcnt
      refine ⟨⟨?_, ok, by rw [p, bitpos_loadByte]⟩, ?_, by omega, by omega⟩
      · rw [e]; rfl
      · rcases hfull with h1 | h1 | h1
        · exact .inl h1
        · exact .inr (.inl h1)
        · exact .inr (.inr (by omega))
    · rw [if_neg hg]
      have := h.ipos_le
      refine ⟨⟨rfl, h, rfl⟩, ?_, by omega, le_rfl⟩
      by_cases hc : s.inf.cnt ≤ 24
      · exact .inr (.inl (by have : ¬ s.inf.ipos < s.inf.inLen.toNat := fun hlt => hg ⟨hc, hlt⟩
                             omega))
      · exact .inl (by omega)

theorem streamField_lt (s : State) (p n : Nat) : s.streamField p n < 2 ^ n := by
  induction n generalizing p with
  | zero => simp [State.streamField]
  | succ n ih =>
    have := ih (p + 1)
    have hb : bit (s.streamBit p) ≤ 1 := by unfold bit; split <;> omega
    simp only [State.streamField, Nat.pow_succ]
    omega

theorem streamField_testBit (s : State) (p n i : Nat) :
    (s.streamField p n).testBit i = (decide (i < n) && s.streamBit (p + i)) := by
  induction n generalizing p i with
  | zero => simp [State.streamField]
  | succ n ih =>
    rw [State.streamField]
    cases i with
    | zero =>
      rw [Nat.testBit_zero]
      cases s.streamBit p <;> simp [bit]
    | succ i =>
      rw [Nat.testBit_succ]
      have : (bit (s.streamBit p) + 2 * s.streamField (p + 1) n) / 2 = s.streamField (p + 1) n := by
        have : bit (s.streamBit p) ≤ 1 := by unfold bit; split <;> omega
        omega
      rw [this, ih]
      have e : p + 1 + i = p + (i + 1) := by omega
      simp [e]

/-- The low bits of `acc` are the field at the stream position (R67, R132). -/
theorem acc_field {s : State} (h : s.BitReaderOk) {n : Nat} (hn : n ≤ s.inf.cnt) :
    s.inf.acc.toNat % 2 ^ n = s.streamField s.bitpos n := by
  apply Nat.eq_of_testBit_eq
  intro i
  rw [Nat.testBit_mod_two_pow, streamField_testBit]
  by_cases hi : i < n
  · simp only [hi, decide_true, Bool.true_and]
    exact h.acc_bits i (by omega)
  · simp [hi]

end Sys2Proof.Machine
end

