-- ==== Sys2Proof/Laws/Rows.lean ====
section
/-! SUPPORT. The byte loops of SLR: `reconRow` (R303), `writePixel` and `writePixels` (R343), `swapRows` and `flipRows` (R347). -/

namespace Sys2Proof.Machine

/-- Only memory differs. -/
def OnlyMemory (s t : State) : Prop := SameBesidesSlr s t ∧ t.slr = s.slr

theorem OnlyMemory.refl (s : State) : OnlyMemory s s := ⟨⟨rfl, rfl, rfl, rfl, rfl, rfl, rfl, rfl, rfl⟩, rfl⟩

theorem OnlyMemory.trans {s t u : State} (h : OnlyMemory s t) (k : OnlyMemory t u) : OnlyMemory s u := by
  obtain ⟨⟨h1, h2, h3, h4, h5, h6, h7, h8, h9⟩, h⟩ := h
  obtain ⟨⟨k1, k2, k3, k4, k5, k6, k7, k8, k9⟩, k⟩ := k
  exact ⟨⟨k1.trans h1, k2.trans h2, k3.trans h3, k4.trans h4, k5.trans h5, k6.trans h6, k7.trans h7, k8.trans h8,
    k9.trans h9⟩, k.trans h⟩

theorem write_onlyMemory (s : State) (sp : Space) (a : Nat) (v : Byte) : OnlyMemory s (s.write sp a v) := by
  simp [OnlyMemory, SameBesidesSlr]

theorem curRow_ne_out (r : Nat) : curRow r ≠ .out := by unfold curRow; split <;> decide
theorem curRow_ne_img (r : Nat) : curRow r ≠ .img := by unfold curRow; split <;> decide
theorem curRow_ne_inn (r : Nat) : curRow r ≠ .inn := by unfold curRow; split <;> decide
theorem prevRow_ne_curRow (r : Nat) : prevRow r ≠ curRow r := by unfold curRow prevRow; split <;> decide
theorem prevRow_ne_img (r : Nat) : prevRow r ≠ .img := by unfold prevRow; split <;> decide

/-- All that the row loop does from byte `x` on: `n` bytes of the current row buffer, each reconstructed from its neighbours, of
which the left one is a byte of the same row; nothing else changes. -/
theorem reconRow_spec (eff : Filter) (n x : Nat) {s : State} (hc : 1 ≤ s.slr.rawCh.toNat) :
    OnlyMemory s (reconRow eff n x s) ∧
      SameOutside (curRow s.slr.row) x n s (reconRow eff n x s) ∧
      ∀ y, x ≤ y → y < x + n →
        (reconRow eff n x s).read (curRow s.slr.row) y =
          unfilterByte (s.read .out (s.rowBase + 1 + y))
            (predict eff ((reconRow eff n x s).leftOf y) (s.aboveOf y) (s.upperLeftOf y)) := by
  induction n generalizing x s with
  | zero => exact ⟨.refl s, fun _ _ _ => rfl, fun y h1 h2 => absurd h2 (by omega)⟩
  | succ n ih =>
    rw [reconRow]
    generalize hv : reconValue eff x s = v
    have hw := write_onlyMemory s (curRow s.slr.row) x v
    generalize hp : s.write (curRow s.slr.row) x v = p at hw
    have hps : p.slr = s.slr := hw.2
    have hpr : ∀ sp a, p.read sp a = if sp = curRow s.slr.row ∧ a = x then v else s.read sp a := by
      intro sp a; rw [← hp, State.read_write]
    obtain ⟨e, f, g⟩ := ih (x + 1) (s := p) (by rw [hps]; exact hc)
    rw [hps] at f g
    generalize reconRow eff n (x + 1) p = u at e f g ⊢
    have hus : u.slr = s.slr := (hw.trans e).2
    have habove : ∀ y, p.aboveOf y = s.aboveOf y := by
      intro y
      simp only [State.aboveOf, hps, hpr, prevRow_ne_curRow, false_and, if_false]
    have hupper : ∀ y, p.upperLeftOf y = s.upperLeftOf y := by
      intro y
      simp only [State.upperLeftOf, hps, hpr, prevRow_ne_curRow, false_and, if_false]
    have hout : ∀ a, p.read .out a = s.read .out a := by
      intro a
      rw [hpr, if_neg (fun h => curRow_ne_out _ h.1.symm)]
    have hbase : p.rowBase = s.rowBase := by simp only [State.rowBase, State.stride, hps]
    refine ⟨hw.trans e, ?_, ?_⟩
    · intro sp a ha
      rw [f sp a (fun h => ha ⟨h.1, by omega, by omega⟩), hpr, if_neg]
      rintro ⟨rfl, rfl⟩
      exact ha ⟨rfl, le_rfl, by omega⟩
    · intro y h1 h2
      rcases Nat.eq_or_lt_of_le h1 with rfl | h1
      · have hx : u.read (curRow s.slr.row) x = v := by
          rw [f _ x (by rintro ⟨-, h, -⟩; omega), hpr, if_pos ⟨rfl, rfl⟩]
        have hl : u.leftOf x = s.leftOf x := by
          simp only [State.leftOf, hus]
          split
          · rw [f _ _ (by rintro ⟨-, h, -⟩; omega), hpr, if_neg (by rintro ⟨-, h⟩; omega)]
          · rfl
        rw [hx, ← hv, hl]
        rfl
      · rw [g y h1 (by omega), hbase, hout, habove, hupper]

/-- All that the channel loop does: `n` channels of a pixel from channel `k` on. -/
theorem writePixel_spec (px n k : Nat) (s : State) :
    OnlyMemory s (writePixel px n k s) ∧
      SameOutside .img ((s.slr.row * s.slr.width.toNat + px) * s.slr.outCh.toNat + k) n s (writePixel px n k s) ∧
      ∀ j, k ≤ j → j < k + n →
        (writePixel px n k s).read .img ((s.slr.row * s.slr.width.toNat + px) * s.slr.outCh.toNat + j) = mux px j s := by
  induction n generalizing k s with
  | zero => exact ⟨.refl s, fun _ _ _ => rfl, fun y h1 h2 => absurd h2 (by omega)⟩
  | succ n ih =>
    rw [writePixel]
    generalize hb : (s.slr.row * s.slr.width.toNat + px) * s.slr.outCh.toNat = b
    have hw := write_onlyMemory s .img (b + k) (mux px k s)
    generalize hp : s.write .img (b + k) (mux px k s) = p at hw
    have hps : p.slr = s.slr := hw.2
    have hpr : ∀ sp a, p.read sp a = if sp = .img ∧ a = b + k then mux px k s else s.read sp a := by
      intro sp a; rw [← hp, State.read_write]
    have hmux : ∀ j, mux px j p = mux px j s := by
      intro j
      simp only [mux, hps, hpr, curRow_ne_img, false_and, if_false]
    obtain ⟨e, f, g⟩ := ih (k + 1) p
    rw [hps, hb] at f g
    generalize writePixel px n (k + 1) p = u at e f g ⊢
    refine ⟨hw.trans e, ?_, ?_⟩
    · intro sp a ha
      rw [f sp a (fun h => ha ⟨h.1, by omega, by omega⟩), hpr, if_neg]
      rintro ⟨rfl, rfl⟩
      exact ha ⟨rfl, le_rfl, by omega⟩
    · intro j h1 h2
      rcases Nat.eq_or_lt_of_le h1 with rfl | h1
      · rw [f _ _ (by rintro ⟨-, h, -⟩; omega), hpr, if_pos ⟨rfl, rfl⟩]
      · rw [g j h1 (by omega), hmux]

/-- All that the pixel loop does: `n` pixels of row `row` of IMG from pixel `px` on. -/
theorem writePixels_spec (n px : Nat) (s : State) :
    OnlyMemory s (writePixels n px s) ∧
      SameOutside .img ((s.slr.row * s.slr.width.toNat + px) * s.slr.outCh.toNat) (n * s.slr.outCh.toNat) s
        (writePixels n px s) ∧
      ∀ y, px ≤ y → y < px + n → ∀ j < s.slr.outCh.toNat,
        (writePixels n px s).read .img ((s.slr.row * s.slr.width.toNat + y) * s.slr.outCh.toNat + j) = mux y j s := by
  induction n generalizing px s with
  | zero => exact ⟨.refl s, fun _ _ _ => rfl, fun y h1 h2 => absurd h2 (by omega)⟩
  | succ n ih =>
    rw [writePixels]
    obtain ⟨hw, hf, hg⟩ := writePixel_spec px s.slr.outCh.toNat 0 s
    generalize writePixel px s.slr.outCh.toNat 0 s = p at hw hf hg
    have hps : p.slr = s.slr := hw.2
    have hmux : ∀ y j, mux y j p = mux y j s := by
      intro y j
      have := hf (curRow s.slr.row) (y * s.slr.rawCh.toNat + j) (fun h => curRow_ne_img _ h.1)
      simp only [mux, hps, this]
    obtain ⟨e, f, g⟩ := ih (px + 1) p
    rw [hps] at f g
    generalize writePixels n (px + 1) p = u at e f g ⊢
    generalize s.slr.outCh.toNat = o at *
    generalize s.slr.row * s.slr.width.toNat = r at *
    have h1 : (r + (px + 1)) * o = (r + px) * o + o := by ring
    have h2 : (n + 1) * o = n * o + o := by ring
    refine ⟨hw.trans e, ?_, ?_⟩
    · intro sp a ha
      rw [f sp a (fun h => ha ⟨h.1, by omega, by omega⟩), hf sp a (fun h => ha ⟨h.1, by omega, by omega⟩)]
    · intro y hy1 hy2 j hj
      rcases Nat.eq_or_lt_of_le hy1 with rfl | hy1
      · rw [f _ _ (by rintro ⟨-, h, -⟩; omega), hg j (by omega) (by omega)]
      · rw [g y hy1 (by omega) j hj, hmux]

/-- Whatever the filter and the channels, the row loop writes the current row buffer only. -/
theorem reconRow_frame (eff : Filter) (n x : Nat) (s : State) :
    OnlyMemory s (reconRow eff n x s) ∧
      ∀ sp a, sp ≠ curRow s.slr.row → (reconRow eff n x s).read sp a = s.read sp a := by
  induction n generalizing x s with
  | zero => exact ⟨.refl s, fun _ _ _ => rfl⟩
  | succ n ih =>
    rw [reconRow]
    obtain ⟨e, f⟩ := ih (x + 1) (s.write (curRow s.slr.row) x (reconValue eff x s))
    refine ⟨(write_onlyMemory s _ _ _).trans e, fun sp a h => ?_⟩
    rw [f sp a (by simpa using h), State.read_write_other _ _ (fun hh => h hh.1)]

/-- What a row step does to everything but the bytes of SLR's own spaces, whatever the filter and the channels (R303, R343). -/
theorem runRow_frame (eff : Filter) (s : State) :
    SameBesidesSlr s (runRow eff s) ∧
      (∀ a, (runRow eff s).read .inn a = s.read .inn a ∧ (runRow eff s).read .out a = s.read .out a) ∧
      (runRow eff s).slr =
        { s.slr with
          row := s.slr.row + 1
          forcedTransparency := if s.slr.outCh = s.slr.rawCh then s.slr.forcedTransparency else true
          phase :=
            if s.slr.row + 1 = s.slr.height.toNat then (if s.slr.flip then .flipping else .done) else s.slr.phase } := by
  obtain ⟨h1, f1⟩ := reconRow_frame eff s.stride 0 s
  unfold runRow writeRow
  generalize reconRow eff s.stride 0 s = u at h1 f1
  obtain ⟨h2, f2, -⟩ := writePixels_spec u.slr.width.toNat 0 u
  generalize writePixels u.slr.width.toNat 0 u = v at h2 f2
  have h := h1.trans h2
  have hv : ∀ sp a, sp ≠ .img → sp ≠ curRow s.slr.row → v.read sp a = s.read sp a := fun sp a hi hc =>
    (f2 sp a (fun hh => hi hh.1)).trans (f1 sp a hc)
  refine ⟨h.1, fun a => ⟨?_, ?_⟩, ?_⟩
  · exact (State.read_congr rfl rfl rfl _ _).trans (hv _ a (by decide) (curRow_ne_inn _).symm)
  · exact (State.read_congr rfl rfl rfl _ _).trans (hv _ a (by decide) (curRow_ne_out _).symm)
  · simp only [endRow, h.2]

theorem swapImg_onlyMemory (p q : Nat) (s : State) : OnlyMemory s (swapImg p q s) := by
  simp [swapImg, OnlyMemory, SameBesidesSlr]

theorem swapImg_read (p q : Nat) (s : State) (sp : Space) (a : Nat) :
    (swapImg p q s).read sp a =
      if sp = .img ∧ a = q then s.read .img p else if sp = .img ∧ a = p then s.read .img q else s.read sp a := by
  rw [swapImg, State.read_write, State.read_write]

/-- All that swapping `n` bytes of two rows that do not overlap does. -/
theorem swapRows_spec (p q n k : Nat) (s : State) (h : p + k + n ≤ q + k) :
    OnlyMemory s (swapRows p q n k s) ∧
      (∀ sp a, ¬(sp = .img ∧ (p + k ≤ a ∧ a < p + k + n ∨ q + k ≤ a ∧ a < q + k + n)) →
        (swapRows p q n k s).read sp a = s.read sp a) ∧
      ∀ j, k ≤ j → j < k + n →
        (swapRows p q n k s).read .img (p + j) = s.read .img (q + j) ∧
          (swapRows p q n k s).read .img (q + j) = s.read .img (p + j) := by
  induction n generalizing k s with
  | zero => exact ⟨.refl s, fun _ _ _ => rfl, fun y h1 h2 => absurd h2 (by omega)⟩
  | succ n ih =>
    rw [swapRows]
    have hw := swapImg_onlyMemory (p + k) (q + k) s
    have hr := swapImg_read (p + k) (q + k) s
    generalize swapImg (p + k) (q + k) s = w at hw hr
    obtain ⟨e, f, g⟩ := ih (k + 1) w (by omega)
    generalize swapRows p q n (k + 1) w = u at e f g ⊢
    refine ⟨hw.trans e, ?_, ?_⟩
    · intro sp a ha
      rw [f sp a (fun hh => ha ⟨hh.1, by omega⟩), hr, if_neg (fun hh => ha ⟨hh.1, by omega⟩),
        if_neg (fun hh => ha ⟨hh.1, by omega⟩)]
    · intro j h1 h2
      rcases Nat.eq_or_lt_of_le h1 with rfl | h1
      · rw [f _ _ (by omega), f _ _ (by omega), hr, hr, if_neg (by omega), if_pos ⟨rfl, rfl⟩, if_pos ⟨rfl, rfl⟩]
        exact ⟨rfl, rfl⟩
      · obtain ⟨g1, g2⟩ := g j h1 (by omega)
        rw [g1, g2, hr, hr, if_neg (by omega), if_neg (by omega), if_neg (by omega), if_neg (by omega)]
        exact ⟨rfl, rfl⟩

/-- All that swapping `n` row pairs from row `i` on does: each of those rows reads as its mirror row did. -/
theorem flipRows_spec (n i : Nat) (s : State) (h : i + n ≤ s.slr.height.toNat / 2) :
    OnlyMemory s (flipRows n i s) ∧
      (∀ sp a, ¬(sp = .img ∧ a < s.slr.height.toNat * s.imgRow) → (flipRows n i s).read sp a = s.read sp a) ∧
      ∀ y < s.slr.height.toNat, ∀ k < s.imgRow,
        (flipRows n i s).read .img (y * s.imgRow + k) =
          if i ≤ y ∧ y < i + n ∨ i ≤ s.slr.height.toNat - 1 - y ∧ s.slr.height.toNat - 1 - y < i + n then
            s.read .img ((s.slr.height.toNat - 1 - y) * s.imgRow + k)
          else s.read .img (y * s.imgRow + k) := by
  induction n generalizing i s with
  | zero =>
    refine ⟨.refl s, fun _ _ _ => rfl, fun y _ k _ => ?_⟩
    rw [if_neg (by omega)]
    rfl
  | succ n ih =>
    rw [flipRows]
    have hlt : i < s.slr.height.toNat - 1 - i := by omega
    have hpq : i * s.imgRow + 0 + s.imgRow ≤ (s.slr.height.toNat - 1 - i) * s.imgRow + 0 := by
      have : (i + 1) * s.imgRow ≤ (s.slr.height.toNat - 1 - i) * s.imgRow := Nat.mul_le_mul_right _ hlt
      rw [Nat.add_mul] at this
      omega
    obtain ⟨hw, hf, hg⟩ := swapRows_spec _ _ s.imgRow 0 s hpq
    generalize swapRows (i * s.imgRow) ((s.slr.height.toNat - 1 - i) * s.imgRow) s.imgRow 0 s = w at hw hf hg
    have hws : w.slr = s.slr := hw.2
    have hrow : w.imgRow = s.imgRow := by simp only [State.imgRow, hws]
    obtain ⟨e, f, g⟩ := ih (i + 1) w (by rw [hws]; omega)
    rw [hws, hrow] at f g
    generalize flipRows n (i + 1) w = u at e f g ⊢
    generalize s.slr.height.toNat = H at *
    generalize hR : s.imgRow = R at *
    have hrows : ∀ y z k, y < z → k < R → y * R + k < z * R := by
      intro y z k hyz hk
      have : (y + 1) * R ≤ z * R := Nat.mul_le_mul_right _ hyz
      rw [Nat.add_mul] at this
      omega
    have hother : ∀ y k, y ≠ i → y ≠ H - 1 - i → k < R → w.read .img (y * R + k) = s.read .img (y * R + k) := by
      intro y k h1 h2 hk
      apply hf
      rintro ⟨-, hh | hh⟩
      · rcases Nat.lt_or_gt_of_ne h1 with hlt1 | hgt1
        · have := hrows y i k hlt1 hk; omega
        · have := hrows i y 0 hgt1 (by omega)
          have h3 : (i + 1) * R ≤ y * R := Nat.mul_le_mul_right _ hgt1
          rw [Nat.add_mul] at h3; omega
      · rcases Nat.lt_or_gt_of_ne h2 with hlt1 | hgt1
        · have := hrows y (H - 1 - i) k hlt1 hk; omega
        · have h3 : (H - 1 - i + 1) * R ≤ y * R := Nat.mul_le_mul_right _ hgt1
          rw [Nat.add_mul] at h3; omega
    refine ⟨hw.trans e, ?_, ?_⟩
    · intro sp a ha
      rw [f sp a ha, hf sp a]
      rintro ⟨h1, h2⟩
      apply ha
      refine ⟨h1, ?_⟩
      have h3 : (H - 1 - i + 1) * R ≤ H * R := Nat.mul_le_mul_right _ (by omega)
      rw [Nat.add_mul] at h3
      omega
    · intro y hy k hk
      rw [g y hy k hk]
      by_cases h1 : y = i
      · subst h1
        rw [if_neg (by omega), if_pos (by omega)]
        have := (hg k (by omega) (by omega)).1
        simpa using this
      · by_cases h2 : y = H - 1 - i
        · have h3 : H - 1 - y = i := by omega
          rw [if_neg (by omega), if_pos (by omega), h3]
          have := (hg k (by omega) (by omega)).2
          rw [h2]
          simpa using this
        · rw [hother y k h1 h2 hk, hother (H - 1 - y) k (by omega) (by omega) hk]
          by_cases h4 : i + 1 ≤ y ∧ y < i + 1 + n ∨ i + 1 ≤ H - 1 - y ∧ H - 1 - y < i + 1 + n
          · rw [if_pos h4, if_pos (by omega)]
          · rw [if_neg h4, if_neg (by omega)]

end Sys2Proof.Machine
end

