-- ==== Sys2Proof/Laws/Step.lean ====
section
/-! SUPPORT. Everything a step can do, said once: the moves of the host, the step of a unit, the table rows of an element. -/

namespace Sys2Proof.Machine

/-- All that a step of the whole machine can do: a step of the units with some queue left, a register write, a memory write
while both units are idle, nothing, a reset. -/
theorem machineStep_cases {s t : State} (h : machineStep s = .next t) :
    ∃ q, unitStep { s with hostQueue := q } = .next t ∨
      (∃ reg v, t = hostWrite reg v { s with hostQueue := q }) ∨
      (∃ sp a v, s.infBusy = false ∧ s.slrBusy = false ∧ a < s.capacity sp ∧
        t = ({ s with hostQueue := q } : State).write sp a v) ∨
      t = { s with hostQueue := q } ∨ t = resetMachine { s with hostQueue := q } := by
  unfold machineStep at h
  split at h
  · rename_i hq
    refine ⟨[], .inl ?_⟩
    rw [← hq]
    exact h
  · rename_i op rest hq
    unfold hostMove at h
    split at h
    · rename_i reg v
      exact ⟨rest, .inr (.inl ⟨reg, v, by cases h; rfl⟩)⟩
    · rename_i sp a v
      unfold hostWriteByte at h
      split at h
      · cases h
      · rename_i hb
        split at h
        · rename_i ha
          simp only [Bool.or_eq_true, not_or, Bool.not_eq_true] at hb
          exact ⟨rest, .inr (.inr (.inl ⟨sp, a, v, hb.1, hb.2, ha, by cases h; rfl⟩))⟩
        · cases h
    · split at h
      · exact ⟨_, .inl h⟩
      · exact ⟨rest, .inr (.inr (.inr (.inl (by cases h; rfl))))⟩
    · exact ⟨rest, .inr (.inr (.inr (.inl (by cases h; rfl))))⟩
    · split at h
      · exact ⟨_, .inl h⟩
      · exact ⟨rest, .inr (.inr (.inr (.inl (by cases h; rfl))))⟩
    · exact ⟨rest, .inr (.inr (.inr (.inr (by cases h; rfl))))⟩

/-- All that a turn of INF can do. -/
theorem infTurn_cases {s t : State} (h : infTurn s = .next t) : s.lengthsFit = true ∧ infStep s = .next t := by
  unfold infTurn at h
  split at h
  · rename_i hl
    exact ⟨hl, h⟩
  · cases h

/-- All that a step of the units can do: INF or SLR takes a step, from the state itself or, with both busy, from the one with a
free value drawn; or nothing is busy. -/
theorem unitStep_cases {s t : State} (h : unitStep s = .next t) :
    ∃ u, (u = s ∨ s.infBusy = true ∧ s.slrBusy = true ∧ u = { s with draws := s.draws + 1 }) ∧
      ((s.infBusy = true ∧ u.lengthsFit = true ∧ infStep u = .next t) ∨ (s.slrBusy = true ∧ slrStep u = .next t) ∨
        (s.infBusy = false ∧ s.slrBusy = false ∧ t = u)) := by
  unfold unitStep at h
  split at h
  · rename_i hi
    split at h
    · rename_i hs
      refine ⟨_, .inr ⟨hi, hs, rfl⟩, ?_⟩
      unfold contendedStep at h
      split at h
      · exact .inl ⟨hi, infTurn_cases h⟩
      · exact .inr (.inl ⟨hs, h⟩)
    · exact ⟨s, .inl rfl, .inl ⟨hi, infTurn_cases h⟩⟩
  · rename_i hi
    split at h
    · rename_i hs
      exact ⟨s, .inl rfl, .inr (.inl ⟨hs, h⟩)⟩
    · rename_i hs
      exact ⟨s, .inl rfl, .inr (.inr ⟨by simpa using hi, by simpa using hs, by cases h; rfl⟩)⟩

/-- All that one table row of INF can do: enter a fault, or fetch an instruction and execute it. -/
theorem infRow_cases {s t : State} (h : infRow s = .next t) :
    (∃ f, t = infFault f s) ∨
      ∃ w x u i, fetchWord s.infFormat s = .ok ((w, x), u) ∧ decode s.infFormat w x = .ok i ∧ exec i u = .next t := by
  unfold infRow fetchInf at h
  split at h
  · rename_i f _
    exact .inl ⟨f, by simpa [runFetched] using h.symm⟩
  · rename_i w x u hf
    split at h
    · rename_i i hd
      exact .inr ⟨w, x, u, i, hf, hd, h⟩
    · unfold badWord at h
      generalize s.infFormat = f at h
      cases f <;> simp only [runFetched, reduceCtorEq] at h
      · exact .inl ⟨_, by simpa using h.symm⟩
      · exact .inl ⟨_, by simpa using h.symm⟩

/-- What holds of the state an element's first row leaves and is kept by every further row holds at the element's end. -/
theorem finishElement_induct {P : State → Prop}
    (step : ∀ {s t : State}, P s → s.inf.sub ≠ .boundary → infRow s = .next t → P t) (fuel : Nat)
    {o : Host.Outcome State Fault Refusal} {t : State} (ho : ∀ s, o = .next s → P s) (h : finishElement fuel o = .next t) :
    P t := by
  induction fuel generalizing o with
  | zero => exact ho t h
  | succ fuel ih =>
    cases o with
    | fault r => simp [finishElement] at h
    | refused r => simp [finishElement] at h
    | next s =>
      have hs := ho s rfl
      unfold finishElement at h
      split at h
      · cases h; exact hs
      · rename_i hb
        exact ih (fun u hu => step hs hb hu) h

/-- The same from the state before the element. -/
theorem infStep_induct {P : State → Prop}
    (step : ∀ {s t : State}, P s → s.inf.sub ≠ .boundary → infRow s = .next t → P t) {s t : State}
    (first : ∀ u, infRow s = .next u → P u) (h : infStep s = .next t) : P t :=
  finishElement_induct step 320 first h

/-- All that a step of SLR in its row phase or its flip phase can do. -/
theorem slrStep_cases {s t : State} (hb : s.slrBusy = true) (h : slrStep s = .next t) :
    (s.disturbed = true ∧ t = disturbedStep s) ∨ (s.slr.phase = .flipping ∧ t = flipStep s) ∨
      (s.slr.phase = .rows ∧ ((∃ eff, t = runRow eff s) ∨ t = slrFault .invalidFilter s)) := by
  unfold slrStep at h
  unfold State.slrBusy at hb
  split at h
  · rename_i hd
    exact .inl ⟨hd, by cases h; rfl⟩
  right
  split at h
  · rename_i hp
    exact .inl ⟨hp, by cases h; rfl⟩
  · rename_i hp
    refine .inr ⟨hp, ?_⟩
    unfold fetchSlr State.slrFormat at h
    generalize (s.read .out s.rowBase).toNat = w at h
    split_ifs at h
    · unfold decode decodeRow decodeFilt0 at h
      split at h
      · rename_i i hi
        split at hi
        · rename_i j hj
          simp only [Except.ok.injEq] at hi
          subst hi
          simp only at hj
          split at hj
          all_goals first
            | (simp only [Option.some.injEq] at hj; subst hj
               simp only [runFetched, exec, execRow0None, execRow0Sub, execRow0Up, execRow0Avg, execRow0Paeth,
                 Host.Outcome.next.injEq] at h
               exact .inl ⟨_, h.symm⟩)
            | (split at hj
               · simp only [Option.some.injEq] at hj; subst hj
                 simp only [runFetched, exec, execRow0Invalid, Host.Outcome.next.injEq] at h
                 exact .inr h.symm
               · cases hj)
        · cases hi
      · simp [badWord, runFetched] at h
    · unfold decode decodeRow decodeFilt at h
      split at h
      · rename_i i hi
        split at hi
        · rename_i j hj
          simp only [Except.ok.injEq] at hi
          subst hi
          simp only at hj
          split at hj
          all_goals first
            | (simp only [Option.some.injEq] at hj; subst hj
               simp only [runFetched, exec, execRowNone, execRowSub, execRowUp, execRowAvg, execRowPaeth,
                 Host.Outcome.next.injEq] at h
               exact .inl ⟨_, h.symm⟩)
            | (split at hj
               · simp only [Option.some.injEq] at hj; subst hj
                 simp only [runFetched, exec, execRowInvalid, Host.Outcome.next.injEq] at h
                 exact .inr h.symm
               · cases hj)
        · cases hi
      · simp [badWord, runFetched] at h
  · rename_i hp; simp [hp] at hb
  · rename_i hp; simp [hp] at hb
  · rename_i hp; simp [hp] at hb

/-- Only the registers of the bit reader differ. -/
def OnlyReader (s t : State) : Prop :=
  t = { s with inf := { s.inf with acc := t.inf.acc, cnt := t.inf.cnt, ipos := t.inf.ipos } }

theorem OnlyReader.refl (s : State) : OnlyReader s s := rfl

theorem OnlyReader.trans {s t u : State} (h : OnlyReader s t) (k : OnlyReader t u) : OnlyReader s u := by
  unfold OnlyReader at *
  rw [k, h]

theorem dropBits_onlyReader (n : Nat) (s : State) : OnlyReader s (dropBits n s) := rfl

theorem refillLoop_onlyReader (n : Nat) (s : State) : OnlyReader s (refillLoop n s) := by
  induction n generalizing s with
  | zero => rfl
  | succ n ih =>
    unfold refillLoop
    split
    · exact OnlyReader.trans (t := loadByte s) rfl (ih _)
    · rfl

theorem consume_onlyReader {n v : Nat} {s t : State} (h : consume n s = .ok (v, t)) : OnlyReader s t := by
  unfold consume at h
  split at h
  · cases h; rfl
  · have hr : OnlyReader s (if s.inf.cnt < 16 ∨ s.inf.cnt < n then refill s else s) := by
      split
      · exact refillLoop_onlyReader 4 s
      · rfl
    dsimp only at h
    generalize (if s.inf.cnt < 16 ∨ s.inf.cnt < n then refill s else s) = u at h hr
    split at h
    · cases h
    · cases h
      exact hr.trans (dropBits_onlyReader _ _)

theorem decodeSym_onlyReader {T : HuffTable} {v : Nat} {s t : State} (h : decodeSym T s = .ok (v, t)) : OnlyReader s t := by
  have hf : OnlyReader s (fillToThreshold s) := by
    unfold fillToThreshold
    split
    · exact refillLoop_onlyReader 4 s
    · rfl
  unfold decodeSym at h
  dsimp only at h
  split at h
  · cases h
  · split at h
    · cases h
    · cases h
      exact hf.trans (dropBits_onlyReader _ _)

theorem nextByte_onlyReader {f : FaultCode} {v : Byte} {s t : State} (h : nextByte f s = .ok (v, t)) : OnlyReader s t := by
  unfold nextByte at h
  split_ifs at h
  · cases h; rfl
  · cases h; rfl

theorem consumeTwo_onlyReader {n m : Nat} {v : Nat × Nat} {s t : State} (h : consumeTwo n m s = .ok (v, t)) :
    OnlyReader s t := by
  unfold consumeTwo at h
  split at h
  · cases h
  · rename_i h1
    split at h
    · cases h
    · rename_i h2
      cases h
      exact (consume_onlyReader h1).trans (consume_onlyReader h2)

theorem nextPair_onlyReader {v : Nat} {s t : State} (h : nextPair s = .ok (v, t)) : OnlyReader s t := by
  unfold nextPair at h
  split at h
  · cases h
  · rename_i h1
    split at h
    · cases h
    · rename_i h2
      cases h
      exact (nextByte_onlyReader h1).trans (nextByte_onlyReader h2)

theorem fetchSym_onlyReader {f : Format} {T : HuffTable} {v : Nat × Nat} {s t : State} (h : fetchSym f T s = .ok (v, t)) :
    OnlyReader s t := by
  unfold fetchSym at h
  split at h
  · cases h
  · rename_i h1
    split at h
    · cases h
    · rename_i h2
      cases h
      exact (decodeSym_onlyReader h1).trans (consume_onlyReader h2)

theorem consumeTwoWord_onlyReader {n m : Nat} {g : Nat → Nat → Nat × Nat} {v : Nat × Nat} {s t : State}
    (h : (match consumeTwo n m s with
      | .error e => .error e
      | .ok ((a, b), u) => .ok (g a b, u) : Read (Nat × Nat)) = .ok (v, t)) : OnlyReader s t := by
  split at h
  · cases h
  · rename_i h1
    cases h
    exact consumeTwo_onlyReader h1

/-- A fetch moves nothing but the bit reader. -/
theorem fetchWord_onlyReader {f : Format} {v : Nat × Nat} {s t : State} (h : fetchWord f s = .ok (v, t)) : OnlyReader s t := by
  cases f <;> simp only [fetchWord] at h
  case zhdr => exact consumeTwoWord_onlyReader (g := fun a b => (a + 256 * b, 0)) h
  case bhdr => exact consumeTwoWord_onlyReader (g := fun a b => (a + 2 * b, 0)) h
  case filt => exact consumeTwoWord_onlyReader (g := fun a b => (a + 2 * b, 0)) h
  case filt0 => exact consumeTwoWord_onlyReader (g := fun a b => (a + 2 * b, 0)) h
  case stored =>
    split at h
    · cases h
    · rename_i h1
      split at h
      · cases h
      · rename_i h2
        cases h
        exact ((dropBits_onlyReader _ s).trans (nextPair_onlyReader h1)).trans (nextPair_onlyReader h2)
  case dynhdr =>
    split at h
    · cases h
    · rename_i h1
      split at h
      · cases h
      · rename_i h2
        cases h
        exact (consumeTwo_onlyReader h1).trans (consume_onlyReader h2)
  case clsym => exact fetchSym_onlyReader h
  case llsym => exact fetchSym_onlyReader h
  case dsym => exact fetchSym_onlyReader h

end Sys2Proof.Machine
end

