-- ==== Sys2Proof/Laws/Tables.lean ====
section
/-! SUPPORT. The base and extra-bit tables (R224, R260) and the meanings of the single symbols say the same. -/

set_option Elab.async false

namespace Sys2Proof.Machine

/-- Each length base is the one before it plus `2^(extra before it)`, except the last (R224). -/
theorem lenBase_step : ∀ i < 27, lenBase.getD (i + 1) 0 = lenBase.getD i 0 + 2 ^ lenExtra.getD i 0 := by decide

/-- Each distance base is the one before it plus `2^(extra before it)` (R260). -/
theorem distBase_step : ∀ i < 29, distBase.getD (i + 1) 0 = distBase.getD i 0 + 2 ^ distExtra.getD i 0 := by decide

/-- The meaning of a decoded length symbol is the table's base plus the extra bits. -/
theorem length_of_table (code x : Nat) (hc : code < 29) (hx : x < 2 ^ lenExtra.getD code 0) (s : State) :
    (decodeLen code x).map (fun i => exec i s) = some (lengthToken (lenBase.getD code 0) x s) := by
  interval_cases code <;>
    first
      | exact congrArg (fun e => some (lengthToken _ e s)) (Nat.mod_eq_of_lt hx)
      | (obtain rfl : x = 0 := Nat.lt_one_iff.1 hx
         rfl)

/-- The meaning of a decoded distance symbol is the table's base plus the extra bits. -/
theorem distance_of_table (sym x : Nat) (hc : sym < 30) (hx : x < 2 ^ distExtra.getD sym 0) (s : State) :
    (decodeDist sym x).map (fun i => exec i s) = some (distanceToken (distBase.getD sym 0) x s) := by
  interval_cases sym <;>
    first
      | exact congrArg (fun e => some (distanceToken _ e s)) (Nat.mod_eq_of_lt hx)
      | (obtain rfl : x = 0 := Nat.lt_one_iff.1 hx
         rfl)

end Sys2Proof.Machine
end

