-- ==== Sys2Proof/Tests/Slice0.lean ====
section
/-! SUPPORT. Tests. Expected values come from the spec: the vectors of spec/95_test_vectors.md (named in the comments), the
examples in the rules, the encodings of spec/30_encoding.md. At the end, for every statement with hypotheses, a theorem that
shows they can be met. -/

set_option Elab.async false

namespace Sys2Proof.Tests
open Sys2Proof Sys2Proof.Machine

/-! ### Small states -/

/-- Bytes at consecutive indexes. -/
def bytesAt : Nat → List Nat → Memory
  | _, [] => []
  | a, v :: vs => (a, BitVec.ofNat 8 v) :: bytesAt (a + 1) vs

/-- INF busy in a phase, at stream bit 0 of some bytes. -/
def infState (bytes : List Nat) (p : Phase) : State :=
  { State.reset with
    inf := { Inf.reset with phase := p, inLen := BitVec.ofNat 32 bytes.length, outCap := 1000 }
    mem := { Spaces.reset with inn := bytesAt 0 bytes } }

/-- The same with some output already there. -/
def withOut (out : List Nat) (s : State) : State :=
  { s with inf := { s.inf with olen := out.length }, mem := { s.mem with out := bytesAt 0 out } }

/-- INF inside an element. -/
def within (sub : SubPhase) (s : State) : State := { s with inf := { s.inf with sub := sub } }

/-- A header of `hlit + hdist` lengths in progress, some of them written. -/
def header (hlit hdist : Nat) (lens : List (BitVec 4)) : State :=
  { State.reset with
    inf := { Inf.reset with phase := .dynhdr, sub := .clTokens, hlit := hlit, hdist := hdist }
    tabs := { Tables.reset with lens := lens } }

/-- SLR at row `row`, INF done, the row before it in its buffer. -/
def rowState (w h c o row : Nat) (out prev : List Nat) : State :=
  { State.reset with
    inf := { Inf.reset with phase := .done, olen := out.length }
    slr := { Slr.reset with
      width := BitVec.ofNat 32 w, height := BitVec.ofNat 32 h, rawCh := BitVec.ofNat 3 c, outCh := BitVec.ofNat 3 o
      row := row, imgLen := w * o * h, phase := .rows }
    mem := { Spaces.reset with
      out := bytesAt 0 out
      row0 := if row % 2 = 1 then bytesAt 0 prev else []
      row1 := if row % 2 = 0 then bytesAt 0 prev else [] } }

/-- What an outcome gives of its next state. -/
def onNext {α : Type} (f : State → α) : Host.Outcome State Fault Refusal → Option α
  | .next t => some (f t)
  | .fault _ => none
  | .refused _ => none

/-- `n` bytes of a space from an index on. -/
def bytesOf (sp : Space) (a n : Nat) (s : State) : List Nat := (List.range n).map fun i => (s.read sp (a + i)).toNat

/-- Phase, error code, number of output bytes, stream position. -/
def summary (s : State) : Phase × Nat × Nat × Nat := (s.inf.phase, s.inf.err.toNat, s.inf.olen, s.bitpos)

/-- Phase, error code, number of output bytes: what is defined after a fault. -/
def ending (s : State) : Phase × Nat × Nat := (s.inf.phase, s.inf.err.toNat, s.inf.olen)

/-- The bytes are fetched as the instruction, so many bits long. -/
def fetches (bytes : List Nat) (p : Phase) (sub : SubPhase) (i : Instr) (n : Nat) : Bool :=
  match fetchInf (within sub (infState bytes p)) with
  | .instr j t => j = i && t.bitpos = n
  | .raise _ => false
  | .refuse _ => false

/-- The match length a length symbol leaves pending. -/
def matchLength (i : Instr) : Option Nat := onNext (fun t => t.inf.mlen) (exec i (infState [] .syms))

/-- A distance symbol copies from exactly `d` bytes back: with `d` bytes of output it does, with one fewer it is too far. -/
def needsExactly (i : Instr) (d : Nat) : Bool :=
  let at_ (n : Nat) : State :=
    { State.reset with inf := { Inf.reset with phase := .syms, sub := .distance, mlen := 3, olen := n, outCap := 40000 } }
  decide (onNext ending (exec i (at_ d)) = some (.syms, 0, d + 3)) &&
    decide (onNext ending (exec i (at_ (d - 1))) = some (.error, 7, d - 1))

/-! ### WellFormed -/

theorem test_wf_refuses_legal_filter_row : Instr.wf (.rowInvalid 4) = false ∧ Instr.wf (.rowInvalid 0) = false := by decide
theorem test_wf_refuses_legal_filter_row0 : Instr.wf (.row0Invalid 4) = false ∧ Instr.wf (.row0Invalid 0) = false := by
  decide
theorem test_wf_accepts : Instr.wf (.rowInvalid 5) = true ∧ Instr.wf (.row0Invalid 255) = true ∧ Instr.wf .eob = true := by
  decide

/-! ### Decoding: every constructor, from a word written out from the spec's encoding -/

-- R92: CMF in bits 7:0, FLG in bits 15:8; R93: BFINAL, then BTYPE in bits 2:1
theorem test_decode_headers :
    decode .zhdr 0b0000000101111000 0 = .ok (.zhdr 0x78 0x01) ∧
    decode .bhdr 0b000 0 = .ok (.blkStored false) ∧ decode .bhdr 0b001 0 = .ok (.blkStored true) ∧
    decode .bhdr 0b010 0 = .ok (.blkFixed false) ∧ decode .bhdr 0b011 0 = .ok (.blkFixed true) ∧
    decode .bhdr 0b100 0 = .ok (.blkDynamic false) ∧ decode .bhdr 0b101 0 = .ok (.blkDynamic true) ∧
    decode .bhdr 0b110 0 = .ok (.blkRsvd false) ∧ decode .bhdr 0b111 0 = .ok (.blkRsvd true) := by decide
-- R94: LEN low, NLEN high; R95: HLIT 4:0, HDIST 9:5, HCLEN 13:10
theorem test_decode_bodies :
    decode .stored 0b11111111111111000000000000000011 0 = .ok (.storedData 3 0xFFFC) ∧
    decode .dynhdr 0b1110_00000_00001 0 = .ok (.dyn 1 0 14) := by decide
-- R96, R104
theorem test_decode_codelengths :
    decode .clsym 0b00000 0 = .ok (.cl 0) ∧ decode .clsym 0b01111 0 = .ok (.cl 15) ∧
    decode .clsym 0b10000 0b10 = .ok (.cl16 2) ∧ decode .clsym 0b10001 0b000 = .ok (.cl17 0) ∧
    decode .clsym 0b10010 0b1010110 = .ok (.cl18 86) ∧ decode .clsym 0b10011 0 = .error (.noRow .clsym 19) := by decide
-- R97, R102
theorem test_decode_literals :
    decode .llsym 0b000000000 0 = .ok (.lit 0) ∧ decode .llsym 0b011111111 0 = .ok (.lit 255) ∧
    decode .llsym 0b100000000 0 = .ok .eob ∧ decode .llsym 0b100011110 0 = .ok (.llRsvd 0) ∧
    decode .llsym 0b100011111 0 = .ok (.llRsvd 1) ∧ decode .llsym 0b100100000 0 = .error (.noRow .llsym 288) := by decide
theorem test_decode_lengths_257 :
    decode .llsym 0b100000001 0 = .ok .len257 ∧
    decode .llsym 0b100000010 0 = .ok .len258 ∧
    decode .llsym 0b100000011 0 = .ok .len259 ∧
    decode .llsym 0b100000100 0 = .ok .len260 ∧
    decode .llsym 0b100000101 0 = .ok .len261 ∧
    decode .llsym 0b100000110 0 = .ok .len262 ∧
    decode .llsym 0b100000111 0 = .ok .len263 ∧
    decode .llsym 0b100001000 0 = .ok .len264 ∧
    decode .llsym 0b100001001 0b1 = .ok (.len265 1) ∧
    decode .llsym 0b100001010 0b1 = .ok (.len266 1) ∧
    decode .llsym 0b100001011 0b1 = .ok (.len267 1) ∧
    decode .llsym 0b100001100 0b1 = .ok (.len268 1) := by decide
theorem test_decode_lengths_269 :
    decode .llsym 0b100001101 0b11 = .ok (.len269 3) ∧
    decode .llsym 0b100001110 0b11 = .ok (.len270 3) ∧
    decode .llsym 0b100001111 0b11 = .ok (.len271 3) ∧
    decode .llsym 0b100010000 0b11 = .ok (.len272 3) ∧
    decode .llsym 0b100010001 0b111 = .ok (.len273 7) ∧
    decode .llsym 0b100010010 0b111 = .ok (.len274 7) ∧
    decode .llsym 0b100010011 0b111 = .ok (.len275 7) ∧
    decode .llsym 0b100010100 0b111 = .ok (.len276 7) ∧
    decode .llsym 0b100010101 0b1111 = .ok (.len277 15) ∧
    decode .llsym 0b100010110 0b1111 = .ok (.len278 15) ∧
    decode .llsym 0b100010111 0b1111 = .ok (.len279 15) ∧
    decode .llsym 0b100011000 0b1111 = .ok (.len280 15) := by decide
theorem test_decode_lengths_281 :
    decode .llsym 0b100011001 0b11111 = .ok (.len281 31) ∧
    decode .llsym 0b100011010 0b11111 = .ok (.len282 31) ∧
    decode .llsym 0b100011011 0b11111 = .ok (.len283 31) ∧
    decode .llsym 0b100011100 0b11111 = .ok (.len284 31) ∧
    decode .llsym 0b100011101 0 = .ok .len285 := by decide
theorem test_decode_distances_0 :
    decode .dsym 0b00000 0 = .ok .dist0 ∧
    decode .dsym 0b00001 0 = .ok .dist1 ∧
    decode .dsym 0b00010 0 = .ok .dist2 ∧
    decode .dsym 0b00011 0 = .ok .dist3 ∧
    decode .dsym 0b00100 0b1 = .ok (.dist4 1) ∧
    decode .dsym 0b00101 0b1 = .ok (.dist5 1) ∧
    decode .dsym 0b00110 0b11 = .ok (.dist6 3) ∧
    decode .dsym 0b00111 0b11 = .ok (.dist7 3) ∧
    decode .dsym 0b01000 0b111 = .ok (.dist8 7) ∧
    decode .dsym 0b01001 0b111 = .ok (.dist9 7) ∧
    decode .dsym 0b01010 0b1111 = .ok (.dist10 15) ∧
    decode .dsym 0b01011 0b1111 = .ok (.dist11 15) := by decide
theorem test_decode_distances_12 :
    decode .dsym 0b01100 0b11111 = .ok (.dist12 31) ∧
    decode .dsym 0b01101 0b11111 = .ok (.dist13 31) ∧
    decode .dsym 0b01110 0b111111 = .ok (.dist14 63) ∧
    decode .dsym 0b01111 0b111111 = .ok (.dist15 63) ∧
    decode .dsym 0b10000 0b1111111 = .ok (.dist16 127) ∧
    decode .dsym 0b10001 0b1111111 = .ok (.dist17 127) ∧
    decode .dsym 0b10010 0b11111111 = .ok (.dist18 255) ∧
    decode .dsym 0b10011 0b11111111 = .ok (.dist19 255) ∧
    decode .dsym 0b10100 0b111111111 = .ok (.dist20 511) ∧
    decode .dsym 0b10101 0b111111111 = .ok (.dist21 511) ∧
    decode .dsym 0b10110 0b1111111111 = .ok (.dist22 1023) ∧
    decode .dsym 0b10111 0b1111111111 = .ok (.dist23 1023) := by decide
theorem test_decode_distances_24 :
    decode .dsym 0b11000 0b11111111111 = .ok (.dist24 2047) ∧
    decode .dsym 0b11001 0b11111111111 = .ok (.dist25 2047) ∧
    decode .dsym 0b11010 0b111111111111 = .ok (.dist26 4095) ∧
    decode .dsym 0b11011 0b111111111111 = .ok (.dist27 4095) ∧
    decode .dsym 0b11100 0b1111111111111 = .ok (.dist28 8191) ∧
    decode .dsym 0b11101 0b1111111111111 = .ok (.dist29 8191) := by decide
-- R103
theorem test_decode_reserved_distances :
    decode .dsym 0b11110 0 = .ok (.dRsvd 0) ∧ decode .dsym 0b11111 0 = .ok (.dRsvd 1) := by decide
-- R105, R117
theorem test_decode_filters :
    decode .filt 0b00000000 0 = .ok .rowNone ∧ decode .filt 0b00000001 0 = .ok .rowSub ∧
    decode .filt 0b00000010 0 = .ok .rowUp ∧ decode .filt 0b00000011 0 = .ok .rowAvg ∧
    decode .filt 0b00000100 0 = .ok .rowPaeth ∧ decode .filt 0b00000101 0 = .ok (.rowInvalid 5) ∧
    decode .filt 0b11111111 0 = .ok (.rowInvalid 255) := by decide
theorem test_decode_filters_row0 :
    decode .filt0 0b00000000 0 = .ok .row0None ∧ decode .filt0 0b00000001 0 = .ok .row0Sub ∧
    decode .filt0 0b00000010 0 = .ok .row0Up ∧ decode .filt0 0b00000011 0 = .ok .row0Avg ∧
    decode .filt0 0b00000100 0 = .ok .row0Paeth ∧ decode .filt0 0b00000101 0 = .ok (.row0Invalid 5) ∧
    decode .filt0 0b10000000 0 = .ok (.row0Invalid 128) := by decide

/-! ### Fetching: the fixed-table bit patterns of the rules, the code most significant bit first, extra bits least
significant bit first -/

theorem test_fetch_lengths_257 :
    fetches [64] .syms .boundary .len257 7 = true ∧
    fetches [32] .syms .boundary .len258 7 = true ∧
    fetches [96] .syms .boundary .len259 7 = true ∧
    fetches [16] .syms .boundary .len260 7 = true ∧
    fetches [80] .syms .boundary .len261 7 = true ∧
    fetches [48] .syms .boundary .len262 7 = true ∧
    fetches [112] .syms .boundary .len263 7 = true ∧
    fetches [8] .syms .boundary .len264 7 = true ∧
    fetches [200] .syms .boundary (.len265 1) 8 = true ∧
    fetches [168] .syms .boundary (.len266 1) 8 = true ∧
    fetches [232] .syms .boundary (.len267 1) 8 = true ∧
    fetches [152] .syms .boundary (.len268 1) 8 = true := by decide +kernel
theorem test_fetch_lengths_269 :
    fetches [216, 1] .syms .boundary (.len269 3) 9 = true ∧
    fetches [184, 1] .syms .boundary (.len270 3) 9 = true ∧
    fetches [248, 1] .syms .boundary (.len271 3) 9 = true ∧
    fetches [132, 1] .syms .boundary (.len272 3) 9 = true ∧
    fetches [196, 3] .syms .boundary (.len273 7) 10 = true ∧
    fetches [164, 3] .syms .boundary (.len274 7) 10 = true ∧
    fetches [228, 3] .syms .boundary (.len275 7) 10 = true ∧
    fetches [148, 3] .syms .boundary (.len276 7) 10 = true ∧
    fetches [212, 7] .syms .boundary (.len277 15) 11 = true ∧
    fetches [180, 7] .syms .boundary (.len278 15) 11 = true ∧
    fetches [244, 7] .syms .boundary (.len279 15) 11 = true ∧
    fetches [3, 15] .syms .boundary (.len280 15) 12 = true := by decide +kernel
theorem test_fetch_lengths_281 :
    fetches [131, 31] .syms .boundary (.len281 31) 13 = true ∧
    fetches [67, 31] .syms .boundary (.len282 31) 13 = true ∧
    fetches [195, 31] .syms .boundary (.len283 31) 13 = true ∧
    fetches [35, 31] .syms .boundary (.len284 31) 13 = true ∧
    fetches [163] .syms .boundary .len285 8 = true := by decide +kernel
theorem test_fetch_distances_0 :
    fetches [0] .syms .distance .dist0 5 = true ∧
    fetches [16] .syms .distance .dist1 5 = true ∧
    fetches [8] .syms .distance .dist2 5 = true ∧
    fetches [24] .syms .distance .dist3 5 = true ∧
    fetches [36] .syms .distance (.dist4 1) 6 = true ∧
    fetches [52] .syms .distance (.dist5 1) 6 = true ∧
    fetches [76] .syms .distance (.dist6 2) 7 = true ∧
    fetches [92] .syms .distance (.dist7 2) 7 = true ∧
    fetches [194] .syms .distance (.dist8 6) 8 = true ∧
    fetches [210] .syms .distance (.dist9 6) 8 = true ∧
    fetches [202, 1] .syms .distance (.dist10 14) 9 = true ∧
    fetches [218, 1] .syms .distance (.dist11 14) 9 = true := by decide +kernel
theorem test_fetch_distances_12 :
    fetches [198, 3] .syms .distance (.dist12 30) 10 = true ∧
    fetches [214, 3] .syms .distance (.dist13 30) 10 = true ∧
    fetches [206, 7] .syms .distance (.dist14 62) 11 = true ∧
    fetches [222, 7] .syms .distance (.dist15 62) 11 = true ∧
    fetches [193, 15] .syms .distance (.dist16 126) 12 = true ∧
    fetches [209, 15] .syms .distance (.dist17 126) 12 = true ∧
    fetches [201, 31] .syms .distance (.dist18 254) 13 = true ∧
    fetches [217, 31] .syms .distance (.dist19 254) 13 = true ∧
    fetches [197, 63] .syms .distance (.dist20 510) 14 = true ∧
    fetches [213, 63] .syms .distance (.dist21 510) 14 = true ∧
    fetches [205, 127] .syms .distance (.dist22 1022) 15 = true ∧
    fetches [221, 127] .syms .distance (.dist23 1022) 15 = true := by decide +kernel
theorem test_fetch_distances_24 :
    fetches [195, 255] .syms .distance (.dist24 2046) 16 = true ∧
    fetches [211, 255] .syms .distance (.dist25 2046) 16 = true ∧
    fetches [203, 255, 1] .syms .distance (.dist26 4094) 17 = true ∧
    fetches [219, 255, 1] .syms .distance (.dist27 4094) 17 = true ∧
    fetches [199, 255, 3] .syms .distance (.dist28 8190) 18 = true ∧
    fetches [215, 255, 3] .syms .distance (.dist29 8190) 18 = true := by decide +kernel
-- R107: `a` is the stream bits 1,0,0,1,0,0,0,1; end of block is seven 0 bits; 255 is nine 1 bits; 286 is 11000110
theorem test_fetch_literals :
    fetches [0b10001001] .syms .boundary (.lit 0x61) 8 = true ∧ fetches [0b00000000] .syms .boundary .eob 7 = true ∧
    fetches [0b11111111, 1] .syms .boundary (.lit 255) 9 = true ∧
    fetches [0b01100011] .syms .boundary (.llRsvd 0) 8 = true ∧ fetches [0b00001111] .syms .distance (.dRsvd 0) 5 = true := by
  decide +kernel
-- R183 examples: 0x4B is a last fixed block, 0x01 a last stored block; R206: 0x0D C0 81 is a last dynamic block
theorem test_fetch_headers :
    fetches [0x4B] .bhdr .boundary (.blkFixed true) 3 = true ∧ fetches [0x01] .bhdr .boundary (.blkStored true) 3 = true ∧
    fetches [0x05] .bhdr .boundary (.blkDynamic true) 3 = true ∧ fetches [0x07] .bhdr .boundary (.blkRsvd true) 3 = true ∧
    fetches [0x78, 0x9C] .zhdr .boundary (.zhdr 0x78 0x9C) 16 = true ∧
    fetches [0x03, 0x00, 0xFC, 0xFF] .stored .boundary (.storedData 3 0xFFFC) 32 = true := by decide +kernel

/-! ### The bit reader: vectors of 95_test_vectors.md 2.1 -/

/-- Line 1 of the vectors before the 3 bits leave: four bytes loaded. -/
def vecFull : State :=
  { infState [0xA5, 0x3C, 0xF0, 0x0F, 0x81, 0x7E, 0x42] .bhdr with
    inf := { (infState [0xA5, 0x3C, 0xF0, 0x0F, 0x81, 0x7E, 0x42] .bhdr).inf with acc := 0x0FF03CA5, cnt := 32, ipos := 4 } }

/-- Result and registers of an operation on the stream. -/
def regs {α : Type} : Read α → Option (α × Nat × Nat × Nat)
  | .ok (v, t) => some (v, t.inf.acc.toNat, t.inf.cnt, t.inf.ipos)
  | .error _ => none

theorem test_consume_refills :
    regs (consume 3 (infState [0xA5, 0x3C, 0xF0, 0x0F, 0x81, 0x7E, 0x42] .bhdr)) = some (5, 0x01FE0794, 29, 4) := by
  decide +kernel
theorem test_consume_13 :
    regs (consume 13 { vecFull with inf := { vecFull.inf with acc := 0x000FF03C, cnt := 24 } }) =
      some (4156, 0x0000007F, 11, 4) := by decide +kernel
theorem test_consume_24_refills :
    regs (consume 24 { vecFull with inf := { vecFull.inf with acc := 0x00007E81, cnt := 16, ipos := 6 } }) =
      some (0x427E81, 0, 0, 7) := by decide +kernel
theorem test_fill_to_threshold :
    (fun t : State => (t.inf.acc.toNat, t.inf.cnt, t.inf.ipos))
      (fillToThreshold { vecFull with inf := { vecFull.inf with acc := 0x0000007F, cnt := 11 } }) =
      (0x03F4087F, 27, 6) := by decide +kernel
theorem test_align_then_next_byte :
    regs (nextByte .insufficientData
      (align { vecFull with inf := { vecFull.inf with acc := 0x03F4087F, cnt := 27, ipos := 6 } })) =
      some (0x0F, 0x00007E81, 16, 6) := by decide +kernel

/-! ### Huffman tables: vectors B1, B3, B9 and EX16 -/

-- B1
theorem test_build_B1 :
    (build 4 [2, 1, 3, 3]).map (fun T => (T.symbols, T.lengths, T.fast.take 8)) =
      some ([1, 0, 2, 3], [1, 2, 3, 3], [0x201, 0x400, 0x201, 0x602, 0x201, 0x400, 0x201, 0x603]) := by decide +kernel
theorem test_build_B1_codes :
    (build 4 [2, 1, 3, 3]).map (fun T => (T.firstCode.take 4, T.firstSymbol.take 4, T.maxCode.take 5)) =
      some ([0, 0, 2, 6], [0, 0, 1, 2], [0, 0x8000, 0xC000, 0x10000, 0x10000]) := by decide +kernel
-- B2, B3, B4
theorem test_build_oversubscribed :
    build 19 [1, 1, 1] = none ∧ build 19 [1, 2, 2, 2] = none ∧ build 19 [1, 2, 3, 3, 1] = none := by decide +kernel
-- R173: windows 0x7FFF, 0x03FF, 0x3FFF through the slow path, 0x00FF through the fast one
theorem test_lookup_EX16 :
    (build 16 [1, 2, 3, 4, 5, 6, 7, 8, 9, 10, 11, 12, 13, 14, 15, 15]).map
      (fun T => [lookup T 0x7FFF, lookup T 0x03FF, lookup T 0x3FFF, lookup T 0x00FF]) =
    some [.ok (15, 15), .ok (11, 10), .ok (15, 14), .ok (9, 8)] := by decide +kernel
-- B5: a hole of an incomplete table
theorem test_lookup_hole : (build 2 [0, 1]).map (fun T => lookup T 1) = some (.error .invalidHuffmanTree) := by
  decide +kernel

/-! ### Blocks: one step each -/

-- Z1, Z10
theorem test_zhdr : onNext summary (step (infState [0x78, 0x01] .zhdr)) = some (.bhdr, 0, 0, 16) := by decide +kernel
theorem test_zhdr_dictionary : onNext ending (step (infState [0x78, 0x20] .zhdr)) = some (.error, 4, 0) := by decide +kernel
-- first step of S7, S3, DH1, S11
theorem test_blkStored : onNext (fun t => (summary t, t.inf.finalSeen)) (step (infState [0x01, 0, 0, 0xFF, 0xFF] .bhdr)) =
    some ((.stored, 0, 0, 3), true) := by decide +kernel
theorem test_blkFixed : onNext (fun t => (summary t, t.inf.finalSeen, t.inf.tsel)) (step (infState [0x03, 0] .bhdr)) =
    some ((.syms, 0, 0, 3), true, .fixed) := by decide +kernel
theorem test_blkDynamic : onNext (fun t => (summary t, t.inf.finalSeen)) (step (infState [0x05, 0, 0x92, 0] .bhdr)) =
    some ((.dynhdr, 0, 0, 3), true) := by decide +kernel
theorem test_blkRsvd : onNext ending (step (infState [0x07] .bhdr)) = some (.error, 5, 0) := by decide +kernel

/-- P1 after its block header: `acc` holds the rest of four bytes. -/
def storedP1 (inLen cap : Nat) (nlenHi : Nat) : State :=
  let s := infState [0x01, 0x03, 0x00, 0xFC, nlenHi, 0x48, 0x69, 0x21] .stored
  { s with inf := { s.inf with
      acc := 0xFC000301#32 >>> 3, cnt := 29, ipos := 4, finalSeen := true, inLen := BitVec.ofNat 32 inLen
      outCap := BitVec.ofNat 32 cap } }

-- P1 (and S10), S6
theorem test_storedData : onNext (fun t => (summary t, bytesOf .out 0 3 t)) (step (storedP1 8 3 0xFF)) =
    some ((.done, 0, 3, 64), [0x48, 0x69, 0x21]) := by decide +kernel
theorem test_storedData_complement : onNext ending (step (storedP1 8 1000 0xFE)) = some (.error, 3, 0) := by decide +kernel

/-- R206 after its block header. -/
def dynP4 : State :=
  let s := infState [0x0D, 0xC0, 0x81, 0, 0, 0, 0, 0x80, 0x20, 0xD6, 0xF7, 0x87, 0xF8, 0x70, 0x01] .dynhdr
  { s with inf := { s.inf with acc := 0x0081C00D#32 >>> 3, cnt := 29, ipos := 4 } }

-- R206: the header step ends at stream bit 105; R200: the codes of DYN_LL and DYN_D
theorem test_dyn : onNext (fun t => (summary t, t.inf.tsel)) (step dynP4) = some ((.syms, 0, 0, 105), .dynamic) := by
  decide +kernel
theorem test_dyn_tables :
    onNext (fun t => (t.tabs.dynLL.symbols.take 4, t.tabs.dynLL.fast.take 4, t.tabs.dynD.fast.take 2)) (step dynP4) =
      some ([97, 98, 256, 257], [0x461, 0x500, 0x462, 0x501], [0x200, 0]) := by decide +kernel
-- DH1
theorem test_dyn_oversubscribed :
    onNext ending (exec (.dyn 0 0 0) (infState [0x49, 0x00] .dynhdr)) = some (.error, 2, 0) := by decide +kernel

-- the examples of R201 to R205
theorem test_cl : onNext (fun t => t.tabs.lens) (exec (.cl 2) (header 258 1 (List.replicate 97 0))) =
    some (List.replicate 97 0 ++ [2]) := by decide +kernel
theorem test_cl16 : onNext (fun t => t.tabs.lens) (exec (.cl16 2) (header 258 1 [0, 0, 0, 0, 7])) =
    some [0, 0, 0, 0, 7, 7, 7, 7, 7, 7] := by decide +kernel
theorem test_cl16_first : onNext ending (exec (.cl16 0) (header 257 1 [])) = some (.error, 2, 0) := by decide +kernel
theorem test_cl17 : onNext (fun t => t.tabs.lens) (exec (.cl17 0) (header 258 1 [])) = some [0, 0, 0] := by decide +kernel
theorem test_cl17_ends : onNext (fun t => t.inf.phase) (exec (.cl17 0) (header 257 1 (List.replicate 255 0))) =
    some .syms := by decide +kernel
theorem test_cl18 : onNext (fun t => t.tabs.lens) (exec (.cl18 86) (header 258 1 [])) = some (List.replicate 97 0) := by
  decide +kernel
theorem test_cl18_overruns : onNext ending (exec (.cl18 0) (header 257 1 (List.replicate 250 0))) = some (.error, 2, 0) := by
  decide +kernel

/-! ### Symbols -/

-- R221 example; S16: no room
theorem test_lit : onNext (fun t => (summary t, bytesOf .out 0 1 t)) (step (infState [0b10001001] .syms)) =
    some ((.syms, 0, 1, 8), [0x61]) := by decide +kernel
theorem test_lit_full : onNext ending (exec (.lit 0x61) { infState [] .syms with inf := { (infState [] .syms).inf with outCap := 0 } }) =
    some (.error, 8, 0) := by decide +kernel
-- R187, R222
theorem test_eob : onNext summary (step (infState [0] .syms)) = some (.bhdr, 0, 0, 7) := by decide +kernel
theorem test_eob_final : onNext (fun t => t.inf.phase)
    (exec .eob (setFinal true (infState [] .syms))) = some .done := by decide +kernel
-- R297: LEN 263, DIST 0 after one byte 61: nine copies in 12 bits
theorem test_match_run : onNext (fun t => (summary t, bytesOf .out 0 10 t)) (step (withOut [0x61] (infState [0b01110000, 0] .syms))) =
    some ((.syms, 0, 10, 12), [0x61, 0x61, 0x61, 0x61, 0x61, 0x61, 0x61, 0x61, 0x61, 0x61]) := by decide +kernel
-- the largest length of each symbol
theorem test_lengths_257 :
    matchLength .len257 = some 3 ∧
    matchLength .len258 = some 4 ∧
    matchLength .len259 = some 5 ∧
    matchLength .len260 = some 6 ∧
    matchLength .len261 = some 7 ∧
    matchLength .len262 = some 8 ∧
    matchLength .len263 = some 9 ∧
    matchLength .len264 = some 10 ∧
    matchLength (.len265 1) = some 12 ∧
    matchLength (.len266 1) = some 14 ∧
    matchLength (.len267 1) = some 16 ∧
    matchLength (.len268 1) = some 18 := by decide +kernel
theorem test_lengths_269 :
    matchLength (.len269 3) = some 22 ∧
    matchLength (.len270 3) = some 26 ∧
    matchLength (.len271 3) = some 30 ∧
    matchLength (.len272 3) = some 34 ∧
    matchLength (.len273 7) = some 42 ∧
    matchLength (.len274 7) = some 50 ∧
    matchLength (.len275 7) = some 58 ∧
    matchLength (.len276 7) = some 66 ∧
    matchLength (.len277 15) = some 82 ∧
    matchLength (.len278 15) = some 98 ∧
    matchLength (.len279 15) = some 114 ∧
    matchLength (.len280 15) = some 130 := by decide +kernel
theorem test_lengths_281 :
    matchLength (.len281 31) = some 162 ∧
    matchLength (.len282 31) = some 194 ∧
    matchLength (.len283 31) = some 226 ∧
    matchLength (.len284 31) = some 258 ∧
    matchLength .len285 = some 258 := by decide +kernel
-- the largest distance of each symbol
theorem test_distances_0 :
    needsExactly .dist0 1 = true ∧
    needsExactly .dist1 2 = true ∧
    needsExactly .dist2 3 = true ∧
    needsExactly .dist3 4 = true ∧
    needsExactly (.dist4 1) 6 = true ∧
    needsExactly (.dist5 1) 8 = true ∧
    needsExactly (.dist6 3) 12 = true ∧
    needsExactly (.dist7 3) 16 = true ∧
    needsExactly (.dist8 7) 24 = true ∧
    needsExactly (.dist9 7) 32 = true ∧
    needsExactly (.dist10 15) 48 = true ∧
    needsExactly (.dist11 15) 64 = true := by decide +kernel
theorem test_distances_12 :
    needsExactly (.dist12 31) 96 = true ∧
    needsExactly (.dist13 31) 128 = true ∧
    needsExactly (.dist14 63) 192 = true ∧
    needsExactly (.dist15 63) 256 = true ∧
    needsExactly (.dist16 127) 384 = true ∧
    needsExactly (.dist17 127) 512 = true ∧
    needsExactly (.dist18 255) 768 = true ∧
    needsExactly (.dist19 255) 1024 = true ∧
    needsExactly (.dist20 511) 1536 = true ∧
    needsExactly (.dist21 511) 2048 = true ∧
    needsExactly (.dist22 1023) 3072 = true ∧
    needsExactly (.dist23 1023) 4096 = true := by decide +kernel
theorem test_distances_24 :
    needsExactly (.dist24 2047) 6144 = true ∧
    needsExactly (.dist25 2047) 8192 = true ∧
    needsExactly (.dist26 4095) 12288 = true ∧
    needsExactly (.dist27 4095) 16384 = true ∧
    needsExactly (.dist28 8191) 24576 = true ∧
    needsExactly (.dist29 8191) 32768 = true := by decide +kernel
-- S19, S20
theorem test_llRsvd : onNext ending (step (infState [0b01100011] .syms)) = some (.error, 6, 0) := by decide +kernel
theorem test_dRsvd : onNext ending (exec (.dRsvd 0) (within .distance (infState [] .syms))) = some (.error, 6, 0) := by
  decide +kernel

/-- Output bytes after a copy. -/
def afterCopy (out : List Nat) (length distance cap : Nat) : Except FaultCode (List Nat) :=
  let s := withOut out (infState [] .syms)
  match copyMatch length distance { s with inf := { s.inf with outCap := BitVec.ofNat 32 cap } } with
  | .ok t => .ok (bytesOf .out 0 t.inf.olen t)
  | .error f => .error f

-- 95_test_vectors.md 2.8
theorem test_copy :
    afterCopy [0x61, 0x62] 5 2 1000 = .ok [0x61, 0x62, 0x61, 0x62, 0x61, 0x62, 0x61] ∧
    afterCopy [0x61, 0x62, 0x63] 3 3 1000 = .ok [0x61, 0x62, 0x63, 0x61, 0x62, 0x63] ∧
    afterCopy [0x61, 0x62, 0x63] 4 2 1000 = .ok [0x61, 0x62, 0x63, 0x62, 0x63, 0x62, 0x63] := by decide +kernel
theorem test_copy_faults :
    afterCopy [0x61, 0x62, 0x63] 3 4 1000 = .error .distanceTooFar ∧ afterCopy [] 3 1 1000 = .error .distanceTooFar ∧
    afterCopy [0x61] 9 1 9 = .error .capacityError ∧ afterCopy [0x61] 9 2 5 = .error .distanceTooFar := by decide +kernel

/-! ### Scanlines: G1 to G14, V9, SF11 -/

/-- The image row a row step writes, and the next row number. -/
def rowAfter (w c o row : Nat) (s : State) : Option (List Nat × Nat) :=
  onNext (fun t => (bytesOf .img (row * w * o) (w * o) t, t.slr.row)) (step (if c = 0 then State.reset else s))

/-- Row 0 of G1 to G5. -/
def grey0 (ft : Nat) : Option (List Nat × Nat) :=
  rowAfter 4 1 1 0 (rowState 4 2 1 1 0 [ft, 0x0A, 0x14, 0x1E, 0xFA, 0, 1, 2, 3, 4] [])

/-- Row 1 of G6 to G14 over a previous row. -/
def grey1 (ft : Nat) (prev : List Nat) : Option (List Nat × Nat) :=
  rowAfter 4 1 1 1 (rowState 4 2 1 1 1 [0, 0x0A, 0x14, 0x1E, 0xFA, ft, 1, 2, 3, 4] prev)

theorem test_row0None : grey0 0 = some ([0x0A, 0x14, 0x1E, 0xFA], 1) := by decide +kernel
theorem test_row0Sub : grey0 1 = some ([0x0A, 0x1E, 0x3C, 0x36], 1) := by decide +kernel
theorem test_row0Up : grey0 2 = some ([0x0A, 0x14, 0x1E, 0xFA], 1) := by decide +kernel
theorem test_row0Avg : grey0 3 = some ([0x0A, 0x19, 0x2A, 0x0F], 1) := by decide +kernel
theorem test_row0Avg_two_channels :
    rowAfter 3 2 2 0 (rowState 3 1 2 2 0 [3, 0x64, 0xC8, 0x07, 0x09, 0xFF, 0x01] []) =
      some ([0x64, 0xC8, 0x39, 0x6D, 0x1B, 0x37], 1) := by decide +kernel
theorem test_row0Paeth : grey0 4 = some ([0x0A, 0x1E, 0x3C, 0x36], 1) := by decide +kernel
theorem test_rowNone : grey1 0 [0x0A, 0x14, 0x1E, 0xFA] = some ([0x01, 0x02, 0x03, 0x04], 2) := by decide +kernel
theorem test_rowSub : grey1 1 [0x0A, 0x14, 0x1E, 0xFA] = some ([0x01, 0x03, 0x06, 0x0A], 2) := by decide +kernel
theorem test_rowUp : grey1 2 [0x0A, 0x14, 0x1E, 0xFA] = some ([0x0B, 0x16, 0x21, 0xFE], 2) := by decide +kernel
theorem test_rowAvg : grey1 3 [0x0A, 0x14, 0x1E, 0xFA] = some ([0x06, 0x0F, 0x19, 0x8D], 2) := by decide +kernel
theorem test_rowAvg_wide_sum : grey1 3 [0x0A, 0x1E, 0x3C, 0x36] = some ([0x06, 0x14, 0x2B, 0x34], 2) := by decide +kernel
theorem test_rowPaeth : grey1 4 [0x0A, 0x19, 0x2A, 0x0F] = some ([0x0B, 0x1B, 0x2D, 0x13], 2) := by decide +kernel
-- R314 example, C = 3, expanded to RGBA as in R343
theorem test_rowPaeth_rgb :
    rowAfter 2 3 4 1 (rowState 2 2 3 4 1 [4, 0, 0, 0, 0, 0, 0, 4, 1, 2, 3, 0xFA, 0, 7] [0x0A, 0x14, 0x1E, 0x0F, 0x19, 0x23]) =
      some ([0x0B, 0x16, 0x21, 0xFF, 0x09, 0x19, 0x2A, 0xFF], 2) := by decide +kernel
theorem test_row0Invalid : onNext (fun t => (t.slr.phase, t.slr.err, t.slr.row, t.mem.img))
    (step (rowState 2 2 1 1 0 [5, 1, 2, 0, 0, 0] [])) = some (.error, 9, 0, []) := by decide +kernel
theorem test_rowInvalid : onNext (fun t => (t.slr.phase, t.slr.err, t.slr.row, t.mem.img))
    (step (rowState 2 2 1 1 1 [0, 1, 2, 255, 0, 0] [1, 2])) = some (.error, 9, 1, []) := by decide +kernel
-- PA2 to PA4, PA7, PA13
theorem test_paeth :
    paeth 10 20 10 = 20 ∧ paeth 0 0 1 = 0 ∧ paeth 0 3 1 = 3 ∧ paeth 100 50 75 = 75 ∧ paeth 255 255 0 = 255 := by decide

/-- SLR in phase FLIPPING over an image. -/
def flipState (w h o : Nat) (img : List Nat) : State :=
  let s := rowState w h o o h [] []
  { s with
    slr := { s.slr with phase := .flipping, flip := true }
    mem := { s.mem with img := bytesAt 0 img } }

-- E3
theorem test_flip : onNext (fun t => (bytesOf .img 0 9 t, t.slr.phase))
    (step (flipState 3 3 1 [0xFF, 1, 4, 0, 2, 5, 0x10, 0x29, 0x47])) =
    some ([0x10, 0x29, 0x47, 0, 2, 5, 0xFF, 1, 4], .done) := by decide +kernel

/-! ### The host -/

-- SF1, SF5, SF8, SF10, and R301's accepted example
theorem test_slr_start :
    let s := fun (p : Phase) (w h c o olen : Nat) =>
      let t := rowState w h c o 0 [] []
      hostWrite 8 1 { t with inf := { t.inf with phase := p, olen := olen }, slr := { t.slr with phase := .idle } }
    ((s .idle 2 2 3 4 14).slr.err, (s .done 1 1 1 4 100).slr.err, (s .done 32768 32768 3 4 4000000000).slr.err,
      (s .done 2 2 1 1 5).slr.err, (s .done 2 2 3 4 14).slr.phase, (s .done 2 2 3 4 14).slr.imgLen) =
    (11, 10, 8, 8, .rows, 16) := by decide +kernel
theorem test_host_queue_runs : onNext (fun t => (t.inf.phase, t.hostQueue))
    (step { State.reset with hostQueue := [.write 0 3, .wait .inf] }) = some (.zhdr, [.wait .inf]) := by decide +kernel

-- R28, R24, R36: INF_STATUS in SYMS with final_seen and dynamic tables; SLR_STATUS in FLIPPING, DONE and ERROR
theorem test_status :
    hostRead 1 { setFinal true (setTsel .dynamic (infState [] .syms)) with diag := 3 } = 0x519 ∧
    hostRead 1 (infState [] .done) = 0x602 ∧ hostRead 1 (infState [] .error) = 0x704 ∧
    hostRead 9 (flipState 3 3 1 []) = 0x201 ∧ hostRead 9 (flipStep (flipState 1 1 1 [])) = 0x602 ∧
    hostRead 9 (slrFault .invalidFilter (flipState 3 3 1 [])) = 0x704 := by decide +kernel
-- R407, U6: INF restarted under SLR; the row with the illegal filter byte completes, IMG holds nothing known
theorem test_restart_under_slr :
    let s := hostWrite 0 1 (rowState 2 2 1 1 0 [5, 1, 2, 0, 0, 0] [])
    (s.infBusy, s.slrBusy, s.disturbed) = (true, true, true) ∧
      onNext (fun t => (t.slr.phase, t.slr.err.toNat, t.slr.row, t.mem.img)) (slrStep s) = some (.rows, 0, 1, []) := by
  decide +kernel
-- R81: a read answers the byte written, none while a unit is busy
theorem test_host_read :
    hostReadByte .inn 2 (infState [1, 2, 3] .done) = some 3 ∧ hostReadByte .inn 2 (infState [1, 2, 3] .syms) = none := by
  decide +kernel

/-! ### Placing a table word -/

theorem test_withFetchWord : onNext summary (step (State.withFetchWord State.reset 9 256)) = some (.bhdr, 0, 0, 7) := by
  decide +kernel
theorem test_decodeTableWord :
    decodeTableWord 9 285 = some .len285 ∧ decodeTableWord 0 0 = some (.storedData 0 0) ∧ decodeTableWord 3 4 = some (.blkDynamic false) := by
  decide +kernel

/-! ### The hypotheses of the statements can be met: for each statement that has some, states and operands that meet them,
clause by clause, at the boundaries of their ranges -/

theorem onNext_eq_some {α : Type} {f : State → α} {o : Host.Outcome State Fault Refusal} {a : α} (h : onNext f o = some a) :
    ∃ t, o = .next t ∧ f t = a := by
  cases o with
  | next t => exact ⟨t, rfl, by simpa [onNext] using h⟩
  | fault _ => simp [onNext] at h
  | refused _ => simp [onNext] at h

theorem bitReaderOk_of {s : State}
    (h : s.inf.cnt ≤ 32 ∧ s.inf.acc.toNat < 2 ^ s.inf.cnt ∧ s.inf.ipos ≤ s.inf.inLen.toNat ∧ s.inf.cnt ≤ 8 * s.inf.ipos ∧
      ∀ i < s.inf.cnt, s.inf.acc.getLsbD i = s.streamBit (s.bitpos + i)) : s.BitReaderOk :=
  ⟨h.1, h.2.1, h.2.2.1, h.2.2.2.1, h.2.2.2.2⟩

/-- Four bytes loaded, the last `n` bits of them not consumed yet, `more` still in IN. -/
def held (p : Phase) (more : List Nat) (n : Nat) : State :=
  let s := infState ([0xA5, 0x3C, 0xF0, 0x0F] ++ more) p
  { s with inf := { s.inf with acc := 0x0FF03CA5#32 >>> (32 - n), cnt := n, ipos := 4 } }

/-- What `build` makes of some lengths. -/
def tableOf (L : List Nat) : HuffTable := (build L.length L).getD (HuffTable.zero L.length)

theorem tableOf_built {L : List Nat} (h15 : ∀ l ∈ L, l ≤ 15) (h : (build L.length L).isSome = true) :
    BuiltFrom L.length (tableOf L) := by
  obtain ⟨T, hT⟩ := Option.isSome_iff_exists.mp h
  exact ⟨L, le_rfl, h15, by simp [tableOf, hT]⟩

/-- `olen` bytes of output, room for `cap`, a match of length `n` pending. -/
def outState (olen cap n : Nat) : State :=
  { State.reset with
    inf := { Inf.reset with phase := .syms, sub := .distance, olen := olen, outCap := BitVec.ofNat 32 cap, mlen := n } }

theorem witness_DecodeOfEncode : Instr.wf (.rowInvalid 5) = true ∧ Instr.wf (.rowInvalid 255) = true := by decide

theorem witness_EncodeOfDecode :
    (1 < 2 ^ extraBits .llsym 268 ∧ 268 < 2 ^ Format.wordBits .llsym ∧ 268 < 288) ∧
    (287 < 2 ^ Format.wordBits .llsym ∧ 287 < 288) ∧ (288 ≤ 288 ∧ 288 < 2 ^ Format.wordBits .llsym) ∧
    (127 < 2 ^ extraBits .clsym 18 ∧ 18 < 2 ^ Format.wordBits .clsym ∧ 18 ≤ 18) ∧ 18 < 19 ∧
    255 < 2 ^ Format.wordBits .filt ∧ 2 ^ Format.wordBits .filt ≤ 256 ∧ 0 < 2 ^ extraBits .filt 256 := by decide

theorem witness_PlacedInstructionIsFetched :
    (Instr.wf (.storedData 3 0xFFFC) = true ∧ (encode (.storedData 3 0xFFFC)).fmt ≠ .filt ∧
      (encode (.storedData 3 0xFFFC)).fmt ≠ .filt0) ∧
    (Instr.wf (.rowInvalid 255) = true ∧ (encode (.rowInvalid 255)).fmt = .filt) ∧
    (Instr.wf (.row0Invalid 5) = true ∧ (encode (.row0Invalid 5)).fmt = .filt0) := by decide

theorem witness_Refill :
    ((held .bhdr [0x81] 24).BitReaderOk ∧ (held .bhdr [0x81] 24).inf.cnt ≤ 24 ∧
      (held .bhdr [0x81] 24).inf.ipos < (held .bhdr [0x81] 24).inf.inLen.toNat) ∧
    ((held .bhdr [0x81] 25).BitReaderOk ∧ 24 < (held .bhdr [0x81] 25).inf.cnt) ∧
    ((held .bhdr [] 24).BitReaderOk ∧ (held .bhdr [] 24).inf.inLen.toNat ≤ (held .bhdr [] 24).inf.ipos) :=
  ⟨⟨bitReaderOk_of (by decide +kernel), by decide⟩, ⟨bitReaderOk_of (by decide +kernel), by decide⟩,
    bitReaderOk_of (by decide +kernel), by decide⟩

theorem witness_Consume :
    ((held .bhdr [] 23).BitReaderOk ∧ (held .bhdr [] 23).bitsLeft < 24) ∧
    ((held .bhdr [] 24).BitReaderOk ∧ 24 ≤ (held .bhdr [] 24).bitsLeft) :=
  ⟨⟨bitReaderOk_of (by decide +kernel), by decide⟩, bitReaderOk_of (by decide +kernel), by decide⟩

theorem witness_DecodeWindow :
    (held .syms [0x81] 15).BitReaderOk ∧ ((held .syms [] 16).BitReaderOk ∧ 16 ≤ (held .syms [] 16).inf.cnt) :=
  ⟨bitReaderOk_of (by decide +kernel), bitReaderOk_of (by decide +kernel), by decide⟩

theorem witness_Align : (held .stored [] 13).BitReaderOk := bitReaderOk_of (by decide +kernel)

theorem witness_NextByte :
    ((held .stored [] 0).BitReaderOk ∧ (held .stored [] 0).inf.cnt % 8 = 0 ∧ (held .stored [] 0).bitsLeft < 8) ∧
    ((held .stored [] 8).BitReaderOk ∧ (held .stored [] 8).inf.cnt % 8 = 0 ∧ 8 ≤ (held .stored [] 8).bitsLeft) ∧
    ((held .stored [0x81] 0).BitReaderOk ∧ (held .stored [0x81] 0).inf.cnt = 0 ∧ 8 ≤ (held .stored [0x81] 0).bitsLeft) :=
  ⟨⟨bitReaderOk_of (by decide +kernel), by decide⟩, ⟨bitReaderOk_of (by decide +kernel), by decide⟩,
    bitReaderOk_of (by decide +kernel), by decide⟩

theorem witness_BuildCountCheck :
    2 ^ 1 < List.count 1 [1, 1, 1] ∧ 2 ^ 15 < List.count 15 (List.replicate 32769 15) :=
  ⟨by decide, by rw [List.count_replicate_self]; decide⟩

-- B3, and B1, whose sum is exactly 1
theorem witness_BuildFailsIffOversubscribed :
    ((∀ l ∈ [1, 2, 2, 2], l ≤ 15) ∧ 2 ^ 15 < kraftSum [1, 2, 2, 2]) ∧
    ((∀ l ∈ [2, 1, 3, 3], l ≤ 15) ∧ kraftSum [2, 1, 3, 3] = 2 ^ 15) := by decide

theorem witness_LookupIsCanonical :
    ((∀ l ∈ [2, 1, 3, 3], l ≤ 15) ∧ (∃ T, build 4 [2, 1, 3, 3] = some T) ∧ CodeMatches [2, 1, 3, 3] 65535 3 ∧
      CodeMatches [2, 1, 3, 3] 0 1) ∧
    ((∀ l ∈ [0, 1], l ≤ 15) ∧ (∃ T, build 2 [0, 1] = some T) ∧ ¬∃ sym, CodeMatches [0, 1] 65535 sym) := by
  refine ⟨⟨by decide, Option.isSome_iff_exists.mp (by decide +kernel), by unfold CodeMatches; decide,
    by unfold CodeMatches; decide⟩, by decide, Option.isSome_iff_exists.mp (by decide +kernel), ?_⟩
  rintro ⟨sym, hlt, hne, heq⟩
  have h2 : sym < 2 := hlt
  interval_cases sym <;> revert hne heq <;> decide

-- no code; a code of 1 bit with no bit left; with one bit left
theorem witness_DecodeSymbol :
    (BuiltFrom 2 (tableOf [0, 1]) ∧ (infState [1] .syms).BitReaderOk ∧
      lookup (tableOf [0, 1]) ((infState [1] .syms).paddedField (infState [1] .syms).bitpos 16) =
        .error .invalidHuffmanTree) ∧
    (BuiltFrom 4 (tableOf [2, 1, 3, 3]) ∧ (held .syms [] 0).BitReaderOk ∧
      lookup (tableOf [2, 1, 3, 3]) ((held .syms [] 0).paddedField (held .syms [] 0).bitpos 16) = .ok (1, 1) ∧
      (held .syms [] 0).bitsLeft < 1) ∧
    ((held .syms [] 1).BitReaderOk ∧
      lookup (tableOf [2, 1, 3, 3]) ((held .syms [] 1).paddedField (held .syms [] 1).bitpos 16) = .ok (1, 1) ∧
      1 ≤ (held .syms [] 1).bitsLeft) :=
  ⟨⟨tableOf_built (L := [0, 1]) (by decide) (by decide +kernel), bitReaderOk_of (by decide +kernel), by decide +kernel⟩,
    ⟨tableOf_built (L := [2, 1, 3, 3]) (by decide) (by decide +kernel), bitReaderOk_of (by decide +kernel),
      by decide +kernel, by decide⟩,
    bitReaderOk_of (by decide +kernel), by decide +kernel, by decide⟩

theorem witness_ZlibHeader_fetch :
    ((held .zhdr [] 15).inf.phase = .zhdr ∧ (held .zhdr [] 15).inf.sub = .boundary ∧ (held .zhdr [] 15).BitReaderOk ∧
      (held .zhdr [] 15).bitsLeft < 16) ∧
    ((held .zhdr [] 16).inf.phase = .zhdr ∧ (held .zhdr [] 16).inf.sub = .boundary ∧ (held .zhdr [] 16).BitReaderOk ∧
      16 ≤ (held .zhdr [] 16).bitsLeft) :=
  ⟨⟨rfl, rfl, bitReaderOk_of (by decide +kernel), by decide⟩, rfl, rfl, bitReaderOk_of (by decide +kernel), by decide⟩

-- Z1; Z6, Z10 and a wrong check sum
theorem witness_ZlibHeader_exec :
    ((0x78#8).toNat % 16 = 8 ∧ (0x01#8).toNat / 32 % 2 = 0 ∧ ((0x78#8).toNat * 256 + (0x01#8).toNat) % 31 = 0) ∧
    (0x77#8).toNat % 16 ≠ 8 ∧ (0x20#8).toNat / 32 % 2 = 1 ∧ ((0x78#8).toNat * 256 + (0x00#8).toNat) % 31 ≠ 0 := by decide

theorem witness_BlockHeader :
    ((held .bhdr [] 2).inf.phase = .bhdr ∧ (held .bhdr [] 2).inf.sub = .boundary ∧ (held .bhdr [] 2).BitReaderOk ∧
      (held .bhdr [] 2).bitsLeft < 3) ∧
    ((held .bhdr [] 3).inf.phase = .bhdr ∧ (held .bhdr [] 3).inf.sub = .boundary ∧ (held .bhdr [] 3).BitReaderOk ∧
      3 ≤ (held .bhdr [] 3).bitsLeft) :=
  ⟨⟨rfl, rfl, bitReaderOk_of (by decide +kernel), by decide⟩, rfl, rfl, bitReaderOk_of (by decide +kernel), by decide⟩

/-- Whether a stored header fits from this state. -/
def storedFits (s : State) : Prop :=
  s.inf.phase = .stored ∧ s.inf.sub = .boundary ∧ 8 * ((s.bitpos + 7) / 8) + 32 ≤ 8 * s.inf.inLen.toNat

-- three of the four bytes are left; exactly four are
theorem witness_StoredBlock_fetch :
    ((held .stored [] 31).BitReaderOk ∧ (held .stored [] 31).inf.phase = .stored ∧ ¬storedFits (held .stored [] 31)) ∧
    ((held .stored [0x81] 31).BitReaderOk ∧ storedFits (held .stored [0x81] 31)) :=
  ⟨⟨bitReaderOk_of (by decide +kernel), rfl, by unfold storedFits; decide⟩, bitReaderOk_of (by decide +kernel),
    by unfold storedFits; decide⟩

/-- Three bytes of IN left, room for `cap` bytes of output. -/
def storedBody (cap : Nat) : State :=
  let s := infState [0x48, 0x69, 0x21] .stored
  { s with inf := { s.inf with outCap := BitVec.ofNat 32 cap } }

theorem witness_StoredBlock_exec :
    (0xFFFC#16 = 3#16 ^^^ 0xFFFF ∧ (storedBody 3).inf.ipos + (3#16).toNat ≤ (storedBody 3).inf.inLen.toNat ∧
      (storedBody 3).inf.olen + (3#16).toNat ≤ (storedBody 3).inf.outCap.toNat) ∧
    0xFEFC#16 ≠ 3#16 ^^^ 0xFFFF ∧
    (0xFFFB#16 = 4#16 ^^^ 0xFFFF ∧ (storedBody 3).inf.inLen.toNat < (storedBody 3).inf.ipos + (4#16).toNat) ∧
    (0xFFFC#16 = 3#16 ^^^ 0xFFFF ∧ (storedBody 2).inf.ipos + (3#16).toNat ≤ (storedBody 2).inf.inLen.toNat ∧
      (storedBody 2).inf.outCap.toNat < (storedBody 2).inf.olen + (3#16).toNat) := by decide

theorem witness_DynamicHeader_fetch :
    ((held .dynhdr [] 13).inf.phase = .dynhdr ∧ (held .dynhdr [] 13).inf.sub = .boundary ∧
      (held .dynhdr [] 13).BitReaderOk ∧ (held .dynhdr [] 13).bitsLeft < 14) ∧
    ((held .dynhdr [] 14).inf.phase = .dynhdr ∧ (held .dynhdr [] 14).inf.sub = .boundary ∧
      (held .dynhdr [] 14).BitReaderOk ∧ 14 ≤ (held .dynhdr [] 14).bitsLeft) :=
  ⟨⟨rfl, rfl, bitReaderOk_of (by decide +kernel), by decide⟩, rfl, rfl, bitReaderOk_of (by decide +kernel), by decide⟩

-- 11 bits left; three lengths of 1 (DH1); no length at all
theorem witness_DynamicHeader_exec :
    ((held .dynhdr [] 11).BitReaderOk ∧ (held .dynhdr [] 11).bitsLeft < 3 * ((0#4).toNat + 4)) ∧
    ((infState [0x49, 0] .dynhdr).BitReaderOk ∧ 3 * ((0#4).toNat + 4) ≤ (infState [0x49, 0] .dynhdr).bitsLeft ∧
      build Config.nCL ((infState [0x49, 0] .dynhdr).clLengths (infState [0x49, 0] .dynhdr).bitpos 4) = none) ∧
    ((infState [0, 0] .dynhdr).BitReaderOk ∧ 3 * ((0#4).toNat + 4) ≤ (infState [0, 0] .dynhdr).bitsLeft ∧
      (build Config.nCL ((infState [0, 0] .dynhdr).clLengths (infState [0, 0] .dynhdr).bitpos 4)).isSome = true) :=
  ⟨⟨bitReaderOk_of (by decide +kernel), by decide⟩,
    ⟨bitReaderOk_of (by decide +kernel), by decide, by decide +kernel⟩,
    bitReaderOk_of (by decide +kernel), by decide, by decide +kernel⟩

/-- Which clause of a token that writes `r` copies of `v` applies: 0 the header goes on, 1 it ends and both tables are built, 2 a
table is over-subscribed, 3 too many lengths. -/
def tokenCase (r : Nat) (v : BitVec 4) (s : State) : Nat :=
  let lens := s.tabs.lens ++ List.replicate r v
  if lens.length < s.total then 0
  else if lens.length = s.total then
    if (build Config.nLL ((lens.take s.inf.hlit).map BitVec.toNat)).isSome &&
      (build Config.nD ((lens.drop s.inf.hlit).map BitVec.toNat)).isSome then 1 else 2
  else 3

theorem witness_CodeLengthTokens :
    (tokenCase 1 1 (header 3 1 [1, 1]) = 0 ∧ tokenCase 1 1 (header 2 1 [1, 1]) = 1 ∧
      tokenCase 1 1 (header 3 1 [1, 1, 1]) = 2 ∧ tokenCase 1 1 (header 1 3 [1, 1, 1]) = 2 ∧
      tokenCase 1 1 (header 1 1 [1, 1]) = 3) ∧
    (tokenCase 3 1 (header 1 4 [1]) = 0 ∧ tokenCase 3 2 (header 2 2 [2]) = 1 ∧ tokenCase 3 1 (header 3 1 [1]) = 2 ∧
      tokenCase 3 1 (header 2 1 [1]) = 3) ∧
    (tokenCase 3 0 (header 2 2 []) = 0 ∧ tokenCase 3 0 (header 2 1 []) = 1 ∧ tokenCase 3 0 (header 1 1 []) = 3) ∧
    (tokenCase 138 0 (header 138 1 []) = 0 ∧ tokenCase 138 0 (header 137 1 []) = 1 ∧
      tokenCase 138 0 (header 136 1 []) = 3) ∧
    (header 1 3 [1]).tabs.lens = [] ++ [1] ∧ (header 1 1 []).tabs.lens = [] := by decide +kernel

/-- How far fetching a symbol gets: 0 the code fails, 1 its extra bits fail, 2 an instruction. -/
def fetchCase (f : Format) (T : HuffTable) (s : State) : Nat :=
  match decodeSym T s with
  | .error _ => 0
  | .ok (sym, t) =>
    match consume (extraBits f sym) t with
    | .error _ => 1
    | .ok (x, _) => if (decode f sym x).isOk then 2 else 3

/-- INF in phase SYMS with dynamic tables, a code-length table beside them. -/
def dynamicState (bytes : List Nat) : State :=
  let s := infState bytes .syms
  { s with
    inf := { s.inf with tsel := .dynamic }
    tabs := { s.tabs with dynLL := tableOf [1, 1], dynD := tableOf [0, 0, 0, 0, 1], clT := tableOf (List.replicate 18 0 ++ [1]) } }

-- nothing left; symbol 284 with no extra bits left; end of block; the same with the tables of a dynamic block
theorem witness_SymbolFetch_ll :
    fetchCase .llsym fixLL (infState [] .syms) = 0 ∧ fetchCase .llsym fixLL (infState [0x23] .syms) = 1 ∧
    fetchCase .llsym fixLL (infState [0] .syms) = 2 ∧ (infState [0] .syms).inf.tsel = .fixed ∧
    fetchCase .llsym (dynamicState [0]).tabs.dynLL (dynamicState [0]) = 2 ∧ (dynamicState [0]).inf.tsel = .dynamic ∧
    (dynamicState [0]).inf.phase = .syms ∧ (dynamicState [0]).inf.sub = .boundary := by decide +kernel
theorem witness_SymbolFetch_d :
    fetchCase .dsym fixD (within .distance (infState [] .syms)) = 0 ∧
    fetchCase .dsym fixD (within .distance (infState [0x17] .syms)) = 1 ∧
    fetchCase .dsym fixD (within .distance (infState [0] .syms)) = 2 ∧
    fetchCase .dsym (dynamicState [0]).tabs.dynD (within .distance (dynamicState [0])) = 2 ∧
    (within .distance (dynamicState [0])).inf.sub = .distance := by decide +kernel
theorem witness_SymbolFetch_cl :
    fetchCase .clsym (dynamicState []).tabs.clT (within .clTokens (dynamicState [])) = 0 ∧
    fetchCase .clsym (dynamicState [0]).tabs.clT (dropBits 1 (within .clTokens (dynamicState [0]))) = 2 ∧
    fetchCase .clsym (dynamicState [0]).tabs.clT (within .clTokens (dynamicState [0])) = 2 ∧
    (within .clTokens (dynamicState [0])).inf.sub = .clTokens := by decide +kernel

-- the windows go on with 1 bits after the codes of 143 and 255
theorem witness_Literal :
    (65533 < 65536 ∧ 65533 % 2 ^ 8 = bitrev (0b00110000 + 143) 8) ∧
    (65535 < 65536 ∧ 65535 % 2 ^ 9 = bitrev (0b110010000 + (255 - 144)) 9) ∧
    (outState 6 7 0).inf.olen + 1 ≤ (outState 6 7 0).inf.outCap.toNat ∧
    (outState 7 7 0).inf.outCap.toNat < (outState 7 7 0).inf.olen + 1 := by decide

theorem witness_EndOfBlock :
    (setFinal true (infState [] .syms)).inf.finalSeen = true ∧ (infState [] .syms).inf.finalSeen = false ∧
    65408 < 65536 ∧ 65408 % 2 ^ 7 = bitrev 0b0000000 7 := by decide

-- a window that begins with the code and goes on with 1 bits, for the first and the last code of the lengths 7 and 8
theorem witness_LengthSymbols :
    (65472 < 65536 ∧ 65472 % 2 ^ 7 = bitrev 0b0000001 7) ∧ (65412 < 65536 ∧ 65412 % 2 ^ 7 = bitrev 0b0010000 7) ∧
    (65283 < 65536 ∧ 65283 % 2 ^ 8 = bitrev 0b11000000 8) ∧ (65443 < 65536 ∧ 65443 % 2 ^ 8 = bitrev 0b11000101 8) := by
  decide

theorem witness_ReservedSymbols :
    (65379 < 65536 ∧ 65379 % 2 ^ 8 = bitrev 0b11000110 8) ∧ (65507 < 65536 ∧ 65507 % 2 ^ 8 = bitrev 0b11000111 8) ∧
    (65519 < 65536 ∧ 65519 % 2 ^ 5 = bitrev 0b11110 5) ∧ (65535 < 65536 ∧ 65535 % 2 ^ 5 = bitrev 0b11111 5) := by decide

/-- For every distance: exactly that much output and exactly enough room for the longest match; one byte less of output; one byte
less of room. -/
theorem witness_DistanceSymbols (d : Nat) (h1 : 1 ≤ d) (h : d ≤ 32768) :
    (d ≤ (outState d (d + 258) 258).inf.olen ∧
      (outState d (d + 258) 258).inf.olen + (outState d (d + 258) 258).inf.mlen ≤
        (outState d (d + 258) 258).inf.outCap.toNat) ∧
    (outState (d - 1) (d + 258) 258).inf.olen < d ∧
    (d ≤ (outState d (d + 257) 258).inf.olen ∧
      (outState d (d + 257) 258).inf.outCap.toNat <
        (outState d (d + 257) 258).inf.olen + (outState d (d + 257) 258).inf.mlen) := by
  simp only [outState, BitVec.toNat_ofNat]
  omega

theorem witness_Copy :
    (outState 0 10 3).inf.olen < 1 ∧
    (1 ≤ (outState 1 3 3).inf.olen ∧ (outState 1 3 3).inf.outCap.toNat < (outState 1 3 3).inf.olen + 3) ∧
    (1 ≤ (outState 1 4 3).inf.olen ∧ (outState 1 4 3).inf.olen + 3 ≤ (outState 1 4 3).inf.outCap.toNat) := by decide

theorem witness_RunLength :
    1 ≤ (outState 1 259 258).inf.olen ∧
    (outState 1 259 258).inf.olen + (outState 1 259 258).inf.mlen ≤ (outState 1 259 258).inf.outCap.toNat := by decide

/-- A row as the raw bytes of `RowRestores`. -/
def rawRow (vs : List Nat) (x : Nat) : Byte := BitVec.ofNat 8 (vs.getD x 0)

/-- G6 to G14: row 1. -/
def filtered1 (ft : Nat) (prev : List Nat) : State :=
  rowState 4 2 1 1 1 [0, 0x0A, 0x14, 0x1E, 0xFA, ft, 1, 2, 3, 4] prev

/-- G1 to G5: row 0. -/
def filtered0 (ft : Nat) : State := rowState 4 2 1 1 0 [ft, 0x0A, 0x14, 0x1E, 0xFA, 0, 1, 2, 3, 4] []

theorem witness_UnfilterInverts :
    RowIsFiltered (fun _ _ _ => 0) (rawRow [1, 2, 3, 4]) (filtered1 0 [0x0A, 0x14, 0x1E, 0xFA]) ∧
    RowIsFiltered (fun a _ _ => a.toNat) (rawRow [0x01, 0x03, 0x06, 0x0A]) (filtered1 1 [0x0A, 0x14, 0x1E, 0xFA]) ∧
    RowIsFiltered (fun _ b _ => b.toNat) (rawRow [0x0B, 0x16, 0x21, 0xFE]) (filtered1 2 [0x0A, 0x14, 0x1E, 0xFA]) ∧
    RowIsFiltered (fun a b _ => (a.toNat + b.toNat) / 2) (rawRow [0x06, 0x14, 0x2B, 0x34])
      (filtered1 3 [0x0A, 0x1E, 0x3C, 0x36]) ∧
    RowIsFiltered (fun a b c => (paeth a b c).toNat) (rawRow [0x0B, 0x1B, 0x2D, 0x13])
      (filtered1 4 [0x0A, 0x19, 0x2A, 0x0F]) := by
  unfold RowIsFiltered
  decide +kernel

theorem witness_UnfilterInverts_row0 :
    RowIsFiltered (fun _ _ _ => 0) (rawRow [0x0A, 0x14, 0x1E, 0xFA]) (filtered0 0) ∧
    RowIsFiltered (fun a _ _ => a.toNat) (rawRow [0x0A, 0x1E, 0x3C, 0x36]) (filtered0 1) ∧
    RowIsFiltered (fun _ b _ => b.toNat) (rawRow [0x0A, 0x14, 0x1E, 0xFA]) (filtered0 2) ∧
    RowIsFiltered (fun a b _ => (a.toNat + b.toNat) / 2) (rawRow [0x0A, 0x19, 0x2A, 0x0F]) (filtered0 3) ∧
    RowIsFiltered (fun a b c => (paeth a b c).toNat) (rawRow [0x0A, 0x1E, 0x3C, 0x36]) (filtered0 4) ∧
    (filtered0 4).slr.row = 0 := by
  unfold RowIsFiltered
  decide +kernel

-- the last byte of the last row
theorem witness_VerticalFlip :
    (flipState 3 3 1 []).disturbed = false ∧ (flipState 3 3 1 []).slr.phase = .flipping ∧ 2 < (flipState 3 3 1 []).slr.height.toNat ∧
    2 < (flipState 3 3 1 []).slr.width.toNat * (flipState 3 3 1 []).slr.outCh.toNat := by decide

theorem witness_InvalidFilterByte : 5 ≤ (5#8).toNat ∧ 5 ≤ (255#8).toNat := by decide

theorem witness_FaultingStepWritesNothing :
    ((infState [7] .bhdr).infBusy = true ∧ (infState [7] .bhdr).inf.sub = .boundary ∧
      ∃ t, infStep (infState [7] .bhdr) = .next t ∧ t.inf.phase = .error) ∧
    ((filtered1 5 []).slrBusy = true ∧ ∃ t, slrStep (filtered1 5 []) = .next t ∧ t.slr.phase = .error) :=
  ⟨⟨rfl, rfl, onNext_eq_some (f := fun t => t.inf.phase) (by decide +kernel)⟩, rfl,
    onNext_eq_some (f := fun t => t.slr.phase) (by decide +kernel)⟩

theorem witness_ErrorRegisters :
    (infState [7] .bhdr).ErrorsOk ∧ ∃ t, step (infState [7] .bhdr) = .next t ∧ t.inf.phase = .error :=
  ⟨by unfold State.ErrorsOk; decide, onNext_eq_some (f := fun t => t.inf.phase) (by decide +kernel)⟩

theorem witness_DiagFirstFailure :
    (infState [7] .bhdr).diag = 0 ∧ { infState [7] .bhdr with diag := 255 }.diag ≠ 0 ∧
    ∃ t, unitStep { infState [7] .bhdr with diag := 255 } = .next t ∧ t.inf.phase = .error :=
  ⟨rfl, by decide, onNext_eq_some (f := fun t => t.inf.phase) (by decide +kernel)⟩

-- the moves of the host: INF busy, SLR busy, neither
theorem witness_StepRunsDecoded_host :
    { State.reset with hostQueue := [.pass 1, .wait .inf] }.hostQueue = .pass 1 :: [.wait .inf] ∧
    ((infState [] .bhdr).infBusy = true ∧ (infState [] .bhdr).slrBusy = false) ∧
    ((filtered0 0).infBusy = false ∧ (filtered0 0).slrBusy = true) ∧ State.reset.infBusy = false ∧
    State.reset.slrBusy = false := by decide

-- a fixed block header; nothing left; the last illegal filter byte of row 1, the first of row 0
theorem witness_StepRunsDecoded :
    ((infState [3] .bhdr).hostQueue = [] ∧ (infState [3] .bhdr).infBusy = true ∧ (infState [3] .bhdr).slrBusy = false ∧
      (infState [3] .bhdr).lengthsFit = true ∧
      (match fetchWord (infState [3] .bhdr).infFormat (infState [3] .bhdr) with
        | .ok ((w, x), _) => decide (decode (infState [3] .bhdr).infFormat w x = .ok (.blkFixed true))
        | .error _ => false) = true) ∧
    ((infState [] .bhdr).lengthsFit = true ∧
      (match fetchWord (infState [] .bhdr).infFormat (infState [] .bhdr) with
        | .ok _ => false
        | .error f => decide (f = .insufficientData)) = true) ∧
    ((filtered1 255 []).hostQueue = [] ∧ (filtered1 255 []).infBusy = false ∧ (filtered1 255 []).slr.phase = .rows ∧
      (filtered1 255 []).disturbed = false ∧ decode .filt ((filtered1 255 []).read .out 5).toNat 0 = .ok (.rowInvalid 255)) ∧
    ((filtered0 5).infBusy = false ∧ (filtered0 5).slr.phase = .rows ∧ (filtered0 5).disturbed = false ∧
      decode .filt0 ((filtered0 5).read .out 0).toNat 0 = .ok (.row0Invalid 5)) := by decide +kernel

/-- INF busy with the given lengths. -/
def lengths (inLen outCap : Nat) : State :=
  let s := infState [] .bhdr
  { s with inf := { s.inf with inLen := BitVec.ofNat 32 inLen, outCap := BitVec.ofNat 32 outCap }, caps := { s.caps with inCap := 4, outCapMax := 4 } }

theorem witness_UnitsAtRest :
    (State.reset.hostQueue = [] ∧ State.reset.infBusy = false ∧ State.reset.slrBusy = false) ∧
    ({ filtered0 0 with inf := (infState [] .bhdr).inf }.hostQueue = [] ∧
      { filtered0 0 with inf := (infState [] .bhdr).inf }.infBusy = true ∧
      { filtered0 0 with inf := (infState [] .bhdr).inf }.slrBusy = true) ∧
    ((lengths 5 4).infBusy = true ∧ (lengths 5 4).slrBusy = false ∧ (lengths 5 4).caps.inCap < (lengths 5 4).inf.inLen.toNat) ∧
    ((lengths 4 5).infBusy = true ∧ (lengths 4 5).caps.outCapMax < (lengths 4 5).inf.outCap.toNat) := by decide

/-- SLR at a row, or in the flip, of a run the host has disturbed. -/
def disturbedRun (s : State) : State := { s with disturbed := true }

-- a restart; the last row, whose filter byte is illegal; the flip
theorem witness_RestartUnderSlr :
    ((filtered1 5 []).infBusy = false ∧ (filtered1 5 []).slrBusy = true ∧ (1#32).getLsbD 0 = true) ∧
    ((disturbedRun (filtered1 5 [])).disturbed = true ∧ (disturbedRun (filtered1 5 [])).slrBusy = true ∧
      (disturbedRun (filtered1 5 [])).slr.phase = .rows) ∧
    ((disturbedRun (flipState 3 3 1 [])).slrBusy = true ∧ (disturbedRun (flipState 3 3 1 [])).slr.phase = .flipping) := by
  decide

-- one byte of output; none
theorem witness_InfWritesOnlyNewOutput :
    (∃ t, infStep (infState [0b10001001] .syms) = .next t ∧ t.inf.olen = 1) ∧
    ∃ t, infStep (infState [] .syms) = .next t ∧ t.inf.olen = 0 :=
  ⟨onNext_eq_some (f := fun t => t.inf.olen) (by decide +kernel), onNext_eq_some (f := fun t => t.inf.olen) (by decide +kernel)⟩

theorem rowRunOk : (filtered1 4 [0x0A, 0x19, 0x2A, 0x0F]).SlrRunOk :=
  ⟨by decide, by decide, by decide, by decide, by decide, by decide, by decide, by decide, by decide⟩

theorem flipRunOk : { flipState 3 3 1 [] with inf := { (flipState 3 3 1 []).inf with olen := 12 } }.SlrRunOk :=
  ⟨by decide, by decide, by decide, by decide, by decide, by decide, by decide, by decide, by decide⟩

theorem witness_SlrWritesOnlyRowsAndImage :
    ((filtered1 4 [0x0A, 0x19, 0x2A, 0x0F]).slrBusy = true ∧ (filtered1 4 [0x0A, 0x19, 0x2A, 0x0F]).SlrRunOk ∧
      (filtered1 4 [0x0A, 0x19, 0x2A, 0x0F]).disturbed = false ∧ (filtered1 4 [0x0A, 0x19, 0x2A, 0x0F]).stride ≤ 4 ∧ (filtered1 4 [0x0A, 0x19, 0x2A, 0x0F]).imgSize ≤ 8 ∧
      ∃ t, slrStep (filtered1 4 [0x0A, 0x19, 0x2A, 0x0F]) = .next t ∧ t.slr.phase = .done) ∧
    ({ flipState 3 3 1 [] with inf := { (flipState 3 3 1 []).inf with olen := 12 } }.slrBusy = true ∧
      { flipState 3 3 1 [] with inf := { (flipState 3 3 1 []).inf with olen := 12 } }.SlrRunOk ∧
      ∃ t, slrStep { flipState 3 3 1 [] with inf := { (flipState 3 3 1 []).inf with olen := 12 } } = .next t ∧ t.slr.phase = .done) :=
  ⟨⟨rfl, rowRunOk, rfl, by decide, by decide, onNext_eq_some (f := fun t => t.slr.phase) (by decide +kernel)⟩, rfl, flipRunOk,
    onNext_eq_some (f := fun t => t.slr.phase) (by decide +kernel)⟩

-- a write that the busy unit ignores; a step of SLR
theorem witness_ConfigurationConstant :
    ((∃ t, step { infState [3] .bhdr with hostQueue := [.write 3 0] } = .next t ∧ t.inf.inLen = 1) ∧
      { infState [3] .bhdr with hostQueue := [.write 3 0] }.infBusy = true ∧
      ∀ rest, { infState [3] .bhdr with hostQueue := [.write 3 0] }.hostQueue ≠ .reset :: rest) ∧
    ((∃ t, step (filtered0 1) = .next t ∧ t.slr.row = 1) ∧ (filtered0 1).slrBusy = true ∧
      ∀ rest, (filtered0 1).hostQueue ≠ .reset :: rest) :=
  ⟨⟨onNext_eq_some (f := fun t => t.inf.inLen) (by decide +kernel), rfl, fun _ => by simp⟩,
    onNext_eq_some (f := fun t => t.slr.row) (by decide +kernel), rfl, fun _ => by simp [filtered0, rowState, State.reset]⟩

-- the step that consumes the last bit of the stream
theorem witness_Progress :
    ((infState [0x78, 0x01] .zhdr).infBusy = true ∧ (infState [0x78, 0x01] .zhdr).BitReaderOk ∧
      (infState [0x78, 0x01] .zhdr).ElementOk ∧
      ∃ t, infStep (infState [0x78, 0x01] .zhdr) = .next t ∧ (t.inf.phase, t.bitpos) = (.bhdr, 16)) ∧
    ((filtered0 1).slr.phase = .rows ∧ ∃ t, slrStep (filtered0 1) = .next t ∧ t.slr.phase = .rows) :=
  ⟨⟨rfl, bitReaderOk_of (by decide +kernel), ⟨rfl, fun h => absurd h (by decide)⟩,
      onNext_eq_some (f := fun t => (t.inf.phase, t.bitpos)) (by decide +kernel)⟩,
    rfl, onNext_eq_some (f := fun t => t.slr.phase) (by decide +kernel)⟩

theorem witness_InfStart :
    State.reset.infBusy = false ∧ (3#32).getLsbD 0 = true ∧ (2#32).getLsbD 0 = false ∧ (infState [] .syms).infBusy = true := by
  decide

theorem witness_SlrStart :
    State.reset.slrBusy = false ∧ (1#32).getLsbD 0 = true ∧ (2#32).getLsbD 0 = false ∧ (filtered0 0).slrBusy = true := by
  decide

theorem witness_BusyWritesIgnored : (infState [] .zhdr).infBusy = true ∧ (filtered0 0).slrBusy = true := by decide

theorem witness_RegisterMap : State.reset.infBusy = false ∧ State.reset.slrBusy = false := by decide

theorem witness_ResetRegisters :
    ∃ u s, hostMove .reset u = .next s ∧ u.inf.phase = .syms ∧ s ≠ State.reset :=
  ⟨infState [7] .syms, _, rfl, rfl, by decide +kernel⟩

-- the last index of a space and the first one it does not have
theorem witness_HostMemoryWrite :
    (State.reset.infBusy = false ∧ State.reset.slrBusy = false ∧
      State.reset.capacity .inn - 1 < State.reset.capacity .inn ∧ State.reset.capacity .inn ≤ State.reset.capacity .inn) ∧
    (infState [] .bhdr).infBusy = true ∧ (filtered0 0).slrBusy = true := by decide

theorem witness_HostMemoryRead :
    (State.reset.infBusy = false ∧ State.reset.slrBusy = false ∧
      State.reset.capacity .img - 1 < State.reset.capacity .img ∧ State.reset.capacity .img ≤ State.reset.capacity .img ∧
      ∃ t, hostMove (.writeMem .img 7 5) State.reset = .next t ∧ t.read .img 7 = 5) ∧
    (infState [] .bhdr).infBusy = true ∧ (filtered0 0).slrBusy = true :=
  ⟨⟨by decide, by decide, by decide, by decide, onNext_eq_some (f := fun t => t.read .img 7) (by decide +kernel)⟩,
    by decide, by decide⟩

theorem witness_StepKeepsMemories :
    (infState [0b10001001] .syms).memoriesOk = true ∧
    ∃ t, step (infState [0b10001001] .syms) = .next t ∧ t.inf.olen = 1 :=
  ⟨by decide, onNext_eq_some (f := fun t => t.inf.olen) (by decide +kernel)⟩

theorem witness_StepKeepsInfRun :
    (infState [0b10001001] .syms).InfRunOk ∧
    ∃ t, step (infState [0b10001001] .syms) = .next t ∧ (t.infBusy, t.inf.olen) = (true, 1) :=
  ⟨fun _ => ⟨bitReaderOk_of (by decide +kernel), by decide⟩,
    onNext_eq_some (f := fun t => (t.infBusy, t.inf.olen)) (by decide +kernel)⟩

-- the last step of a dynamic header
theorem witness_StepKeepsElement :
    dynP4.ElementOk ∧ ∃ t, step dynP4 = .next t ∧ (t.inf.phase, t.inf.tsel) = (.syms, .dynamic) :=
  ⟨⟨rfl, fun h => absurd h (by decide)⟩, onNext_eq_some (f := fun t => (t.inf.phase, t.inf.tsel)) (by decide +kernel)⟩

theorem witness_StepKeepsSlrRun :
    ((filtered0 1).slrBusy = true → (filtered0 1).SlrRunOk) ∧
    ∃ t, step (filtered0 1) = .next t ∧ (t.slrBusy, t.slr.row) = (true, 1) :=
  ⟨fun _ => ⟨by decide, by decide, by decide, by decide, by decide, by decide, by decide, by decide, by decide⟩,
    onNext_eq_some (f := fun t => (t.slrBusy, t.slr.row)) (by decide +kernel)⟩

end Sys2Proof.Tests
end

/-! PROOFS for the family 00_scope: what a step of the machine runs (O42), and where it ends (O58). -/

namespace Sys2Proof.Machine

/-! ### The step, by the unit that takes it -/

theorem step_of_host_move {s : State} {op : HostOp} {rest : List HostOp} (h : s.hostQueue = op :: rest) :
    step s = hostMove op { s with hostQueue := rest } := by
  unfold step machineStep
  rw [h]

theorem step_of_no_host_move {s : State} (h : s.hostQueue = []) : step s = unitStep s := by
  unfold step machineStep
  rw [h]

theorem unitStep_of_inf {s : State} (hi : s.infBusy = true) (hs : s.slrBusy = false) (hl : s.lengthsFit = true) :
    unitStep s = infStep s := by
  simp [unitStep, infTurn, hi, hs, hl]

theorem unitStep_of_slr {s : State} (hi : s.infBusy = false) (hs : s.slrBusy = true) : unitStep s = slrStep s := by
  simp [unitStep, hi, hs]

/-! ### A row of INF -/

theorem decode_eq_ok {f : Format} {w x : Nat} {i : Instr} : decode f w x = .ok i ↔ decodeRow f w x = some i := by
  unfold decode
  cases decodeRow f w x <;> simp

theorem infRow_of_decoded {s t : State} {w x : Nat} {i : Instr} (hf : fetchWord s.infFormat s = .ok ((w, x), t))
    (hd : decode s.infFormat w x = .ok i) : infRow s = exec i t := by
  simp [infRow, fetchInf, hf, hd, runFetched]

theorem infRow_of_raise {s : State} {f : FaultCode} (hf : fetchWord s.infFormat s = .error f) :
    infRow s = .next (infFault f s) := by
  simp [infRow, fetchInf, hf, runFetched]

theorem finishElement_next (n : Nat) (s : State) :
    finishElement (n + 1) (.next s) = if s.inf.sub = .boundary then .next s else finishElement n (infRow s) := rfl

/-- A row of SLR: the filter byte decoded. -/
theorem slrStep_of_decoded {s : State} {i : Instr} (hp : s.slr.phase = .rows) (hd : s.disturbed = false)
    (hi : decode s.slrFormat (s.read .out s.rowBase).toNat 0 = .ok i) : slrStep s = exec i s := by
  simp [slrStep, fetchSlr, runFetched, hp, hd, hi]

theorem slrBusy_of_rows {s : State} (h : s.slr.phase = .rows) : s.slrBusy = true := by
  simp [State.slrBusy, h]

/-! ### The host waits or passes -/

theorem hostMove_wait_idle (u : CoreUnit) {s : State} (h : s.busy u = false) : hostMove (.wait u) s = .next s := by
  simp [hostMove, h]

theorem hostMove_wait_busy (u : CoreUnit) {s : State} (h : s.busy u = true) :
    hostMove (.wait u) s = unitStep { s with hostQueue := .wait u :: s.hostQueue } := by
  simp [hostMove, h]

theorem hostMove_pass_idle (n : Nat) {s : State} (hi : s.infBusy = false) (hs : s.slrBusy = false) :
    hostMove (.pass (n + 1)) s = .next s := by
  simp [hostMove, hi, hs]

theorem hostMove_pass_busy (n : Nat) {s : State} (h : s.infBusy = true ∨ s.slrBusy = true) :
    hostMove (.pass (n + 1)) s = unitStep { s with hostQueue := .pass n :: s.hostQueue } := by
  simp [hostMove, h]

/-- Settles O42: a pending move by the equations of `hostMove`, else by the equation of the unit that takes the step. -/
theorem stepRunsDecoded : Obligations.StepRunsDecoded := by
  unfold Obligations.StepRunsDecoded
  refine ⟨fun _ _ _ => step_of_host_move, fun s => ?_, fun s hq => ?_⟩
  · exact ⟨fun _ _ => rfl, fun _ _ _ => rfl, rfl, hostMove_wait_idle .inf, hostMove_wait_busy .inf,
      hostMove_wait_idle .slr, hostMove_wait_busy .slr, rfl, fun n => ⟨hostMove_pass_idle n, hostMove_pass_busy n⟩⟩
  · rw [step_of_no_host_move hq]
    refine ⟨rfl, fun hi hs hl => ?_, fun hi hp hd i hdec => ?_, finishElement_next⟩
    · rw [unitStep_of_inf hi hs hl, infStep]
      refine ⟨fun w x t i hf hdec => ?_, fun f hf => ?_⟩
      · rw [infRow_of_decoded hf hdec]
      · rw [infRow_of_raise hf, finishElement_next, if_pos (infFault_sub f s)]
    · rw [unitStep_of_slr hi (slrBusy_of_rows hp), slrStep_of_decoded hp hd hdec]

/-! ### What the instructions of each format of INF mean -/

theorem infEnd_eq_next {s t : State} {r : Except FaultCode State} :
    infEnd s r = .next t ↔ r = .ok t ∨ ∃ f, r = .error f ∧ t = infFault f s := by
  cases r <;> simp [infEnd, eq_comm]

/-- A length symbol is a length of at least 3, a reserved one InvalidSymbol (R225 to R254). -/
theorem decodeLen_exec {code x : Nat} {i : Instr} (h : decodeLen code x = some i) :
    (∃ base e, 3 ≤ base ∧ ∀ s, exec i s = lengthToken base e s) ∨
      ∀ s, exec i s = infEnd s (.error .invalidSymbol) := by
  unfold decodeLen at h
  split at h <;> cases h
  case h_30 | h_31 => exact .inr fun _ => rfl
  all_goals exact .inl ⟨_, _, by decide, fun _ => rfl⟩

/-- A distance symbol is a distance of at least 1, a reserved one InvalidSymbol (R261 to R292). -/
theorem decodeDist_exec {sym x : Nat} {i : Instr} (h : decodeDist sym x = some i) :
    (∃ base f, 1 ≤ base ∧ ∀ s, exec i s = distanceToken base f s) ∨
      ∀ s, exec i s = infEnd s (.error .invalidSymbol) := by
  unfold decodeDist at h
  split at h <;> cases h
  case h_31 | h_32 => exact .inr fun _ => rfl
  all_goals exact .inl ⟨_, _, by decide, fun _ => rfl⟩

/-- A code-length symbol writes copies of one length, or has no length to repeat (R201 to R204). -/
theorem decodeCl_exec {sym x : Nat} {i : Instr} (h : decodeCl sym x = some i) (s : State) :
    (∃ r v, 1 ≤ r ∧ exec i s = infEnd s (addLengths r v s)) ∨ exec i s = infEnd s (.error .invalidHuffmanTree) := by
  unfold decodeCl at h
  split_ifs at h <;> cases h
  · exact .inl ⟨1, _, le_rfl, rfl⟩
  · cases hl : s.tabs.lens.getLast? with
    | none => exact .inr (by simp only [exec, execCl16, hl])
    | some v => exact .inl ⟨repCount16 (BitVec.ofNat 2 x), v, Nat.le_add_right_of_le (by decide),
        by simp only [exec, execCl16, hl]⟩
  · exact .inl ⟨repCount17 _, 0, Nat.le_add_right_of_le (by decide), rfl⟩
  · exact .inl ⟨repCount18 _, 0, Nat.le_add_right_of_le (by decide), rfl⟩

/-- Bytes copied from the output already there, then the boundary: the end of a match (R223, R295). -/
def endMatch (distance : Nat) (s : State) : State :=
  { copyLoop distance s.inf.mlen s with inf := { (copyLoop distance s.inf.mlen s).inf with sub := .boundary } }

/-- The lengths of a header written so far (R196). -/
def withLens (lens : List (BitVec 4)) (s : State) : State := { s with tabs := { s.tabs with lens := lens } }

/-- The tables of a header in place and `syms` entered with them (R200). -/
def enterDynamic (ll d : HuffTable) (s : State) : State :=
  setPhase .syms (setTsel .dynamic { s with tabs := { s.tabs with dynLL := ll, dynD := d } })

/-- All that executing an instruction of a format of INF can do, from the state `s` its fetch left (R181 to R292). -/
inductive RowResult : Format → State → State → Prop
  | raise (f e s) : RowResult f s (infFault e s)
  | zlibHeader (s) : RowResult .zhdr s (setPhase .bhdr s)
  | storedHeader (b s) : RowResult .bhdr s (setPhase .stored (setFinal b s))
  | fixedHeader (b s) : RowResult .bhdr s (setPhase .syms (setTsel .fixed (setFinal b s)))
  | dynamicHeader (b s) : RowResult .bhdr s (setPhase .dynhdr (setFinal b s))
  | reservedHeader (b s) : RowResult .bhdr s (infFault .invalidBlockType (setFinal b s))
  | storedData (n) (s : State) (inRoom : s.inf.ipos + n ≤ s.inf.inLen.toNat)
      (outRoom : s.inf.olen + n ≤ s.inf.outCap.toNat) : RowResult .stored s (blockEnd (copyStored n s))
  | counts (hlit hdist : BitVec 5) (hclen clLen clT s t)
      (read : readClLens (hclenCount hclen) 0 (List.replicate 19 0) s = .ok (clLen, t))
      (built : build Config.nCL (clLen.map BitVec.toNat) = some clT) :
      RowResult .dynhdr s (startTokens (hlitCount hlit) (hdistCount hdist) clLen clT t)
  | lengths (r v) (s : State) (pos : 1 ≤ r) (more : s.tabs.lens.length + r < s.total) :
      RowResult .clsym s (withLens (s.tabs.lens ++ List.replicate r v) s)
  | lastLengths (r v ll d) (s : State) (pos : 1 ≤ r) (all : s.tabs.lens.length + r = s.total)
      (hll : build Config.nLL (((s.tabs.lens ++ List.replicate r v).take s.inf.hlit).map BitVec.toNat) = some ll)
      (hd : build Config.nD (((s.tabs.lens ++ List.replicate r v).drop s.inf.hlit).map BitVec.toNat) = some d) :
      RowResult .clsym s (enterDynamic ll d (withLens (s.tabs.lens ++ List.replicate r v) s))
  | literal (b) (s : State) (room : s.inf.olen + 1 ≤ s.inf.outCap.toNat) : RowResult .llsym s (pushOut b s)
  | endOfBlock (s) : RowResult .llsym s (blockEnd s)
  | length (n) (s : State) (min : 3 ≤ n) :
      RowResult .llsym s { s with inf := { s.inf with mlen := n, sub := .distance } }
  | distance (d) (s : State) (pos : 1 ≤ d) (reach : d ≤ s.inf.olen)
      (room : s.inf.olen + s.inf.mlen ≤ s.inf.outCap.toNat) : RowResult .dsym s (endMatch d s)

theorem execZhdr_result {cmf flg : Byte} {s t : State} (h : execZhdr cmf flg s = .next t) : RowResult .zhdr s t := by
  obtain h | ⟨f, -, rfl⟩ := infEnd_eq_next.1 h
  · split_ifs at h
    cases h
    exact .zlibHeader s
  · exact .raise _ f s

theorem decodeBlk_result {w : Nat} {i : Instr} {s t : State} (hi : decodeBlk w = some i) (h : exec i s = .next t) :
    RowResult .bhdr s t := by
  unfold decodeBlk at hi
  split at hi <;> cases hi <;> cases h
  · exact .storedHeader _ s
  · exact .fixedHeader _ s
  · exact .dynamicHeader _ s
  · exact .reservedHeader _ s

theorem execStoredData_result {len nlen : BitVec 16} {s t : State} (h : execStoredData len nlen s = .next t) :
    RowResult .stored s t := by
  obtain h | ⟨f, -, rfl⟩ := infEnd_eq_next.1 h
  · split_ifs at h with _ hin hout
    cases h
    exact .storedData _ s (by omega) (by omega)
  · exact .raise _ f s

theorem execDyn_result {hlit hdist : BitVec 5} {hclen : BitVec 4} {s t : State}
    (h : execDyn hlit hdist hclen s = .next t) : RowResult .dynhdr s t := by
  obtain h | ⟨f, -, rfl⟩ := infEnd_eq_next.1 h
  · split at h
    · cases h
    · rename_i clLen u read
      split at h
      · cases h
      · rename_i clT built
        cases h
        exact .counts hlit hdist hclen clLen clT s u read built
  · exact .raise _ f s

theorem finishHeader_eq_ok {s t : State} (h : finishHeader s = .ok t) :
    ∃ ll d, build Config.nLL ((s.tabs.lens.take s.inf.hlit).map BitVec.toNat) = some ll ∧
      build Config.nD ((s.tabs.lens.drop s.inf.hlit).map BitVec.toNat) = some d ∧ t = enterDynamic ll d s := by
  unfold finishHeader at h
  split at h
  · cases h
  · rename_i ll hll
    split at h
    · cases h
    · rename_i d hd
      cases h
      exact ⟨ll, d, hll, hd, rfl⟩

theorem addLengths_result {r : Nat} {v : BitVec 4} {s t : State} (pos : 1 ≤ r) (h : addLengths r v s = .ok t) :
    RowResult .clsym s t := by
  unfold addLengths at h
  have hlen : (s.tabs.lens ++ List.replicate r v).length = s.tabs.lens.length + r := by simp
  split_ifs at h with hover
  change (if (s.tabs.lens ++ List.replicate r v).length < s.total then
    Except.ok (withLens (s.tabs.lens ++ List.replicate r v) s)
    else finishHeader (withLens (s.tabs.lens ++ List.replicate r v) s)) = _ at h
  rw [hlen] at h
  split_ifs at h with hmore
  · cases h
    exact .lengths r v s pos hmore
  · obtain ⟨ll, d, hll, hd, rfl⟩ := finishHeader_eq_ok h
    exact .lastLengths r v ll d s pos (by omega) hll hd

theorem decodeCl_result {w x : Nat} {i : Instr} {s t : State} (hi : decodeCl w x = some i) (h : exec i s = .next t) :
    RowResult .clsym s t := by
  obtain ⟨r, v, pos, e⟩ | e := decodeCl_exec hi s <;> rw [e] at h
  · obtain h | ⟨f, -, rfl⟩ := infEnd_eq_next.1 h
    · exact addLengths_result pos h
    · exact .raise _ f s
  · cases h
    exact .raise _ _ s

theorem decodeLL_result {w x : Nat} {i : Instr} {s t : State} (hi : decodeLL w x = some i) (h : exec i s = .next t) :
    RowResult .llsym s t := by
  unfold decodeLL at hi
  split_ifs at hi
  · cases hi
    obtain h | ⟨f, -, rfl⟩ := infEnd_eq_next.1 h
    · split_ifs at h with hroom
      cases h
      exact .literal _ s (by omega)
    · exact .raise _ f s
  · cases hi
    cases h
    exact .endOfBlock s
  · obtain ⟨base, e, min, he⟩ | he := decodeLen_exec hi <;> rw [he] at h <;> cases h
    · exact .length _ s (by omega)
    · exact .raise _ _ s

theorem distanceToken_result {base f : Nat} {s t : State} (pos : 1 ≤ base) (h : distanceToken base f s = .next t) :
    RowResult .dsym s t := by
  obtain h | ⟨e, -, rfl⟩ := infEnd_eq_next.1 h
  · unfold copyMatch at h
    by_cases hreach : s.inf.olen < base + f
    · rw [if_pos hreach] at h
      cases h
    by_cases hroom : s.inf.outCap.toNat < s.inf.olen + s.inf.mlen
    · rw [if_neg hreach, if_pos hroom] at h
      cases h
    rw [if_neg hreach, if_neg hroom] at h
    cases h
    exact .distance (base + f) s (by omega) (by omega) (by omega)
  · exact .raise _ e s

theorem decodeDist_result {w x : Nat} {i : Instr} {s t : State} (hi : decodeDist w x = some i) (h : exec i s = .next t) :
    RowResult .dsym s t := by
  obtain ⟨base, f, pos, e⟩ | e := decodeDist_exec hi <;> rw [e] at h
  · exact distanceToken_result pos h
  · cases h
    exact .raise _ _ s

/-- Executing what INF decodes in a format does what `RowResult` says. -/
theorem exec_result {f : Format} {w x : Nat} {i : Instr} {s t : State} (hf : f ≠ .filt) (hf0 : f ≠ .filt0)
    (hd : decode f w x = .ok i) (h : exec i s = .next t) : RowResult f s t := by
  have hi := decode_eq_ok.1 hd
  cases f with
  | zhdr =>
    obtain ⟨-, hi⟩ := Option.ite_none_right_eq_some.1 hi
    cases hi
    exact execZhdr_result h
  | bhdr => exact decodeBlk_result hi h
  | stored =>
    obtain ⟨-, hi⟩ := Option.ite_none_right_eq_some.1 hi
    cases hi
    exact execStoredData_result h
  | dynhdr =>
    obtain ⟨-, hi⟩ := Option.ite_none_right_eq_some.1 hi
    cases hi
    exact execDyn_result h
  | clsym => exact decodeCl_result hi h
  | llsym => exact decodeLL_result hi h
  | dsym => exact decodeDist_result hi h
  | filt => exact absurd rfl hf
  | filt0 => exact absurd rfl hf0

/-! ### The rows of an element -/

theorem infFormat_ne_filt (s : State) : s.infFormat ≠ .filt ∧ s.infFormat ≠ .filt0 := by
  unfold State.infFormat
  cases s.inf.sub <;> cases s.inf.phase <;> decide

/-- At a boundary INF reads neither a code-length symbol nor a distance symbol. -/
theorem infFormat_of_boundary {s : State} (h : s.inf.sub = .boundary) :
    s.infFormat ≠ .clsym ∧ s.infFormat ≠ .dsym := by
  unfold State.infFormat
  rw [h]
  cases s.inf.phase <;> decide

theorem infFormat_of_clTokens {s : State} (h : s.inf.sub = .clTokens) : s.infFormat = .clsym := by
  simp [State.infFormat, h]

theorem infFormat_of_distance {s : State} (h : s.inf.sub = .distance) : s.infFormat = .dsym := by
  simp [State.infFormat, h]

/-- A row enters a fault of its fetch, or moves the bit reader and does what its format allows. -/
theorem infRow_result {s t : State} (h : infRow s = .next t) :
    (∃ f, t = infFault f s) ∨ ∃ u, OnlyReader s u ∧ RowResult s.infFormat u t := by
  obtain hf | ⟨w, x, u, i, hw, hd, he⟩ := infRow_cases h
  · exact .inl hf
  · obtain ⟨hfilt, hfilt0⟩ := infFormat_ne_filt s
    exact .inr ⟨u, fetchWord_onlyReader hw, exec_result hfilt hfilt0 hd he⟩

theorem OnlyReader.eq {s t : State} (h : OnlyReader s t) :
    t = { s with inf := { s.inf with acc := t.inf.acc, cnt := t.inf.cnt, ipos := t.inf.ipos } } := h

theorem infFormat_onlyReader {s t : State} (h : OnlyReader s t) : t.infFormat = s.infFormat := by
  rw [h.eq]
  rfl

/-- The dynamic tables are built ones if a symbol step is next and reads them. -/
def State.TablesOk (s : State) : Prop :=
  s.inf.phase = .syms → s.inf.tsel = .dynamic → BuiltFrom Config.nLL s.tabs.dynLL ∧ BuiltFrom Config.nD s.tabs.dynD

theorem elementOk_iff (s : State) : s.ElementOk ↔ s.inf.sub = .boundary ∧ s.TablesOk := Iff.rfl

theorem tablesOk_of_phase {s : State} (h : s.inf.phase ≠ .syms) : s.TablesOk := fun hp => absurd hp h

theorem tablesOk_congr {s t : State} (hp : t.inf.phase = s.inf.phase) (hs : t.inf.tsel = s.inf.tsel)
    (ht : t.tabs = s.tabs) : t.TablesOk ↔ s.TablesOk := by
  simp only [State.TablesOk, hp, hs, ht]

/-- What holds between the rows of an element that ends within `n` more rows: inside a match one row is left; inside a header
each row writes at least one of the lengths that are missing, of which the counts allow no more than the tables hold. -/
def State.RowsLeft (n : Nat) (s : State) : Prop :=
  match s.inf.sub with
  | .boundary => s.TablesOk
  | .distance => s.TablesOk ∧ 1 ≤ n
  | .clTokens => s.inf.hlit ≤ Config.nLL ∧ s.inf.hdist ≤ Config.nD ∧ s.tabs.lens.length < s.total ∧
      s.total ≤ s.tabs.lens.length + n

theorem rowsLeft_boundary {n : Nat} {s : State} (h : s.inf.sub = .boundary) : s.RowsLeft n ↔ s.ElementOk := by
  simp [State.RowsLeft, elementOk_iff, h]

theorem rowsLeft_of_elementOk {n : Nat} {s : State} (h : s.ElementOk) : s.RowsLeft n :=
  (rowsLeft_boundary h.1).2 h

theorem rowsLeft_distance {n : Nat} {s : State} (h : s.inf.sub = .distance) : s.RowsLeft n ↔ s.TablesOk ∧ 1 ≤ n := by
  simp [State.RowsLeft, h]

theorem rowsLeft_clTokens {n : Nat} {s : State} (h : s.inf.sub = .clTokens) :
    s.RowsLeft n ↔ s.inf.hlit ≤ Config.nLL ∧ s.inf.hdist ≤ Config.nD ∧ s.tabs.lens.length < s.total ∧
      s.total ≤ s.tabs.lens.length + n := by
  simp [State.RowsLeft, h]

theorem rowsLeft_onlyReader {n : Nat} {s t : State} (h : OnlyReader s t) : t.RowsLeft n ↔ s.RowsLeft n := by
  rw [h.eq]
  exact Iff.rfl

theorem elementOk_onlyReader {s t : State} (h : OnlyReader s t) : t.ElementOk ↔ s.ElementOk := by
  rw [h.eq]
  exact Iff.rfl

/-- An element with no rows left has ended. -/
theorem elementOk_of_rowsLeft_zero {s : State} (h : s.RowsLeft 0) : s.ElementOk := by
  cases hs : s.inf.sub with
  | boundary => exact (rowsLeft_boundary hs).1 h
  | distance =>
    obtain ⟨-, h0⟩ := (rowsLeft_distance hs).1 h
    omega
  | clTokens =>
    obtain ⟨-, -, hmore, hend⟩ := (rowsLeft_clTokens hs).1 h
    omega

theorem elementOk_infFault (f : FaultCode) (s : State) : (infFault f s).ElementOk :=
  ⟨rfl, tablesOk_of_phase (by simp)⟩

theorem elementOk_setPhase {p : Phase} (hp : p ≠ .syms) (s : State) : (setPhase p s).ElementOk :=
  ⟨rfl, tablesOk_of_phase hp⟩

theorem elementOk_blockEnd (s : State) : (blockEnd s).ElementOk := by
  unfold blockEnd
  split
  · exact elementOk_setPhase (by decide) s
  · exact elementOk_setPhase (by decide) s

theorem endMatch_inf {d : Nat} {s : State} (pos : 1 ≤ d) (reach : d ≤ s.inf.olen) :
    (endMatch d s).inf = { s.inf with olen := s.inf.olen + s.inf.mlen, sub := .boundary } ∧
      SameBesidesInf s (endMatch d s) := by
  obtain ⟨hinf, hrest, -⟩ := copyLoop_spec d s.inf.mlen pos reach
  exact ⟨by simp only [endMatch, hinf], hrest⟩

theorem tablesOk_endMatch {d : Nat} {s : State} (pos : 1 ≤ d) (reach : d ≤ s.inf.olen) (h : s.TablesOk) :
    (endMatch d s).TablesOk := by
  obtain ⟨hinf, htabs, -⟩ := endMatch_inf pos reach
  exact (tablesOk_congr (by rw [hinf]) (by rw [hinf]) htabs).2 h

/-- The table a header builds from some of its code lengths. -/
theorem builtFrom_lens {cap : Nat} {lens : List (BitVec 4)} {T : HuffTable} (hlen : lens.length ≤ cap)
    (h : build cap (lens.map BitVec.toNat) = some T) : BuiltFrom cap T := by
  refine ⟨lens.map BitVec.toNat, by simpa using hlen, fun l hl => ?_, h⟩
  obtain ⟨v, -, rfl⟩ := List.mem_map.1 hl
  have := v.isLt
  omega

/-- A row that begins an element leaves at most 320 rows of it (R416). -/
theorem rowsLeft_first {s t : State} (hs : s.ElementOk) (h : RowResult s.infFormat s t) : t.RowsLeft 320 := by
  obtain ⟨hsub, htabs⟩ := hs
  obtain ⟨hcl, hd⟩ := infFormat_of_boundary hsub
  generalize s.infFormat = f at h hcl hd
  cases h with
  | raise => exact rowsLeft_of_elementOk (elementOk_infFault _ _)
  | zlibHeader => exact rowsLeft_of_elementOk (elementOk_setPhase (by decide) _)
  | storedHeader => exact rowsLeft_of_elementOk (elementOk_setPhase (by decide) _)
  | fixedHeader => exact rowsLeft_of_elementOk ⟨rfl, fun _ hsel => by simp [setPhase, setTsel] at hsel⟩
  | dynamicHeader => exact rowsLeft_of_elementOk (elementOk_setPhase (by decide) _)
  | reservedHeader => exact rowsLeft_of_elementOk (elementOk_infFault _ _)
  | storedData => exact rowsLeft_of_elementOk (elementOk_blockEnd _)
  | counts hlit hdist =>
    have := hlit.isLt
    have := hdist.isLt
    refine (rowsLeft_clTokens rfl).2 ?_
    simp only [startTokens, State.total, hlitCount, hdistCount, Config.nLL, Config.nD, List.length_nil]
    omega
  | literal b =>
    have hb : (pushOut b s).inf.sub = .boundary := by simpa using hsub
    exact rowsLeft_of_elementOk ⟨hb, (tablesOk_congr (by simp) (by simp) (by simp)).2 htabs⟩
  | endOfBlock => exact rowsLeft_of_elementOk (elementOk_blockEnd _)
  | length => exact (rowsLeft_distance rfl).2 ⟨(tablesOk_congr rfl rfl rfl).2 htabs, by decide⟩
  | lengths | lastLengths => exact absurd rfl hcl
  | distance => exact absurd rfl hd

/-- A code-length token leaves one row less, and the last one builds both tables. -/
theorem rowsLeft_token {n : Nat} {s t : State} (hsub : s.inf.sub = .clTokens) (hs : s.RowsLeft (n + 1))
    (h : RowResult .clsym s t) : t.RowsLeft n := by
  obtain ⟨hlit, hdist, hmore, hend⟩ := (rowsLeft_clTokens hsub).1 hs
  cases h with
  | raise => exact rowsLeft_of_elementOk (elementOk_infFault _ _)
  | lengths r v _ pos more =>
    refine (rowsLeft_clTokens (s := withLens (s.tabs.lens ++ List.replicate r v) s) hsub).2 ⟨hlit, hdist, ?_, ?_⟩
    all_goals
      simp only [withLens, State.total, List.length_append, List.length_replicate] at *
      omega
  | lastLengths r v ll d _ pos all hll hd =>
    refine rowsLeft_of_elementOk ⟨rfl, fun _ _ => ⟨builtFrom_lens ?_ hll, builtFrom_lens ?_ hd⟩⟩
    · simp only [List.length_take]
      omega
    · simp only [List.length_drop, List.length_append, List.length_replicate, State.total] at *
      omega

/-- The distance of a match ends it. -/
theorem rowsLeft_match {n : Nat} {s t : State} (hs : s.TablesOk) (h : RowResult .dsym s t) : t.RowsLeft n := by
  cases h with
  | raise => exact rowsLeft_of_elementOk (elementOk_infFault _ _)
  | distance d _ pos reach => exact rowsLeft_of_elementOk ⟨rfl, tablesOk_endMatch pos reach hs⟩

/-- A row inside an element leaves one row less. -/
theorem rowsLeft_next {n : Nat} {s t : State} (hsub : s.inf.sub ≠ .boundary) (hs : s.RowsLeft (n + 1))
    (h : RowResult s.infFormat s t) : t.RowsLeft n := by
  cases hc : s.inf.sub with
  | boundary => exact absurd hc hsub
  | distance => exact rowsLeft_match ((rowsLeft_distance hc).1 hs).1 (infFormat_of_distance hc ▸ h)
  | clTokens => exact rowsLeft_token hc hs (infFormat_of_clTokens hc ▸ h)

theorem rowsLeft_infRow_first {s t : State} (hs : s.ElementOk) (h : infRow s = .next t) : t.RowsLeft 320 := by
  obtain ⟨f, rfl⟩ | ⟨u, hr, hu⟩ := infRow_result h
  · exact rowsLeft_of_elementOk (elementOk_infFault f s)
  · rw [← infFormat_onlyReader hr] at hu
    exact rowsLeft_first ((elementOk_onlyReader hr).2 hs) hu

theorem rowsLeft_infRow_next {n : Nat} {s t : State} (hsub : s.inf.sub ≠ .boundary) (hs : s.RowsLeft (n + 1))
    (h : infRow s = .next t) : t.RowsLeft n := by
  obtain ⟨f, rfl⟩ | ⟨u, hr, hu⟩ := infRow_result h
  · exact rowsLeft_of_elementOk (elementOk_infFault f s)
  · rw [← infFormat_onlyReader hr] at hu
    exact rowsLeft_next (by rwa [hr.eq]) ((rowsLeft_onlyReader hr).2 hs) hu

/-- Run with as much fuel as it has rows left, an element ends. -/
theorem elementOk_finishElement (n : Nat) {o : Host.Outcome State Fault Refusal} {t : State}
    (ho : ∀ s, o = .next s → s.RowsLeft n) (h : finishElement n o = .next t) : t.ElementOk := by
  induction n generalizing o with
  | zero => exact elementOk_of_rowsLeft_zero (ho t h)
  | succ n ih =>
    cases o with
    | fault => cases h
    | refused => cases h
    | next s =>
      rw [finishElement_next] at h
      split_ifs at h with hb
      · cases h
        exact (rowsLeft_boundary hb).1 (ho t rfl)
      · exact ih (fun u => rowsLeft_infRow_next hb (ho s rfl)) h

theorem elementOk_infStep {s t : State} (hs : s.ElementOk) (h : infStep s = .next t) : t.ElementOk :=
  elementOk_finishElement 320 (fun _ => rowsLeft_infRow_first hs) h

/-! ### The steps that are not INF's -/

theorem elementOk_congr {s t : State} (hi : t.inf = s.inf) (ht : t.tabs = s.tabs) : t.ElementOk ↔ s.ElementOk := by
  simp only [State.ElementOk, hi, ht]

theorem flipStep_sameBesidesSlr (s : State) : SameBesidesSlr s (flipStep s) :=
  (flipRows_spec (s.slr.height.toNat / 2) 0 s (by omega)).1.1

/-- A step of SLR leaves INF and its tables alone. -/
theorem slrStep_inf_tabs {s t : State} (hb : s.slrBusy = true) (h : slrStep s = .next t) :
    t.inf = s.inf ∧ t.tabs = s.tabs := by
  obtain ⟨hflipInf, hflipTabs, -⟩ := flipStep_sameBesidesSlr s
  have hrow : ∀ eff, (runRow eff s).inf = s.inf ∧ (runRow eff s).tabs = s.tabs := fun eff =>
    have ⟨⟨hinf, htabs, _⟩, _⟩ := runRow_frame eff s
    ⟨hinf, htabs⟩
  obtain ⟨-, rfl⟩ | ⟨-, rfl⟩ | ⟨-, ⟨eff, rfl⟩ | rfl⟩ := slrStep_cases hb h
  · unfold disturbedStep
    split
    · exact ⟨hflipInf, hflipTabs⟩
    · exact hrow .none
  · exact ⟨hflipInf, hflipTabs⟩
  · exact hrow eff
  · exact ⟨rfl, rfl⟩

theorem elementOk_unitStep {s t : State} (hs : s.ElementOk) (h : unitStep s = .next t) : t.ElementOk := by
  obtain ⟨u, hu, hstep⟩ := unitStep_cases h
  have hue : u.ElementOk ∧ u.slrBusy = s.slrBusy := by
    obtain rfl | ⟨-, -, rfl⟩ := hu
    · exact ⟨hs, rfl⟩
    · exact ⟨hs, rfl⟩
  obtain ⟨hok, hbusy⟩ := hue
  obtain ⟨-, -, hinf⟩ | ⟨hb, hslr⟩ | ⟨-, -, rfl⟩ := hstep
  · exact elementOk_infStep hok hinf
  · obtain ⟨hi, ht⟩ := slrStep_inf_tabs (hbusy.trans hb) hslr
    exact (elementOk_congr hi ht).2 hok
  · exact hok

theorem elementOk_startInf (zlib : Bool) (s : State) : (startInf zlib s).ElementOk :=
  ⟨rfl, tablesOk_of_phase (by cases zlib <;> simp [startInf])⟩

theorem startSlr_inf_tabs (flip : Bool) (s : State) :
    (startSlr flip s).inf = s.inf ∧ (startSlr flip s).tabs = s.tabs := by
  unfold startSlr
  dsimp only
  split
  · exact ⟨rfl, rfl⟩
  · exact ⟨rfl, rfl⟩

/-- A register write starts INF, at a boundary, or leaves the phase, the table selection and the tables alone. -/
theorem elementOk_hostWrite (reg : Fin 16) (v : Word) {s : State} (hs : s.ElementOk) : (hostWrite reg v s).ElementOk := by
  unfold hostWrite
  split
  case h_1 =>
    split_ifs
    exacts [hs, elementOk_startInf _ s, hs]
  case h_4 =>
    obtain ⟨hi, ht⟩ := startSlr_inf_tabs (v.getLsbD 1) s
    split_ifs
    exacts [hs, (elementOk_congr hi ht).2 hs, hs]
  case h_8 | h_9 => exact hs
  all_goals split_ifs <;> exact hs

theorem elementOk_write (sp : Space) (a : Nat) (v : Byte) {s : State} (hs : s.ElementOk) : (s.write sp a v).ElementOk :=
  (elementOk_congr (State.write_inf ..) (State.write_tabs ..)).2 hs

theorem elementOk_resetMachine (s : State) : (resetMachine s).ElementOk :=
  ⟨rfl, tablesOk_of_phase (by simp [resetMachine, State.reset, Inf.reset])⟩

/-- Settles O58: a move of the host or of SLR leaves the element alone or begins a run; a step of INF has fuel for every row of
the element it begins. -/
theorem stepKeepsElement : Obligations.StepKeepsElement := by
  unfold Obligations.StepKeepsElement
  intro s t hs h
  obtain ⟨q, hcases⟩ := machineStep_cases h
  have hq : ({ s with hostQueue := q } : State).ElementOk := hs
  obtain hunit | ⟨reg, v, rfl⟩ | ⟨sp, a, v, -, -, -, rfl⟩ | rfl | rfl := hcases
  · exact elementOk_unitStep hq hunit
  · exact elementOk_hostWrite reg v hq
  · exact elementOk_write sp a v hq
  · exact hq
  · exact elementOk_resetMachine _

end Sys2Proof.Machine

/-! PROOFS for the family 10_state: register writes and the START actions (O49, O50, O52, O53), the frame of a step of INF (O45),
the progress of the bit reader (O20, O48, O57), the configuration (O47), the error registers (O40), the state after reset (O60). -/

namespace Sys2Proof.Machine

/-! ### Register writes -/

theorem hostWrite_infCtrl (v : Word) (s : State) :
    hostWrite 0 v s =
      if s.infBusy then s
      else if v.getLsbD 0 then startInf (v.getLsbD 1) s
      else { s with inf := { s.inf with zlibEn := v.getLsbD 1 } } := rfl

theorem hostWrite_slrCtrl (v : Word) (s : State) :
    hostWrite 8 v s =
      if s.slrBusy then s
      else if v.getLsbD 0 then startSlr (v.getLsbD 1) s
      else { s with slr := { s.slr with flip := v.getLsbD 1 } } := rfl

/-- All that a register write can do (R28, R29, R37, R411). -/
inductive WriteResult (v : Word) (s : State) : State → Prop
  | ignored : WriteResult v s s
  | startInf (idle : s.infBusy = false) : WriteResult v s (startInf (v.getLsbD 1) s)
  | zlib (idle : s.infBusy = false) : WriteResult v s { s with inf := { s.inf with zlibEn := v.getLsbD 1 } }
  | inLen (idle : s.infBusy = false) : WriteResult v s { s with inf := { s.inf with inLen := v } }
  | outCap (idle : s.infBusy = false) : WriteResult v s { s with inf := { s.inf with outCap := v } }
  | startSlr (idle : s.slrBusy = false) : WriteResult v s (startSlr (v.getLsbD 1) s)
  | flip (idle : s.slrBusy = false) : WriteResult v s { s with slr := { s.slr with flip := v.getLsbD 1 } }
  | width (idle : s.slrBusy = false) : WriteResult v s { s with slr := { s.slr with width := v } }
  | height (idle : s.slrBusy = false) : WriteResult v s { s with slr := { s.slr with height := v } }
  | channels (idle : s.slrBusy = false) :
      WriteResult v s { s with slr := { s.slr with rawCh := v.extractLsb' 0 3, outCh := v.extractLsb' 4 3 } }
  | diag : WriteResult v s { s with diag := v.setWidth 8 }

theorem hostWrite_result (reg : Fin 16) (v : Word) (s : State) : WriteResult v s (hostWrite reg v s) := by
  unfold hostWrite
  split
  case h_1 =>
    split_ifs with hb hv
    exacts [.ignored, .startInf (Bool.eq_false_of_not_eq_true hb), .zlib (Bool.eq_false_of_not_eq_true hb)]
  case h_2 =>
    split_ifs with hb
    exacts [.ignored, .inLen (Bool.eq_false_of_not_eq_true hb)]
  case h_3 =>
    split_ifs with hb
    exacts [.ignored, .outCap (Bool.eq_false_of_not_eq_true hb)]
  case h_4 =>
    split_ifs with hb hv
    exacts [.ignored, .startSlr (Bool.eq_false_of_not_eq_true hb), .flip (Bool.eq_false_of_not_eq_true hb)]
  case h_5 =>
    split_ifs with hb
    exacts [.ignored, .width (Bool.eq_false_of_not_eq_true hb)]
  case h_6 =>
    split_ifs with hb
    exacts [.ignored, .height (Bool.eq_false_of_not_eq_true hb)]
  case h_7 =>
    split_ifs with hb
    exacts [.ignored, .channels (Bool.eq_false_of_not_eq_true hb)]
  case h_8 => exact .diag
  case h_9 => exact .ignored

/-! ### The frame of INF -/

/-- What a step of INF may do to the rest of the machine (R62, R63, R65): bytes are appended to OUT, INF's configuration, SLR
and the host's part of the state stay. -/
structure AppendsOnly (s t : State) : Prop where
  olen : s.inf.olen ≤ t.inf.olen
  memory : SameOutside .out s.inf.olen (t.inf.olen - s.inf.olen) s t
  inLen : t.inf.inLen = s.inf.inLen
  outCap : t.inf.outCap = s.inf.outCap
  zlibEn : t.inf.zlibEn = s.inf.zlibEn
  slr : t.slr = s.slr
  caps : t.caps = s.caps
  hostQueue : t.hostQueue = s.hostQueue
  epoch : t.epoch = s.epoch
  disturbed : t.disturbed = s.disturbed
  spoils : t.spoils = s.spoils

theorem AppendsOnly.trans {s t u : State} (h : AppendsOnly s t) (k : AppendsOnly t u) : AppendsOnly s u where
  olen := h.olen.trans k.olen
  memory sp a ha := by
    have := h.olen
    have := k.olen
    rw [k.memory sp a fun ⟨hsp, hlo, hhi⟩ => ha ⟨hsp, by omega, by omega⟩,
      h.memory sp a fun ⟨hsp, hlo, hhi⟩ => ha ⟨hsp, by omega, by omega⟩]
  inLen := k.inLen.trans h.inLen
  outCap := k.outCap.trans h.outCap
  zlibEn := k.zlibEn.trans h.zlibEn
  slr := k.slr.trans h.slr
  caps := k.caps.trans h.caps
  hostQueue := k.hostQueue.trans h.hostQueue
  epoch := k.epoch.trans h.epoch
  disturbed := k.disturbed.trans h.disturbed
  spoils := k.spoils.trans h.spoils

theorem appendsOnly_infFault (f : FaultCode) (s : State) : AppendsOnly s (infFault f s) :=
  ⟨le_rfl, fun _ _ _ => rfl, rfl, rfl, rfl, rfl, rfl, rfl, rfl, rfl, rfl⟩

/-- A change of INF's phase, flags, locals and tables alone. -/
theorem appendsOnly_registers {s t : State}
    (ht : t = { s with
      inf := { t.inf with olen := s.inf.olen, inLen := s.inf.inLen, outCap := s.inf.outCap, zlibEn := s.inf.zlibEn }
      tabs := t.tabs }) : AppendsOnly s t := by
  rw [ht]
  exact ⟨le_rfl, fun _ _ _ => rfl, rfl, rfl, rfl, rfl, rfl, rfl, rfl, rfl, rfl⟩

theorem appendsOnly_onlyReader {s t : State} (h : OnlyReader s t) : AppendsOnly s t := by
  rw [h.eq]
  exact appendsOnly_registers rfl

theorem appendsOnly_blockEnd (s : State) : AppendsOnly s (blockEnd s) := by
  rw [blockEnd_eq]
  exact appendsOnly_registers rfl

/-- `n` bytes appended, and nothing else of the machine but INF's other registers. -/
theorem appendsOnly_of_appended {n : Nat} {s t : State} (holen : t.inf.olen = s.inf.olen + n)
    (hcfg : t.inf.inLen = s.inf.inLen ∧ t.inf.outCap = s.inf.outCap ∧ t.inf.zlibEn = s.inf.zlibEn)
    (hrest : SameBesidesInf s t) (hmem : SameOutside .out s.inf.olen n s t) : AppendsOnly s t := by
  obtain ⟨hin, hout, hz⟩ := hcfg
  obtain ⟨-, hslr, -, hcaps, hq, -, hep, hdis, hsp⟩ := hrest
  refine ⟨by omega, ?_, hin, hout, hz, hslr, hcaps, hq, hep, hdis, hsp⟩
  rwa [holen, Nat.add_sub_cancel_left]

theorem appendsOnly_pushOut (v : Byte) (s : State) : AppendsOnly s (pushOut v s) := by
  refine appendsOnly_of_appended (n := 1) (by simp) (by simp) (pushOut_same v s) fun sp a ha => ?_
  rw [pushOut_read, if_neg fun ⟨hsp, h⟩ => ha ⟨hsp, by omega, by omega⟩]

theorem appendsOnly_copyStored (n : Nat) (s : State) : AppendsOnly s (copyStored n s) := by
  obtain ⟨hinf, hrest, hmem, -⟩ := copyStored_spec n s
  exact appendsOnly_of_appended (by rw [hinf]) (by simp [hinf]) hrest hmem

theorem appendsOnly_endMatch {d : Nat} {s : State} (pos : 1 ≤ d) (reach : d ≤ s.inf.olen) :
    AppendsOnly s (endMatch d s) := by
  obtain ⟨hinf, hrest⟩ := endMatch_inf pos reach
  obtain ⟨-, -, hmem, -⟩ := copyLoop_spec d s.inf.mlen pos reach
  exact appendsOnly_of_appended (by rw [hinf]) (by simp [hinf]) hrest hmem

theorem readClLens_onlyReader {n i : Nat} {lens lens' : List (BitVec 3)} {s t : State}
    (h : readClLens n i lens s = .ok (lens', t)) : OnlyReader s t := by
  induction n generalizing i lens s with
  | zero =>
    cases h
    exact .refl _
  | succ n ih =>
    rw [readClLens] at h
    split at h
    · cases h
    · rename_i hc
      exact (consume_onlyReader hc).trans (ih h)

theorem appendsOnly_rowResult {f : Format} {s t : State} (h : RowResult f s t) : AppendsOnly s t := by
  cases h with
  | raise => exact appendsOnly_infFault _ _
  | reservedHeader b => exact (appendsOnly_registers (t := setFinal b _) rfl).trans (appendsOnly_infFault _ _)
  | zlibHeader | storedHeader | fixedHeader | dynamicHeader | lengths | lastLengths | length =>
    exact appendsOnly_registers rfl
  | storedData n => exact (appendsOnly_copyStored n _).trans (appendsOnly_blockEnd _)
  | counts hlit hdist hclen clLen clT _ u read =>
    exact (appendsOnly_onlyReader (readClLens_onlyReader read)).trans (appendsOnly_registers rfl)
  | literal b => exact appendsOnly_pushOut b _
  | endOfBlock => exact appendsOnly_blockEnd _
  | distance d _ pos reach => exact appendsOnly_endMatch pos reach

theorem appendsOnly_infRow {s t : State} (h : infRow s = .next t) : AppendsOnly s t := by
  obtain ⟨f, rfl⟩ | ⟨u, hr, hu⟩ := infRow_result h
  · exact appendsOnly_infFault f s
  · exact (appendsOnly_onlyReader hr).trans (appendsOnly_rowResult hu)

theorem appendsOnly_infStep {s t : State} (h : infStep s = .next t) : AppendsOnly s t :=
  infStep_induct (P := AppendsOnly s) (fun hs _ hrow => hs.trans (appendsOnly_infRow hrow))
    (fun _ => appendsOnly_infRow) h

/-- Settles O45: each row of the element appends to OUT only. -/
theorem infWritesOnlyNewOutput : Obligations.InfWritesOnlyNewOutput := by
  unfold Obligations.InfWritesOnlyNewOutput
  intro s t h
  have ha := appendsOnly_infStep h
  exact ⟨ha.olen, ha.memory, ha.slr, ha.caps, ha.hostQueue, ha.epoch, ha.disturbed, ha.spoils⟩

/-! ### The bit reader moves forward -/

theorem readerMoved_zero {s : State} (h : s.BitReaderOk) : ReaderMoved 0 s s := ⟨rfl, h, rfl⟩

theorem ReaderMoved.trans {m n : Nat} {s t u : State} (h : ReaderMoved m s t) (k : ReaderMoved n t u) :
    ReaderMoved (m + n) s u := by
  obtain ⟨he, -, hp⟩ := h
  obtain ⟨ke, kok, kp⟩ := k
  exact ⟨OnlyReader.trans he ke, kok, by omega⟩

theorem dropBits_moved {n : Nat} {s : State} (h : s.BitReaderOk) (hn : n ≤ s.inf.cnt) : ReaderMoved n s (dropBits n s) :=
  ⟨rfl, dropBits_ok h hn, bitpos_dropBits h hn⟩

theorem refill_moved {s : State} (h : s.BitReaderOk) : ReaderMoved 0 s (refill s) := (refillLoop_spec 4 h).1

theorem fillToThreshold_moved {s : State} (h : s.BitReaderOk) : ReaderMoved 0 s (fillToThreshold s) := by
  unfold fillToThreshold
  split
  · exact refill_moved h
  · exact readerMoved_zero h

theorem consume_moved {n v : Nat} {s t : State} (hs : s.BitReaderOk) (h : consume n s = .ok (v, t)) :
    ReaderMoved n s t := by
  unfold consume at h
  split at h
  · subst n
    cases h
    exact readerMoved_zero hs
  · have hr : ReaderMoved 0 s (if s.inf.cnt < 16 ∨ s.inf.cnt < n then refill s else s) := by
      split
      · exact refill_moved hs
      · exact readerMoved_zero hs
    dsimp only at h
    generalize (if s.inf.cnt < 16 ∨ s.inf.cnt < n then refill s else s) = u at h hr
    split at h
    · cases h
    · cases h
      simpa using hr.trans (dropBits_moved hr.2.1 (by omega))

/-- The bits of a symbol's code are consumed (R165). -/
theorem decodeSym_moved {T : HuffTable} {sym : Nat} {s t : State} (hs : s.BitReaderOk)
    (h : decodeSym T s = .ok (sym, t)) : ∃ window l, lookup T window = .ok (l, sym) ∧ ReaderMoved l s t := by
  have hr := fillToThreshold_moved hs
  unfold decodeSym at h
  dsimp only at h
  split at h
  · cases h
  · rename_i l _ hl
    split at h
    · cases h
    · cases h
      exact ⟨_, l, hl, by simpa using hr.trans (dropBits_moved hr.2.1 (by omega))⟩

/-- At a byte boundary a byte is consumed, from `acc` while it holds one (R138). -/
theorem nextByte_moved {f : FaultCode} {v : Byte} {s t : State} (hs : s.BitReaderOk) (hc : s.inf.cnt % 8 = 0)
    (h : nextByte f s = .ok (v, t)) : ReaderMoved 8 s t ∧ t.inf.cnt = s.inf.cnt - 8 := by
  have hacc := hs.acc_lt
  unfold nextByte at h
  split_ifs at h with hpos hend
  · cases h
    exact ⟨dropBits_moved hs (by omega), rfl⟩
  · cases h
    have h0 : s.inf.cnt = 0 := by omega
    refine ⟨⟨rfl, ⟨hs.cnt_le, hacc, ?_, ?_, fun i hi => ?_⟩, ?_⟩, ?_⟩
    · show s.inf.ipos + 1 ≤ s.inf.inLen.toNat
      omega
    · show s.inf.cnt ≤ 8 * (s.inf.ipos + 1)
      omega
    · exact absurd hi (by simp [h0])
    · simp only [State.bitpos, h0]
      omega
    · show s.inf.cnt = s.inf.cnt - 8
      omega

theorem consumeTwo_moved {n m : Nat} {v : Nat × Nat} {s t : State} (hs : s.BitReaderOk)
    (h : consumeTwo n m s = .ok (v, t)) : ReaderMoved (n + m) s t := by
  unfold consumeTwo at h
  split at h
  · cases h
  · rename_i h1
    have hu := consume_moved hs h1
    split at h
    · cases h
    · rename_i h2
      cases h
      exact hu.trans (consume_moved hu.2.1 h2)

theorem nextPair_moved {v : Nat} {s t : State} (hs : s.BitReaderOk) (hc : s.inf.cnt % 8 = 0)
    (h : nextPair s = .ok (v, t)) : ReaderMoved 16 s t ∧ t.inf.cnt = s.inf.cnt - 16 := by
  unfold nextPair at h
  split at h
  · cases h
  · rename_i h1
    obtain ⟨hu, hcu⟩ := nextByte_moved hs hc h1
    split at h
    · cases h
    · rename_i h2
      cases h
      obtain ⟨ht, hct⟩ := nextByte_moved hu.2.1 (by omega) h2
      exact ⟨hu.trans ht, by omega⟩

theorem align_moved {s : State} (hs : s.BitReaderOk) :
    ReaderMoved (s.inf.cnt % 8) s (align s) ∧ (align s).inf.cnt % 8 = 0 := by
  refine ⟨dropBits_moved hs (Nat.mod_le _ _), ?_⟩
  simp only [align, dropBits_cnt]
  omega

/-- No code of the table is empty, so that decoding a symbol consumes a bit. -/
def CodesNonempty (T : HuffTable) : Prop := ∀ window l sym, lookup T window = .ok (l, sym) → 1 ≤ l

theorem fetchSym_moved {f : Format} {T : HuffTable} {v : Nat × Nat} {s t : State} (hs : s.BitReaderOk)
    (h : fetchSym f T s = .ok (v, t)) : ∃ n, ReaderMoved n s t ∧ (CodesNonempty T → 1 ≤ n) := by
  unfold fetchSym at h
  split at h
  · cases h
  · rename_i h1
    obtain ⟨window, l, hl, hu⟩ := decodeSym_moved hs h1
    split at h
    · cases h
    · rename_i h2
      cases h
      exact ⟨_, hu.trans (consume_moved hu.2.1 h2), fun hT => Nat.le_add_right_of_le (hT window l _ hl)⟩

theorem consumeTwoWord_moved {n m : Nat} {g : Nat → Nat → Nat × Nat} {v : Nat × Nat} {s t : State} (hs : s.BitReaderOk)
    (h : (match consumeTwo n m s with
      | .error e => .error e
      | .ok ((a, b), u) => .ok (g a b, u) : Read (Nat × Nat)) = .ok (v, t)) : ReaderMoved (n + m) s t := by
  split at h
  · cases h
  · rename_i h1
    cases h
    exact consumeTwo_moved hs h1

/-- The header of a stored block ends with no bit left in `acc`, so that its payload is the next bytes of IN (R188). -/
theorem fetchStored_moved {v : Nat × Nat} {s t : State} (hs : s.BitReaderOk) (h : fetchWord .stored s = .ok (v, t)) :
    ReaderMoved (s.inf.cnt % 8 + 32) s t ∧ t.inf.cnt = 0 := by
  obtain ⟨ha, hca⟩ := align_moved hs
  have hle := ha.2.1.cnt_le
  simp only [fetchWord] at h
  split at h
  · cases h
  · rename_i h1
    obtain ⟨hu, hcu⟩ := nextPair_moved ha.2.1 hca h1
    split at h
    · cases h
    · rename_i h2
      cases h
      obtain ⟨ht, hct⟩ := nextPair_moved hu.2.1 (by omega) h2
      exact ⟨(ha.trans hu).trans ht, by omega⟩

/-- A fetch keeps INV-ACC and moves the stream position forward; by at least one bit where an element begins, if no code of
the literal/length table is empty. -/
theorem fetchWord_moved {f : Format} {v : Nat × Nat} {s t : State} (hs : s.BitReaderOk)
    (h : fetchWord f s = .ok (v, t)) :
    ∃ n, ReaderMoved n s t ∧ (f ≠ .clsym → f ≠ .dsym → (f = .llsym → CodesNonempty s.llTable) → 1 ≤ n) := by
  cases f with
  | zhdr => exact ⟨16, consumeTwoWord_moved (g := fun a b => (a + 256 * b, 0)) hs h, by simp⟩
  | bhdr | filt | filt0 => exact ⟨3, consumeTwoWord_moved (g := fun a b => (a + 2 * b, 0)) hs h, by simp⟩
  | stored => exact ⟨_, (fetchStored_moved hs h).1, fun _ _ _ => by omega⟩
  | dynhdr =>
    simp only [fetchWord] at h
    split at h
    · cases h
    · rename_i h1
      have hu := consumeTwo_moved hs h1
      split at h
      · cases h
      · rename_i h2
        cases h
        exact ⟨14, hu.trans (consume_moved hu.2.1 h2), by simp⟩
  | clsym =>
    obtain ⟨n, hn, -⟩ := fetchSym_moved hs h
    exact ⟨n, hn, fun hf => absurd rfl hf⟩
  | dsym =>
    obtain ⟨n, hn, -⟩ := fetchSym_moved hs h
    exact ⟨n, hn, fun _ hf => absurd rfl hf⟩
  | llsym =>
    obtain ⟨n, hn, hpos⟩ := fetchSym_moved hs h
    exact ⟨n, hn, fun _ _ hT => hpos (hT rfl)⟩

theorem readClLens_moved {n i : Nat} {lens lens' : List (BitVec 3)} {s t : State} (hs : s.BitReaderOk)
    (h : readClLens n i lens s = .ok (lens', t)) : ReaderMoved (3 * n) s t := by
  induction n generalizing i lens s with
  | zero =>
    cases h
    exact readerMoved_zero hs
  | succ n ih =>
    rw [readClLens] at h
    split at h
    · cases h
    · rename_i hc
      have hu := consume_moved hs hc
      rw [Nat.mul_add_one, Nat.add_comm]
      exact hu.trans (ih hu.2.1 h)

/-! ### A row keeps the bit reader -/

theorem bitReaderOk_congr {s t : State} (hr : ∀ a, t.read .inn a = s.read .inn a) (hacc : t.inf.acc = s.inf.acc)
    (hcnt : t.inf.cnt = s.inf.cnt) (hipos : t.inf.ipos = s.inf.ipos) (hlen : t.inf.inLen = s.inf.inLen)
    (hs : s.BitReaderOk) : t.BitReaderOk := by
  obtain ⟨h1, h2, h3, h4, h5⟩ := hs
  refine ⟨by rwa [hcnt], by rwa [hacc, hcnt], by rwa [hipos, hlen], by rwa [hcnt, hipos], fun i hi => ?_⟩
  simpa only [State.streamBit, State.bitpos, hr, hacc, hcnt, hipos] using h5 i (by rwa [hcnt] at hi)

/-- An empty `acc` is in order wherever `ipos` stands within IN. -/
theorem bitReaderOk_of_cnt_zero {s : State} (hcnt : s.inf.cnt = 0) (hacc : s.inf.acc = 0)
    (hipos : s.inf.ipos ≤ s.inf.inLen.toNat) : s.BitReaderOk :=
  ⟨by omega, by simp [hacc], hipos, by omega, fun i hi => absurd hi (by omega)⟩

/-! ### No code is empty -/

/-- Every entry of the fast table that is not empty gives a code length of at least 1 (R158, R165). -/
def FastLengthsPos (fast : List (BitVec 16)) : Prop := ∀ e ∈ fast, e = 0 ∨ 512 ≤ e.toNat

theorem le_slowLength (T : HuffTable) (k fuel l : Nat) : l ≤ slowLength T k fuel l := by
  induction fuel generalizing l with
  | zero => exact le_rfl
  | succ fuel ih =>
    unfold slowLength
    split
    · exact (Nat.le_succ l).trans (ih (l + 1))
    · exact le_rfl

/-- The slow path finds codes of at least 10 bits (R166). -/
theorem slow_length {T : HuffTable} {window l sym : Nat} (h : slow T window = .ok (l, sym)) : 10 ≤ l := by
  unfold slow at h
  dsimp only at h
  split_ifs at h
  cases h
  exact le_slowLength ..

theorem codesNonempty_of_fast {T : HuffTable} (h : FastLengthsPos T.fast) : CodesNonempty T := by
  intro window l sym hl
  unfold lookup at hl
  dsimp only at hl
  split_ifs at hl with h0
  · exact (by decide : 1 ≤ 10).trans (slow_length hl)
  · cases hl
    rw [List.getD_eq_getElem?_getD] at h0 ⊢
    cases he : T.fast[window % 512]? with
    | none => simp [he] at h0
    | some e =>
      rw [he] at h0
      obtain rfl | hpos := h e (List.mem_of_getElem? he)
      · simp at h0
      · exact (Nat.le_div_iff_mul_le (by decide)).2 (by simpa using hpos)

theorem mem_fillSlots {rev l j : Nat} {entry e : BitVec 16} {fast : List (BitVec 16)}
    (h : e ∈ fillSlots rev l entry j fast) : e = entry ∨ e ∈ fast := by
  induction fast generalizing j with
  | nil => cases h
  | cons d fast ih =>
    obtain rfl | h := List.mem_cons.1 h
    · split_ifs
      · exact .inl rfl
      · exact .inr List.mem_cons_self
    · exact (ih h).imp_right (List.mem_cons_of_mem d)

theorem fastLengthsPos_fillFast {fast : List (BitVec 16)} {c : Coded} (hlen : 1 ≤ c.len) (hsym : c.sym < 512)
    (h : FastLengthsPos fast) : FastLengthsPos (fillFast fast c) := by
  unfold fillFast
  split_ifs with h9
  · intro e he
    obtain rfl | he := mem_fillSlots he
    · right
      rw [BitVec.toNat_ofNat, Nat.mod_eq_of_lt (by omega)]
      omega
    · exact h e he
  · exact h

theorem mem_assign {next : List Nat} {s : Nat} {L : List Nat} {c : Coded} (h : c ∈ assign next s L) :
    1 ≤ c.len ∧ c.sym < s + L.length := by
  induction L generalizing next s with
  | nil => cases h
  | cons l L ih =>
    rw [List.length_cons]
    unfold assign at h
    split_ifs at h with h0
    · obtain ⟨h1, h2⟩ := ih h
      exact ⟨h1, by omega⟩
    · obtain rfl | h := List.mem_cons.1 h
      · exact ⟨Nat.pos_of_ne_zero h0, by show s < _; omega⟩
      · obtain ⟨h1, h2⟩ := ih h
        exact ⟨h1, by omega⟩

theorem build_fast {cap : Nat} {L : List Nat} {T : HuffTable} (h : build cap L = some T) :
    ∃ next, T.fast = (assign next 0 L).foldl fillFast (List.replicate 512 0) := by
  unfold build at h
  split_ifs at h
  split at h
  · cases h
  · cases h
    exact ⟨_, rfl⟩

/-- A built table of the model's capacities has no empty code (R155). -/
theorem codesNonempty_of_built {cap : Nat} {T : HuffTable} (hcap : cap ≤ 512) (h : BuiltFrom cap T) : CodesNonempty T := by
  obtain ⟨L, hL, -, hb⟩ := h
  obtain ⟨next, hfast⟩ := build_fast hb
  refine codesNonempty_of_fast ?_
  rw [hfast]
  refine List.foldlRecOn _ _ (fun e he => .inl (List.eq_of_mem_replicate he)) fun fast hpos c hc => ?_
  obtain ⟨hlen, hsym⟩ := mem_assign hc
  exact fastLengthsPos_fillFast hlen (by omega) hpos

theorem bitrev_lt (v n : Nat) : bitrev v n < 2 ^ n := by
  induction n generalizing v with
  | zero => exact Nat.one_pos
  | succ n ih =>
    have := ih (v / 2)
    have : v % 2 * 2 ^ n ≤ 1 * 2 ^ n := Nat.mul_le_mul_right _ (by omega)
    rw [bitrev, Nat.pow_succ]
    omega

theorem fixLL_fast : fixLL.fast = (List.range 512).map fun j => BitVec.ofNat 16 (fixLLEntry (bitrev j 9)) := by
  simp only [fixLL]

theorem codesNonempty_fixLL : CodesNonempty fixLL := by
  apply codesNonempty_of_fast
  intro e he
  rw [fixLL_fast, List.mem_map] at he
  obtain ⟨j, -, rfl⟩ := he
  right
  have hk := bitrev_lt j 9
  generalize bitrev j 9 = k at hk
  have hentry : 512 ≤ fixLLEntry k ∧ fixLLEntry k < 65536 := by
    unfold fixLLEntry
    split_ifs <;> omega
  rw [BitVec.toNat_ofNat, Nat.mod_eq_of_lt hentry.2]
  exact hentry.1

/-- At the boundary of an element the table that decodes its symbol has no empty code (R412). -/
theorem codesNonempty_llTable {s : State} (hs : s.ElementOk) (hf : s.infFormat = .llsym) : CodesNonempty s.llTable := by
  obtain ⟨hsub, htabs⟩ := hs
  have hp : s.inf.phase = .syms := by
    unfold State.infFormat at hf
    rw [hsub] at hf
    cases hp : s.inf.phase <;> simp [hp] at hf ⊢
  unfold State.llTable
  cases hsel : s.inf.tsel with
  | fixed => exact codesNonempty_fixLL
  | dynamic => exact codesNonempty_of_built (by decide) (htabs hp hsel).1

/-! ### A row keeps the bit reader -/

/-- The run has ended in a fault, or INV-ACC holds and the stream position is at least `p`. -/
def State.ReaderPast (p : Nat) (s : State) : Prop :=
  s.inf.phase = .error ∧ s.inf.sub = .boundary ∨ s.BitReaderOk ∧ p ≤ s.bitpos

theorem readerPast_infFault (p : Nat) (f : FaultCode) (s : State) : (infFault f s).ReaderPast p := .inl ⟨rfl, rfl⟩

theorem AppendsOnly.read_inn {s t : State} (h : AppendsOnly s t) (a : Nat) : t.read .inn a = s.read .inn a :=
  h.memory .inn a fun ⟨hsp, _⟩ => nomatch hsp

theorem AppendsOnly.readerPast {p : Nat} {s t : State} (h : AppendsOnly s t) (hacc : t.inf.acc = s.inf.acc)
    (hcnt : t.inf.cnt = s.inf.cnt) (hipos : t.inf.ipos = s.inf.ipos) (hs : s.BitReaderOk) (hp : p ≤ s.bitpos) :
    t.ReaderPast p := by
  refine .inr ⟨bitReaderOk_congr h.read_inn hacc hcnt hipos h.inLen hs, ?_⟩
  rwa [State.bitpos, hipos, hcnt]

theorem readerPast_copyStored {p n : Nat} {s : State} (hcnt : s.inf.cnt = 0) (room : s.inf.ipos + n ≤ s.inf.inLen.toNat)
    (hs : s.BitReaderOk) (hp : p ≤ s.bitpos) : (blockEnd (copyStored n s)).ReaderPast p := by
  obtain ⟨hinf, -⟩ := copyStored_spec n s
  have hacc : s.inf.acc = 0 := by
    have := hs.acc_lt
    rw [hcnt] at this
    exact BitVec.eq_of_toNat_eq (by simpa using this)
  right
  rw [State.bitpos, blockEnd_eq]
  refine ⟨bitReaderOk_of_cnt_zero (by simp [hinf, hcnt]) (by simp [hinf, hacc]) (by simpa [hinf] using room), ?_⟩
  simp only [hinf, State.bitpos] at hp ⊢
  omega

/-- From where the fetch left the stream position no row moves it back. -/
theorem rowResult_readerPast {f : Format} {p : Nat} {s t : State} (hs : s.BitReaderOk) (hp : p ≤ s.bitpos)
    (hstored : f = .stored → s.inf.cnt = 0) (h : RowResult f s t) : t.ReaderPast p := by
  have ha := appendsOnly_rowResult h
  cases h with
  | raise | reservedHeader => exact readerPast_infFault ..
  | zlibHeader | storedHeader | fixedHeader | dynamicHeader | lengths | lastLengths | length =>
    exact ha.readerPast rfl rfl rfl hs hp
  | endOfBlock =>
    rw [blockEnd_eq] at ha ⊢
    exact ha.readerPast rfl rfl rfl hs hp
  | literal => exact ha.readerPast (by simp) (by simp) (by simp) hs hp
  | storedData n _ room => exact readerPast_copyStored (hstored rfl) room hs hp
  | counts hlit hdist hclen clLen clT _ u read =>
    obtain ⟨-, hok, hpos⟩ := readClLens_moved hs read
    have hu : AppendsOnly u (startTokens (hlitCount hlit) (hdistCount hdist) clLen clT u) := appendsOnly_registers rfl
    exact hu.readerPast rfl rfl rfl hok (by omega)
  | distance d _ pos reach =>
    obtain ⟨hinf, -⟩ := endMatch_inf pos reach
    exact ha.readerPast (by rw [hinf]) (by rw [hinf]) (by rw [hinf]) hs hp

theorem infRow_readerPast {s t : State} (hs : s.BitReaderOk) (h : infRow s = .next t) :
    t.ReaderPast s.bitpos ∧ (s.ElementOk → t.ReaderPast (s.bitpos + 1)) := by
  obtain ⟨f, rfl⟩ | ⟨w, x, u, i, hw, hd, he⟩ := infRow_cases h
  · exact ⟨readerPast_infFault .., fun _ => readerPast_infFault ..⟩
  obtain ⟨hfilt, hfilt0⟩ := infFormat_ne_filt s
  have hrow := exec_result hfilt hfilt0 hd he
  obtain ⟨n, ⟨-, hok, hpos⟩, hn⟩ := fetchWord_moved hs hw
  have hstored : s.infFormat = .stored → u.inf.cnt = 0 := fun hf => (fetchStored_moved hs (hf ▸ hw)).2
  refine ⟨rowResult_readerPast hok (by omega) hstored hrow, fun hel => ?_⟩
  obtain ⟨hcl, hds⟩ := infFormat_of_boundary hel.1
  have := hn hcl hds (codesNonempty_llTable hel)
  exact rowResult_readerPast hok (by omega) hstored hrow

theorem infStep_readerPast_of_first {p : Nat} {s t : State} (first : ∀ u, infRow s = .next u → u.ReaderPast p)
    (h : infStep s = .next t) : t.ReaderPast p := by
  refine infStep_induct (P := State.ReaderPast p) ?_ first h
  rintro u v (⟨-, hb⟩ | ⟨hok, hpos⟩) hsub hrow
  · exact absurd hb hsub
  · obtain hend | ⟨hok', hpos'⟩ := (infRow_readerPast hok hrow).1
    · exact .inl hend
    · exact .inr ⟨hok', hpos.trans hpos'⟩

theorem infStep_bitReaderOk {s t : State} (hs : s.BitReaderOk) (h : infStep s = .next t) (ht : t.inf.phase ≠ .error) :
    t.BitReaderOk := by
  obtain ⟨he, -⟩ | ⟨hok, -⟩ := infStep_readerPast_of_first (fun _ hu => (infRow_readerPast hs hu).1) h
  · exact absurd he ht
  · exact hok

theorem bitpos_lt_infStep {s t : State} (hs : s.BitReaderOk) (hel : s.ElementOk) (h : infStep s = .next t)
    (ht : t.inf.phase ≠ .error) : s.bitpos < t.bitpos := by
  obtain ⟨he, -⟩ | ⟨-, hpos⟩ := infStep_readerPast_of_first (fun _ hu => (infRow_readerPast hs hu).2 hel) h
  · exact absurd he ht
  · exact hpos

theorem bitpos_le_stream {s : State} (hs : s.BitReaderOk) : s.bitpos ≤ 8 * s.inf.inLen.toNat := by
  have := hs.ipos_le
  unfold State.bitpos
  omega

/-- A row step of SLR that raises no fault, disturbed or not, moves `row` by one (R303, R407). -/
theorem slrStep_row {s t : State} (hp : s.slr.phase = .rows) (h : slrStep s = .next t) (ht : t.slr.phase ≠ .error) :
    t.slr.row = s.slr.row + 1 := by
  have hrow (eff : Filter) : (runRow eff s).slr.row = s.slr.row + 1 := by
    obtain ⟨-, -, hslr⟩ := runRow_frame eff s
    rw [hslr]
  obtain ⟨-, rfl⟩ | ⟨hf, -⟩ | ⟨-, ⟨eff, rfl⟩ | rfl⟩ := slrStep_cases (slrBusy_of_rows hp) h
  · simpa [disturbedStep, hp] using hrow .none
  · simp [hp] at hf
  · exact hrow eff
  · exact absurd rfl ht

/-- Settles O48: the first row of an element consumes at least one bit, since no code of a built table is empty, and no row
moves back. -/
theorem progress : Obligations.Progress := by
  unfold Obligations.Progress
  refine ⟨fun s t _ hs hel h ht => ⟨bitpos_lt_infStep hs hel h ht, ?_⟩, fun s t => slrStep_row⟩
  rw [← (appendsOnly_infStep h).inLen]
  exact bitpos_le_stream (infStep_bitReaderOk hs h ht)

/-! ### The frame of SLR -/

/-- What a step of SLR leaves alone: INF, IN, the capacities, and SLR's own configuration (R36, R63 to R65). -/
structure SlrConfined (s t : State) : Prop where
  inf : t.inf = s.inf
  inn : ∀ a, t.read .inn a = s.read .inn a
  caps : t.caps = s.caps
  width : t.slr.width = s.slr.width
  height : t.slr.height = s.slr.height
  rawCh : t.slr.rawCh = s.slr.rawCh
  outCh : t.slr.outCh = s.slr.outCh
  flip : t.slr.flip = s.slr.flip

theorem slrConfined_runRow (eff : Filter) (s : State) : SlrConfined s (runRow eff s) := by
  obtain ⟨⟨hinf, -, -, hcaps, -⟩, hread, hslr⟩ := runRow_frame eff s
  exact ⟨hinf, fun a => (hread a).1, hcaps, by rw [hslr], by rw [hslr], by rw [hslr], by rw [hslr], by rw [hslr]⟩

theorem flipStep_slr (s : State) : (flipStep s).slr = { s.slr with phase := .done } := by
  obtain ⟨⟨-, hslr⟩, -⟩ := flipRows_spec (s.slr.height.toNat / 2) 0 s (by omega)
  simp only [flipStep, hslr]

theorem slrConfined_flipStep (s : State) : SlrConfined s (flipStep s) := by
  obtain ⟨hinf, -, -, hcaps, -⟩ := flipStep_sameBesidesSlr s
  obtain ⟨-, hread, -⟩ := flipRows_spec (s.slr.height.toNat / 2) 0 s (by omega)
  have hslr := flipStep_slr s
  exact ⟨hinf, fun a => hread .inn a (fun h => nomatch h.1), hcaps,
    by rw [hslr], by rw [hslr], by rw [hslr], by rw [hslr], by rw [hslr]⟩

theorem slrConfined_spoilRows {s t : State} (h : SlrConfined s t) : SlrConfined s (spoilRows t) :=
  ⟨h.inf, h.inn, h.caps, h.width, h.height, h.rawCh, h.outCh, h.flip⟩

theorem slrConfined_slrStep {s t : State} (hb : s.slrBusy = true) (h : slrStep s = .next t) : SlrConfined s t := by
  obtain ⟨-, rfl⟩ | ⟨-, rfl⟩ | ⟨-, ⟨eff, rfl⟩ | rfl⟩ := slrStep_cases hb h
  · unfold disturbedStep
    split
    · exact slrConfined_spoilRows (slrConfined_flipStep s)
    · exact slrConfined_spoilRows (slrConfined_runRow .none s)
  · exact slrConfined_flipStep s
  · exact slrConfined_runRow eff s
  · exact ⟨rfl, fun _ => rfl, rfl, rfl, rfl, rfl, rfl, rfl⟩

/-! ### The run of INF -/

theorem phase_ne_error_of_infBusy {s : State} (h : s.infBusy = true) : s.inf.phase ≠ .error := fun hp => by
  simp [State.infBusy, hp] at h

theorem infRunOk_of_idle {s : State} (h : s.infBusy = false) : s.InfRunOk := fun hb => by simp [h] at hb

theorem infRunOk_congr {s t : State} (hi : t.inf = s.inf) (hr : ∀ a, t.read .inn a = s.read .inn a) (hs : s.InfRunOk) :
    t.InfRunOk := fun hb => by
  obtain ⟨hok, hroom⟩ := hs (by simpa only [State.infBusy, hi] using hb)
  exact ⟨bitReaderOk_congr hr (by rw [hi]) (by rw [hi]) (by rw [hi]) (by rw [hi]) hok, by rwa [hi]⟩

theorem infRunOk_startInf (zlib : Bool) (s : State) : (startInf zlib s).InfRunOk := fun _ =>
  ⟨bitReaderOk_of_cnt_zero rfl rfl (Nat.zero_le _), Nat.zero_le _⟩

/-- The output stays within OUT_CAP (R22). -/
def State.OutFits (s : State) : Prop := s.inf.olen ≤ s.inf.outCap.toNat

theorem outFits_rowResult {f : Format} {s t : State} (hs : s.OutFits) (h : RowResult f s t) : t.OutFits := by
  have hcap := (appendsOnly_rowResult h).outCap
  unfold State.OutFits at *
  rw [hcap]
  cases h with
  | raise | reservedHeader | zlibHeader | storedHeader | fixedHeader | dynamicHeader | lengths | lastLengths | length =>
    exact hs
  | endOfBlock => simpa [blockEnd_eq] using hs
  | counts hlit hdist hclen clLen clT _ u read =>
    have he := (readClLens_onlyReader read).eq
    rw [he]
    exact hs
  | literal b _ room => simpa using room
  | storedData n _ _ room =>
    obtain ⟨hinf, -⟩ := copyStored_spec n s
    simpa [blockEnd_eq, hinf] using room
  | distance d _ pos reach room =>
    obtain ⟨hinf, -⟩ := endMatch_inf pos reach
    rwa [hinf]

theorem outFits_infRow {s t : State} (hs : s.OutFits) (h : infRow s = .next t) : t.OutFits := by
  obtain ⟨f, rfl⟩ | ⟨u, hr, hu⟩ := infRow_result h
  · exact hs
  · refine outFits_rowResult ?_ hu
    rw [hr.eq]
    exact hs

theorem outFits_infStep {s t : State} (hs : s.OutFits) (h : infStep s = .next t) : t.OutFits :=
  infStep_induct (P := State.OutFits) (fun hu _ => outFits_infRow hu) (fun _ => outFits_infRow hs) h

theorem infRunOk_infStep {s t : State} (hb : s.infBusy = true) (hs : s.InfRunOk) (h : infStep s = .next t) :
    t.InfRunOk := fun ht =>
  have ⟨hok, hroom⟩ := hs hb
  ⟨infStep_bitReaderOk hok h (phase_ne_error_of_infBusy ht), outFits_infStep hroom h⟩

/-- A step of the units is one of INF or of SLR, from the state with a free value drawn or not, or nothing is busy (R407). -/
theorem unitStep_turn {s t : State} (h : unitStep s = .next t) :
    ∃ n, let u : State := { s with draws := n }
      (u.infBusy = true ∧ infStep u = .next t) ∨ (u.slrBusy = true ∧ slrStep u = .next t) ∨ t = u := by
  obtain ⟨u, hu, hstep⟩ := unitStep_cases h
  obtain ⟨n, rfl⟩ : ∃ n, u = { s with draws := n } := by
    obtain rfl | ⟨-, -, rfl⟩ := hu
    · exact ⟨_, rfl⟩
    · exact ⟨_, rfl⟩
  obtain ⟨hb, -, hinf⟩ | hslr | ⟨-, -, ht⟩ := hstep
  · exact ⟨n, .inl ⟨hb, hinf⟩⟩
  · exact ⟨n, .inr (.inl hslr)⟩
  · exact ⟨n, .inr (.inr ht)⟩

theorem infRunOk_unitStep {s t : State} (hs : s.InfRunOk) (h : unitStep s = .next t) : t.InfRunOk := by
  obtain ⟨n, hturn⟩ := unitStep_turn h
  have hn : ({ s with draws := n } : State).InfRunOk := infRunOk_congr (s := s) rfl (fun _ => rfl) hs
  obtain ⟨hb, hinf⟩ | ⟨hb, hslr⟩ | rfl := hturn
  · exact infRunOk_infStep hb hn hinf
  · have hc := slrConfined_slrStep hb hslr
    exact infRunOk_congr hc.inf hc.inn hn
  · exact hn

theorem startSlr_read (flip : Bool) (s : State) (sp : Space) (a : Nat) : (startSlr flip s).read sp a = s.read sp a := by
  unfold startSlr
  dsimp only
  split <;> exact State.read_congr rfl rfl rfl sp a

theorem infRunOk_writeResult {v : Word} {s t : State} (hs : s.InfRunOk) (h : WriteResult v s t) : t.InfRunOk := by
  cases h with
  | startInf => exact infRunOk_startInf _ s
  | zlib idle | inLen idle | outCap idle => exact infRunOk_of_idle idle
  | startSlr => exact infRunOk_congr (startSlr_inf_tabs _ s).1 (startSlr_read _ s .inn) hs
  | ignored | flip | width | height | channels | diag => exact infRunOk_congr (s := s) rfl (fun _ => rfl) hs

/-- Settles O57: a step of INF keeps INV-ACC unless it ends in a fault, and appends within OUT_CAP; the host cannot touch a
busy INF, and a START begins with an empty reader. -/
theorem stepKeepsInfRun : Obligations.StepKeepsInfRun := by
  unfold Obligations.StepKeepsInfRun
  intro s t hs h
  obtain ⟨q, hcases⟩ := machineStep_cases h
  have hq : ({ s with hostQueue := q } : State).InfRunOk := infRunOk_congr (s := s) rfl (fun _ => rfl) hs
  obtain hunit | ⟨reg, v, rfl⟩ | ⟨sp, a, v, idle, -, -, rfl⟩ | rfl | rfl := hcases
  · exact infRunOk_unitStep hq hunit
  · exact infRunOk_writeResult hq (hostWrite_result reg v _)
  · exact infRunOk_of_idle (by simpa [State.infBusy] using idle)
  · exact hq
  · exact infRunOk_of_idle rfl

/-! ### The configuration -/

/-- The configuration of each busy unit, and the capacities, are the same (R27, R36, R349). -/
def ConfigKept (s t : State) : Prop :=
  (s.infBusy = true → t.inf.inLen = s.inf.inLen ∧ t.inf.outCap = s.inf.outCap ∧ t.inf.zlibEn = s.inf.zlibEn) ∧
    (s.slrBusy = true →
      t.slr.width = s.slr.width ∧ t.slr.height = s.slr.height ∧ t.slr.rawCh = s.slr.rawCh ∧ t.slr.outCh = s.slr.outCh ∧
        t.slr.flip = s.slr.flip) ∧
    t.caps = s.caps

theorem configKept_of_regs {s t : State} (hi : t.inf = s.inf) (hs : t.slr = s.slr) (hc : t.caps = s.caps) :
    ConfigKept s t := by
  simp [ConfigKept, hi, hs, hc]

theorem AppendsOnly.configKept {s t : State} (h : AppendsOnly s t) : ConfigKept s t := by
  refine ⟨fun _ => ⟨h.inLen, h.outCap, h.zlibEn⟩, fun _ => ?_, h.caps⟩
  rw [h.slr]
  exact ⟨rfl, rfl, rfl, rfl, rfl⟩

theorem SlrConfined.configKept {s t : State} (h : SlrConfined s t) : ConfigKept s t := by
  refine ⟨fun _ => ?_, fun _ => ⟨h.width, h.height, h.rawCh, h.outCh, h.flip⟩, h.caps⟩
  rw [h.inf]
  exact ⟨rfl, rfl, rfl⟩

theorem configKept_unitStep {s t : State} (h : unitStep s = .next t) : ConfigKept s t := by
  obtain ⟨n, ⟨-, hinf⟩ | ⟨hb, hslr⟩ | rfl⟩ := unitStep_turn h
  · exact (appendsOnly_infStep hinf).configKept
  · exact (slrConfined_slrStep hb hslr).configKept
  · exact configKept_of_regs rfl rfl rfl

theorem startSlr_caps (flip : Bool) (s : State) : (startSlr flip s).caps = s.caps := by
  unfold startSlr
  dsimp only
  split <;> rfl

theorem configKept_writeResult {v : Word} {s t : State} (h : WriteResult v s t) : ConfigKept s t := by
  cases h with
  | ignored | diag => exact configKept_of_regs rfl rfl rfl
  | startInf idle | zlib idle | inLen idle | outCap idle =>
    exact ⟨fun hb => by simp [idle] at hb, fun _ => ⟨rfl, rfl, rfl, rfl, rfl⟩, rfl⟩
  | startSlr idle =>
    refine ⟨fun _ => ?_, fun hb => by simp [idle] at hb, startSlr_caps _ s⟩
    rw [(startSlr_inf_tabs _ s).1]
    exact ⟨rfl, rfl, rfl⟩
  | flip idle | width idle | height idle | channels idle =>
    exact ⟨fun _ => ⟨rfl, rfl, rfl⟩, fun hb => by simp [idle] at hb, rfl⟩

/-- A move of the host other than a reset is a register write, a memory write, nothing, or a step of a busy unit with the
rest of the move put back (R8; assumption 5). -/
theorem hostMove_cases {op : HostOp} {s t : State} (hop : op ≠ .reset) (h : hostMove op s = .next t) :
    (∃ reg v, t = hostWrite reg v s) ∨ (∃ sp a v, t = s.write sp a v) ∨ t = s ∨
      ∃ q, unitStep { s with hostQueue := q } = .next t := by
  cases op with
  | write reg v =>
    cases h
    exact .inl ⟨reg, v, rfl⟩
  | writeMem sp a v =>
    simp only [hostMove, hostWriteByte] at h
    split_ifs at h
    cases h
    exact .inr (.inl ⟨sp, a, v, rfl⟩)
  | wait u =>
    simp only [hostMove] at h
    split_ifs at h
    · exact .inr (.inr (.inr ⟨_, h⟩))
    · cases h
      exact .inr (.inr (.inl rfl))
  | pass n =>
    cases n with
    | zero =>
      cases h
      exact .inr (.inr (.inl rfl))
    | succ n =>
      simp only [hostMove] at h
      split_ifs at h
      · exact .inr (.inr (.inr ⟨_, h⟩))
      · cases h
        exact .inr (.inr (.inl rfl))
  | reset => exact absurd rfl hop

theorem configKept_hostMove {op : HostOp} {s t : State} (hop : op ≠ .reset) (h : hostMove op s = .next t) :
    ConfigKept s t := by
  obtain ⟨reg, v, rfl⟩ | ⟨sp, a, v, rfl⟩ | rfl | ⟨q, hunit⟩ := hostMove_cases hop h
  · exact configKept_writeResult (hostWrite_result reg v s)
  · exact configKept_of_regs (State.write_inf ..) (State.write_slr ..) (State.write_caps ..)
  · exact configKept_of_regs rfl rfl rfl
  · exact configKept_unitStep (s := { s with hostQueue := q }) hunit

/-- Settles O47: the units never write a configuration register, and a host write of one is ignored while its unit is
busy. -/
theorem configurationConstant : Obligations.ConfigurationConstant := by
  unfold Obligations.ConfigurationConstant
  intro s t h hreset
  cases hq : s.hostQueue with
  | nil => exact configKept_unitStep (step_of_no_host_move hq ▸ h)
  | cons op rest =>
    have hop : op ≠ .reset := fun he => hreset rest (he ▸ hq)
    exact configKept_hostMove (s := { s with hostQueue := rest }) hop (step_of_host_move hq ▸ h)

/-! ### Which faults are raised -/

/-- One of INF's faults, whose codes are 1 to 8 (R361). -/
def FaultCode.ofInf (f : FaultCode) : Bool := decide (f.code.toNat ≤ 8)

/-- One of SLR's faults, whose codes are 8 to 11 (R361). -/
def FaultCode.ofSlr (f : FaultCode) : Bool := decide (8 ≤ f.code.toNat)

theorem FaultCode.code_range (f : FaultCode) : 1 ≤ f.code.toNat ∧ f.code.toNat ≤ 11 := by
  cases f <;> decide

theorem consume_raises {n : Nat} {s : State} {e : FaultCode} (h : consume n s = .error e) : e.ofInf = true := by
  unfold consume at h
  dsimp only at h
  split_ifs at h <;> cases h <;> rfl

theorem consumeTwo_raises {n m : Nat} {s : State} {e : FaultCode} (h : consumeTwo n m s = .error e) : e.ofInf = true := by
  unfold consumeTwo at h
  split at h
  · rename_i h1
    cases h
    exact consume_raises h1
  · split at h
    · rename_i h2
      cases h
      exact consume_raises h2
    · cases h

theorem nextByte_raises {f e : FaultCode} {s : State} (hf : f.ofInf = true) (h : nextByte f s = .error e) :
    e.ofInf = true := by
  unfold nextByte at h
  split_ifs at h
  cases h
  exact hf

theorem nextPair_raises {s : State} {e : FaultCode} (h : nextPair s = .error e) : e.ofInf = true := by
  unfold nextPair at h
  split at h
  · rename_i h1
    cases h
    exact nextByte_raises rfl h1
  · split at h
    · rename_i h2
      cases h
      exact nextByte_raises rfl h2
    · cases h

theorem lookup_raises {T : HuffTable} {window : Nat} {e : FaultCode} (h : lookup T window = .error e) : e.ofInf = true := by
  unfold lookup slow at h
  dsimp only at h
  split_ifs at h
  cases h
  rfl

theorem decodeSym_raises {T : HuffTable} {s : State} {e : FaultCode} (h : decodeSym T s = .error e) :
    e.ofInf = true := by
  unfold decodeSym at h
  dsimp only at h
  split at h
  · rename_i h1
    cases h
    exact lookup_raises h1
  · split_ifs at h
    cases h
    rfl

theorem fetchSym_raises {f : Format} {T : HuffTable} {s : State} {e : FaultCode} (h : fetchSym f T s = .error e) :
    e.ofInf = true := by
  unfold fetchSym at h
  split at h
  · rename_i h1
    cases h
    exact decodeSym_raises h1
  · split at h
    · rename_i h2
      cases h
      exact consume_raises h2
    · cases h

theorem consumeTwoWord_raises {n m : Nat} {g : Nat → Nat → Nat × Nat} {s : State} {e : FaultCode}
    (h : (match consumeTwo n m s with
      | .error e => .error e
      | .ok ((a, b), u) => .ok (g a b, u) : Read (Nat × Nat)) = .error e) : e.ofInf = true := by
  split at h
  · rename_i h1
    cases h
    exact consumeTwo_raises h1
  · cases h

theorem fetchWord_raises {f : Format} {s : State} {e : FaultCode} (h : fetchWord f s = .error e) : e.ofInf = true := by
  cases f with
  | zhdr =>
    exact consumeTwoWord_raises (g := fun a b => (a + 256 * b, 0)) h
  | bhdr | filt | filt0 =>
    exact consumeTwoWord_raises (g := fun a b => (a + 2 * b, 0)) h
  | stored =>
    simp only [fetchWord] at h
    split at h
    · rename_i h1
      cases h
      exact nextPair_raises h1
    · split at h
      · rename_i h2
        cases h
        exact nextPair_raises h2
      · cases h
  | dynhdr =>
    simp only [fetchWord] at h
    split at h
    · rename_i h1
      cases h
      exact consumeTwo_raises h1
    · split at h
      · rename_i h2
        cases h
        exact consume_raises h2
      · cases h
  | clsym | llsym | dsym => exact fetchSym_raises h

theorem fetchInf_raises {s : State} {e : FaultCode} (h : fetchInf s = .raise e) : e.ofInf = true := by
  unfold fetchInf at h
  split at h
  · rename_i h1
    cases h
    exact fetchWord_raises h1
  · split at h
    · cases h
    · unfold badWord at h
      split at h <;> cases h <;> rfl

theorem readClLens_raises {n i : Nat} {lens : List (BitVec 3)} {s : State} {e : FaultCode}
    (h : readClLens n i lens s = .error e) : e.ofInf = true := by
  induction n generalizing i lens s with
  | zero => cases h
  | succ n ih =>
    rw [readClLens] at h
    split at h
    · rename_i hc
      cases h
      exact consume_raises hc
    · exact ih h

theorem finishHeader_raises {s : State} {e : FaultCode} (h : finishHeader s = .error e) : e.ofInf = true := by
  unfold finishHeader at h
  split at h
  · cases h
    rfl
  · split at h
    · cases h
      rfl
    · cases h

theorem addLengths_raises {r : Nat} {v : BitVec 4} {s : State} {e : FaultCode} (h : addLengths r v s = .error e) :
    e.ofInf = true := by
  unfold addLengths at h
  dsimp only at h
  split_ifs at h
  · cases h
    rfl
  · exact finishHeader_raises h

theorem copyMatch_raises {length distance : Nat} {s : State} {e : FaultCode} (h : copyMatch length distance s = .error e) :
    e.ofInf = true := by
  unfold copyMatch at h
  split_ifs at h <;> cases h <;> rfl

/-! ### The error register of INF -/

/-- INF has raised no fault since its START. -/
def State.NoFault (s : State) : Prop := s.inf.phase ≠ .error ∧ s.inf.err = 0

/-- After a row: no fault, or one of INF's faults has ended the element (R31, R370). -/
def State.RowErrorOk (s : State) : Prop :=
  s.NoFault ∨ s.inf.phase = .error ∧ s.inf.sub = .boundary ∧ ∃ f : FaultCode, f.ofInf = true ∧ s.inf.err = f.code

theorem rowErrorOk_infFault {f : FaultCode} (hf : f.ofInf = true) (s : State) : (infFault f s).RowErrorOk :=
  .inr ⟨rfl, rfl, f, hf, rfl⟩

theorem noFault_setPhase {p : Phase} {s : State} (hp : p ≠ .error) (hs : s.NoFault) : (setPhase p s).NoFault := ⟨hp, hs.2⟩

theorem noFault_blockEnd {s : State} (hs : s.NoFault) : (blockEnd s).NoFault := by
  unfold blockEnd
  split
  · exact noFault_setPhase (by decide) hs
  · exact noFault_setPhase (by decide) hs

theorem noFault_congr {s t : State} (hp : t.inf.phase = s.inf.phase) (he : t.inf.err = s.inf.err) (hs : s.NoFault) :
    t.NoFault := by
  unfold State.NoFault
  rwa [hp, he]

theorem noFault_onlyReader {s t : State} (h : OnlyReader s t) (hs : s.NoFault) : t.NoFault := by
  rw [h.eq]
  exact hs

/-- A meaning that raises INF's faults only, and raises none where it completes, leaves the error register in order. -/
theorem rowErrorOk_infEnd {s t : State} {r : Except FaultCode State} (raises : ∀ e, r = .error e → e.ofInf = true)
    (completes : ∀ u, r = .ok u → u.NoFault) (h : infEnd s r = .next t) : t.RowErrorOk := by
  obtain hok | ⟨f, hf, rfl⟩ := infEnd_eq_next.1 h
  · exact .inl (completes t hok)
  · exact rowErrorOk_infFault (raises f hf) s

theorem execZhdr_errors {cmf flg : Byte} {s t : State} (hs : s.NoFault) (h : execZhdr cmf flg s = .next t) :
    t.RowErrorOk := by
  refine rowErrorOk_infEnd (fun e he => ?_) (fun u hu => ?_) h
  · split_ifs at he <;> cases he <;> rfl
  · split_ifs at hu
    cases hu
    exact noFault_setPhase (by decide) hs

theorem decodeBlk_errors {w : Nat} {i : Instr} {s t : State} (hi : decodeBlk w = some i) (hs : s.NoFault)
    (h : exec i s = .next t) : t.RowErrorOk := by
  unfold decodeBlk at hi
  split at hi <;> cases hi <;> cases h
  · exact .inl (noFault_setPhase (by decide) hs)
  · exact .inl (noFault_setPhase (by decide) hs)
  · exact .inl (noFault_setPhase (by decide) hs)
  · exact rowErrorOk_infFault rfl _

theorem execStoredData_errors {len nlen : BitVec 16} {s t : State} (hs : s.NoFault)
    (h : execStoredData len nlen s = .next t) : t.RowErrorOk := by
  refine rowErrorOk_infEnd (fun e he => ?_) (fun u hu => ?_) h
  · split_ifs at he <;> cases he <;> rfl
  · split_ifs at hu
    cases hu
    obtain ⟨hinf, -⟩ := copyStored_spec len.toNat s
    exact noFault_blockEnd (noFault_congr (by rw [hinf]) (by rw [hinf]) hs)

theorem execDyn_errors {hlit hdist : BitVec 5} {hclen : BitVec 4} {s t : State} (hs : s.NoFault)
    (h : execDyn hlit hdist hclen s = .next t) : t.RowErrorOk := by
  unfold execDyn at h
  cases hr : readClLens (hclenCount hclen) 0 (List.replicate 19 0) s with
  | error f =>
    rw [hr] at h
    cases h
    exact rowErrorOk_infFault (readClLens_raises hr) s
  | ok v =>
    obtain ⟨clLen, u⟩ := v
    simp only [hr] at h
    split at h
    · cases h
      exact rowErrorOk_infFault rfl s
    · cases h
      exact .inl (noFault_congr (s := u) rfl rfl (noFault_onlyReader (readClLens_onlyReader hr) hs))

theorem addLengths_noFault {r : Nat} {v : BitVec 4} {s t : State} (hs : s.NoFault) (h : addLengths r v s = .ok t) :
    t.NoFault := by
  unfold addLengths at h
  dsimp only at h
  split_ifs at h
  · cases h
    exact hs
  · obtain ⟨ll, d, -, -, rfl⟩ := finishHeader_eq_ok h
    exact noFault_setPhase (by decide) hs

theorem decodeCl_errors {w x : Nat} {i : Instr} {s t : State} (hi : decodeCl w x = some i) (hs : s.NoFault)
    (h : exec i s = .next t) : t.RowErrorOk := by
  obtain ⟨r, v, -, e⟩ | e := decodeCl_exec hi s <;> rw [e] at h
  · exact rowErrorOk_infEnd (fun _ => addLengths_raises) (fun _ => addLengths_noFault hs) h
  · cases h
    exact rowErrorOk_infFault rfl s

theorem execLit_errors {b : Byte} {s t : State} (hs : s.NoFault) (h : execLit b s = .next t) : t.RowErrorOk := by
  refine rowErrorOk_infEnd (fun e he => ?_) (fun u hu => ?_) h
  · split_ifs at he
    cases he
    rfl
  · split_ifs at hu
    cases hu
    exact noFault_congr (by simp) (by simp) hs

theorem decodeLL_errors {w x : Nat} {i : Instr} {s t : State} (hi : decodeLL w x = some i) (hs : s.NoFault)
    (h : exec i s = .next t) : t.RowErrorOk := by
  unfold decodeLL at hi
  split_ifs at hi
  · cases hi
    exact execLit_errors hs h
  · cases hi
    cases h
    exact .inl (noFault_blockEnd hs)
  · obtain ⟨base, e, -, he⟩ | he := decodeLen_exec hi <;> rw [he] at h <;> cases h
    · exact .inl hs
    · exact rowErrorOk_infFault rfl s

theorem copyMatch_eq_ok {length distance : Nat} {s t : State} (h : copyMatch length distance s = .ok t) :
    distance ≤ s.inf.olen ∧ t = copyLoop distance length s := by
  unfold copyMatch at h
  split_ifs at h
  cases h
  exact ⟨by omega, rfl⟩

theorem distanceToken_errors {base f : Nat} {s t : State} (pos : 1 ≤ base) (hs : s.NoFault)
    (h : distanceToken base f s = .next t) : t.RowErrorOk := by
  unfold distanceToken at h
  cases hm : copyMatch s.inf.mlen (base + f) s with
  | error e =>
    rw [hm] at h
    cases h
    exact rowErrorOk_infFault (copyMatch_raises hm) s
  | ok u =>
    rw [hm] at h
    cases h
    obtain ⟨reach, rfl⟩ := copyMatch_eq_ok hm
    obtain ⟨hinf, -⟩ := endMatch_inf (d := base + f) (by omega) reach
    exact .inl (noFault_congr (t := endMatch (base + f) s) (by rw [hinf]) (by rw [hinf]) hs)

theorem decodeDist_errors {w x : Nat} {i : Instr} {s t : State} (hi : decodeDist w x = some i) (hs : s.NoFault)
    (h : exec i s = .next t) : t.RowErrorOk := by
  obtain ⟨base, f, pos, e⟩ | e := decodeDist_exec hi <;> rw [e] at h
  · exact distanceToken_errors pos hs h
  · cases h
    exact rowErrorOk_infFault rfl s

theorem exec_errors {f : Format} {w x : Nat} {i : Instr} {s t : State} (hf : f ≠ .filt) (hf0 : f ≠ .filt0)
    (hd : decode f w x = .ok i) (hs : s.NoFault) (h : exec i s = .next t) : t.RowErrorOk := by
  have hi := decode_eq_ok.1 hd
  cases f with
  | zhdr =>
    obtain ⟨-, hi⟩ := Option.ite_none_right_eq_some.1 hi
    cases hi
    exact execZhdr_errors hs h
  | bhdr => exact decodeBlk_errors hi hs h
  | stored =>
    obtain ⟨-, hi⟩ := Option.ite_none_right_eq_some.1 hi
    cases hi
    exact execStoredData_errors hs h
  | dynhdr =>
    obtain ⟨-, hi⟩ := Option.ite_none_right_eq_some.1 hi
    cases hi
    exact execDyn_errors hs h
  | clsym => exact decodeCl_errors hi hs h
  | llsym => exact decodeLL_errors hi hs h
  | dsym => exact decodeDist_errors hi hs h
  | filt => exact absurd rfl hf
  | filt0 => exact absurd rfl hf0

theorem fetchInf_instr {s t : State} {i : Instr} (h : fetchInf s = .instr i t) :
    ∃ w x, fetchWord s.infFormat s = .ok ((w, x), t) ∧ decode s.infFormat w x = .ok i := by
  unfold fetchInf at h
  split at h
  · cases h
  · rename_i w x u hw
    split at h
    · rename_i hd
      cases h
      exact ⟨w, x, hw, hd⟩
    · unfold badWord at h
      split at h <;> cases h

theorem infRow_errors {s t : State} (hs : s.NoFault) (h : infRow s = .next t) : t.RowErrorOk := by
  unfold infRow at h
  cases hf : fetchInf s with
  | instr i u =>
    rw [hf] at h
    obtain ⟨w, x, hw, hd⟩ := fetchInf_instr hf
    obtain ⟨hfilt, hfilt0⟩ := infFormat_ne_filt s
    exact exec_errors hfilt hfilt0 hd (noFault_onlyReader (fetchWord_onlyReader hw) hs) h
  | raise e =>
    rw [hf] at h
    cases h
    exact rowErrorOk_infFault (fetchInf_raises hf) s
  | refuse r =>
    rw [hf] at h
    cases h

theorem infStep_errors {s t : State} (hs : s.NoFault) (h : infStep s = .next t) : t.RowErrorOk := by
  refine infStep_induct (P := State.RowErrorOk) ?_ (fun _ => infRow_errors hs) h
  rintro u v (hu | ⟨-, hb, -⟩) hsub hrow
  · exact infRow_errors hu hrow
  · exact absurd hb hsub

/-! ### The error registers -/

/-- INF's part of `State.ErrorsOk`. -/
def Inf.ErrorOk (i : Inf) : Prop := if i.phase = .error then 1 ≤ i.err.toNat ∧ i.err.toNat ≤ 8 else i.err = 0

/-- SLR's part of `State.ErrorsOk`. -/
def Slr.ErrorOk (r : Slr) : Prop := if r.phase = .error then 8 ≤ r.err.toNat ∧ r.err.toNat ≤ 11 else r.err = 0

theorem errorsOk_iff (s : State) : s.ErrorsOk ↔ s.inf.ErrorOk ∧ s.slr.ErrorOk := Iff.rfl

theorem infErrorOk_of_noFault {s : State} (h : s.NoFault) : s.inf.ErrorOk := (if_neg h.1).mpr h.2

theorem noFault_of_infBusy {s : State} (hb : s.infBusy = true) (h : s.inf.ErrorOk) : s.NoFault :=
  have hp := phase_ne_error_of_infBusy hb
  ⟨hp, (if_neg hp).mp h⟩

theorem infErrorOk_of_rowErrorOk {s : State} (h : s.RowErrorOk) : s.inf.ErrorOk := by
  obtain h | ⟨hp, -, f, hf, he⟩ := h
  · exact infErrorOk_of_noFault h
  · rw [Inf.ErrorOk, if_pos hp, he]
    exact ⟨f.code_range.1, of_decide_eq_true hf⟩

theorem slrErrorOk_slrFault {f : FaultCode} (hf : f.ofSlr = true) (s : State) : (slrFault f s).slr.ErrorOk := by
  rw [Slr.ErrorOk, if_pos (slrFault_phase f s)]
  exact ⟨of_decide_eq_true hf, f.code_range.2⟩

theorem slrErrorOk_of_phase {r : Slr} (hp : r.phase ≠ .error) (he : r.err = 0) : r.ErrorOk := (if_neg hp).mpr he

theorem slrErrorOk_runRow (eff : Filter) {s : State} (hp : s.slr.phase ≠ .error) (he : s.slr.err = 0) :
    (runRow eff s).slr.ErrorOk := by
  obtain ⟨-, -, hslr⟩ := runRow_frame eff s
  rw [hslr]
  refine slrErrorOk_of_phase ?_ he
  dsimp only
  split_ifs
  exacts [by decide, by decide, hp]

theorem slrErrorOk_flipStep {s : State} (he : s.slr.err = 0) : (flipStep s).slr.ErrorOk := by
  rw [flipStep_slr]
  exact slrErrorOk_of_phase (by simp) he

theorem slrErrorOk_slrStep {s t : State} (hb : s.slrBusy = true) (hs : s.slr.ErrorOk) (h : slrStep s = .next t) :
    t.slr.ErrorOk := by
  have hp : s.slr.phase ≠ .error := fun hp => by simp [State.slrBusy, hp] at hb
  have he : s.slr.err = 0 := (if_neg hp).mp hs
  obtain ⟨-, rfl⟩ | ⟨-, rfl⟩ | ⟨-, ⟨eff, rfl⟩ | rfl⟩ := slrStep_cases hb h
  · unfold disturbedStep
    split
    · exact slrErrorOk_flipStep he
    · exact slrErrorOk_runRow .none hp he
  · exact slrErrorOk_flipStep he
  · exact slrErrorOk_runRow eff hp he
  · exact slrErrorOk_slrFault rfl s

theorem errorsOk_unitStep {s t : State} (hs : s.ErrorsOk) (h : unitStep s = .next t) : t.ErrorsOk := by
  obtain ⟨hi, hsl⟩ := (errorsOk_iff s).1 hs
  rw [errorsOk_iff]
  obtain ⟨n, ⟨hb, hinf⟩ | ⟨hb, hslr⟩ | rfl⟩ := unitStep_turn h
  · have hn : ({ s with draws := n } : State).NoFault := noFault_of_infBusy hb hi
    rw [(appendsOnly_infStep hinf).slr]
    exact ⟨infErrorOk_of_rowErrorOk (infStep_errors hn hinf), hsl⟩
  · rw [(slrConfined_slrStep hb hslr).inf]
    exact ⟨hi, slrErrorOk_slrStep hb hsl hslr⟩
  · exact ⟨hi, hsl⟩

theorem slrCheck_raises {s : State} {f : FaultCode} (h : slrCheck s = some f) : f.ofSlr = true := by
  unfold slrCheck at h
  dsimp only at h
  split_ifs at h <;> cases h <;> rfl

theorem slrErrorOk_startSlr (flip : Bool) (s : State) : (startSlr flip s).slr.ErrorOk := by
  unfold startSlr
  dsimp only
  split
  · rename_i f hf
    exact slrErrorOk_slrFault (slrCheck_raises hf) _
  · exact slrErrorOk_of_phase (by simp) rfl

theorem errorsOk_writeResult {v : Word} {s t : State} (hs : s.ErrorsOk) (h : WriteResult v s t) : t.ErrorsOk := by
  obtain ⟨hi, hsl⟩ := hs
  cases h with
  | ignored | zlib | inLen | outCap | flip | width | height | channels | diag => exact ⟨hi, hsl⟩
  | startInf => exact ⟨infErrorOk_of_noFault ⟨by unfold startInf; dsimp only; split <;> decide, rfl⟩, hsl⟩
  | startSlr =>
    refine (errorsOk_iff _).2 ⟨?_, slrErrorOk_startSlr _ s⟩
    rw [(startSlr_inf_tabs _ s).1]
    exact hi

/-- Settles O40: a row of INF enters INF's faults only, a row of SLR and a START of SLR enter SLR's only, and a START clears
the register. -/
theorem errorRegisters : Obligations.ErrorRegisters := by
  unfold Obligations.ErrorRegisters
  intro s t hs h
  obtain ⟨q, hcases⟩ := machineStep_cases h
  have hq : ({ s with hostQueue := q } : State).ErrorsOk := hs
  obtain hunit | ⟨reg, v, rfl⟩ | ⟨sp, a, v, -, -, -, rfl⟩ | rfl | rfl := hcases
  · exact errorsOk_unitStep hq hunit
  · exact errorsOk_writeResult hq (hostWrite_result reg v _)
  · rw [errorsOk_iff, State.write_inf, State.write_slr]
    exact hq
  · exact hq
  · exact ⟨rfl, rfl⟩

/-! ### The START of SLR -/

theorem legalPair_iff (c o : Nat) :
    legalPair c o = true ↔ (c, o) ∈ [(1, 1), (2, 2), (3, 3), (4, 4), (1, 2), (3, 4)] := by
  simp only [legalPair, Bool.or_eq_true, decide_eq_true_eq, List.mem_cons, List.not_mem_nil, Prod.mk.injEq, or_false]
  omega

/-- The start checks (R301), those that raise the same fault one after the other put together. -/
theorem slrCheck_eq (s : State) :
    slrCheck s =
      if s.inf.phase ≠ .done then some .notReady
      else if ¬(1 ≤ s.slr.width.toNat ∧ s.slr.width.toNat ≤ 2 ^ 24 ∧ 1 ≤ s.slr.height.toNat ∧ s.slr.height.toNat ≤ 2 ^ 24)
        then some .unsupportedConfig
      else if (s.slr.rawCh.toNat, s.slr.outCh.toNat) ∉ [(1, 1), (2, 2), (3, 3), (4, 4), (1, 2), (3, 4)]
        then some .unsupportedConfig
      else if ¬((s.slr.width.toNat * s.slr.rawCh.toNat + 1) * s.slr.height.toNat < 2 ^ 32 ∧
          s.slr.width.toNat * s.slr.outCh.toNat * s.slr.height.toNat < 2 ^ 32 ∧
          (s.slr.width.toNat * s.slr.rawCh.toNat + 1) * s.slr.height.toNat ≤ s.inf.olen ∧
          s.slr.width.toNat * s.slr.rawCh.toNat ≤ s.caps.rowCap ∧
          s.slr.width.toNat * s.slr.outCh.toNat * s.slr.height.toNat ≤ s.caps.imgCap) then some .capacityError
      else none := by
  change _ = if _ then _ else if _ then _ else if _ then _ else if ¬(s.needed < 2 ^ 32 ∧ s.imgSize < 2 ^ 32 ∧
    s.needed ≤ s.inf.olen ∧ s.stride ≤ s.caps.rowCap ∧ s.imgSize ≤ s.caps.imgCap) then _ else _
  have hdims : (s.slr.width.toNat = 0 ∨ Config.dimMax < s.slr.width.toNat ∨ s.slr.height.toNat = 0 ∨
      Config.dimMax < s.slr.height.toNat) ↔ ¬(1 ≤ s.slr.width.toNat ∧ s.slr.width.toNat ≤ 2 ^ 24 ∧
        1 ≤ s.slr.height.toNat ∧ s.slr.height.toNat ≤ 2 ^ 24) := by
    unfold Config.dimMax
    omega
  have hpair : ((s.slr.rawCh.toNat = 0 ∨ 4 < s.slr.rawCh.toNat) ∨ legalPair s.slr.rawCh.toNat s.slr.outCh.toNat = false) ↔
      (s.slr.rawCh.toNat, s.slr.outCh.toNat) ∉ [(1, 1), (2, 2), (3, 3), (4, 4), (1, 2), (3, 4)] := by
    rw [← legalPair_iff, Bool.not_eq_true, or_iff_right_of_imp]
    intro hc
    rw [← Bool.not_eq_true, legalPair_iff]
    simp only [List.mem_cons, List.not_mem_nil, Prod.mk.injEq, or_false]
    omega
  have hsizes : ((Config.sizeLimit ≤ s.needed ∨ Config.sizeLimit ≤ s.imgSize) ∨ s.inf.olen < s.needed ∨
      s.caps.rowCap < s.stride ∨ s.caps.imgCap < s.imgSize) ↔ ¬(s.needed < 2 ^ 32 ∧ s.imgSize < 2 ^ 32 ∧
        s.needed ≤ s.inf.olen ∧ s.stride ≤ s.caps.rowCap ∧ s.imgSize ≤ s.caps.imgCap) := by
    unfold Config.sizeLimit
    omega
  simp only [slrCheck, ← ite_or, hdims, hpair, hsizes]

/-- What SLR_CTRL.START clears is not among what its checks look at (R37, R301). -/
theorem slrCheck_clearSlr (flip : Bool) (s : State) : slrCheck (clearSlr flip s) = slrCheck s := rfl

/-- Settles O50: the start checks in the order of R301, those of one fault put together. -/
theorem slrStart : Obligations.SlrStart := by
  unfold Obligations.SlrStart
  intro v s
  rw [hostWrite_slrCtrl]
  refine ⟨fun hb => by rw [if_pos hb], fun hb hv => by rw [hb, hv]; rfl, fun hb hv => ?_⟩
  rw [hb, hv, if_neg Bool.false_ne_true, if_pos rfl, startSlr, slrCheck_clearSlr, slrCheck_eq]
  dsimp only
  split_ifs <;> rfl

/-! ### The register map -/

/-- A STATUS word (R28): five flags and the code of the phase. -/
def statusWord (b0 b1 b2 b3 b4 : Bool) (code : Nat) : Word :=
  BitVec.ofNat 32 (bit b0 + 2 * bit b1 + 4 * bit b2 + 8 * bit b3 + 16 * bit b4 + 256 * code)

theorem hostRead_infStatus (s : State) :
    hostRead 1 s = statusWord s.infBusy (s.inf.phase = .done) (s.inf.phase = .error) s.inf.finalSeen (s.inf.tsel = .dynamic)
      s.inf.phase.code := rfl

theorem hostRead_slrStatus (s : State) :
    hostRead 9 s = statusWord s.slrBusy (s.slr.phase = .done) (s.slr.phase = .error) s.slr.forcedTransparency false
      s.slr.phase.code := rfl

/-- Every field of a STATUS word reads back, and the bits outside them are 0. -/
theorem statusWord_fields : ∀ (b0 b1 b2 b3 b4 : Bool), ∀ code < 8,
    (statusWord b0 b1 b2 b3 b4 code).getLsbD 0 = b0 ∧ (statusWord b0 b1 b2 b3 b4 code).getLsbD 1 = b1 ∧
      (statusWord b0 b1 b2 b3 b4 code).getLsbD 2 = b2 ∧ (statusWord b0 b1 b2 b3 b4 code).getLsbD 3 = b3 ∧
      (statusWord b0 b1 b2 b3 b4 code).getLsbD 4 = b4 ∧
      ((statusWord b0 b1 b2 b3 b4 code).extractLsb' 8 3).toNat = code ∧
      statusWord b0 b1 b2 b3 b4 code &&& 0xFFFFF8E0 = 0 ∧
      statusWord b0 b1 b2 b3 false code &&& 0xFFFFF8F0 = 0 := by
  decide

theorem Phase.code_lt (p : Phase) : p.code < 8 := by cases p <;> decide

theorem SlrPhase.code_lt (p : SlrPhase) : p.code < 8 := by cases p <;> decide

/-- The phase codes (R24). -/
theorem Phase.code_of_mem : ∀ p ∈ [(Phase.idle, 0), (.zhdr, 1), (.bhdr, 2), (.stored, 3), (.dynhdr, 4), (.syms, 5),
    (.done, 6), (.error, 7)], p.1.code = p.2 := by decide

/-- The phase codes (R36). -/
theorem SlrPhase.code_of_mem : ∀ p ∈ [(SlrPhase.idle, 0), (.rows, 1), (.flipping, 2), (.done, 6), (.error, 7)],
    p.1.code = p.2 := by decide

theorem infBusy_eq (s : State) : s.infBusy = decide (s.inf.phase ∈ [.zhdr, .bhdr, .stored, .dynhdr, .syms]) := by
  unfold State.infBusy
  cases s.inf.phase <;> rfl

theorem slrBusy_eq (s : State) : s.slrBusy = decide (s.slr.phase ∈ [.rows, .flipping]) := by
  unfold State.slrBusy
  cases s.slr.phase <;> rfl

theorem hostRead_infCtrl (s : State) : hostRead 0 s = if s.inf.zlibEn then 2 else 0 := by
  cases h : s.inf.zlibEn <;> simp [hostRead, h, bit]

theorem hostRead_slrCtrl (s : State) : hostRead 8 s = if s.slr.flip then 2 else 0 := by
  cases h : s.slr.flip <;> simp [hostRead, h, bit]

theorem and_two (v : Word) : v &&& 2 = if v.getLsbD 1 then 2 else 0 := BitVec.and_twoPow v 1

theorem and_byteMask (v : Word) : (v.setWidth 8).setWidth 32 = v &&& 0xFF := by
  have hmask : ∀ i < 32, (0xFF : Word).getLsbD i = decide (i < 8) := by decide
  refine BitVec.eq_of_getLsbD_eq fun i hi => ?_
  rw [BitVec.getLsbD_and, hmask i hi, BitVec.getLsbD_setWidth, BitVec.getLsbD_setWidth]
  simp [hi, Bool.and_comm]

/-- CHANNELS holds C in bits 2:0 and O in bits 6:4 (R28, register 13). -/
theorem and_channelsMask (v : Word) :
    BitVec.ofNat 32 ((v.extractLsb' 0 3).toNat + 16 * (v.extractLsb' 4 3).toNat) = v &&& 0x77 := by
  have hmask : ∀ i < 32, (0x77 : Word).getLsbD i = (decide (i < 3) || decide (4 ≤ i ∧ i < 7)) := by decide
  have hlow := (v.extractLsb' 0 3).isLt
  refine BitVec.eq_of_getLsbD_eq fun i hi => ?_
  rw [BitVec.getLsbD_and, hmask i hi, BitVec.getLsbD_ofNat, Nat.add_comm,
    show 16 = 2 ^ 4 from rfl, Nat.testBit_two_pow_mul_add _ (by omega), BitVec.testBit_toNat, BitVec.testBit_toNat,
    BitVec.getLsbD_extractLsb', BitVec.getLsbD_extractLsb']
  by_cases h4 : i < 4
  · have h : ¬4 ≤ i := by omega
    simp [hi, h4, h, Bool.and_comm]
  · have h : 4 + (i - 4) = i := by omega
    have h3 : ¬i < 3 := by omega
    have h7 : i - 4 < 3 ↔ 4 ≤ i ∧ i < 7 := by omega
    simp [hi, h4, h, h3, h7, Bool.and_comm]

theorem startSlr_flip (flip : Bool) (s : State) : (startSlr flip s).slr.flip = flip := by
  unfold startSlr
  dsimp only
  split <;> rfl

theorem hostWrite_infCtrl_zlibEn (v : Word) {s : State} (h : s.infBusy = false) :
    (hostWrite 0 v s).inf.zlibEn = v.getLsbD 1 := by
  rw [hostWrite_infCtrl, h, if_neg Bool.false_ne_true]
  split <;> rfl

theorem hostWrite_slrCtrl_flip (v : Word) {s : State} (h : s.slrBusy = false) :
    (hostWrite 8 v s).slr.flip = v.getLsbD 1 := by
  rw [hostWrite_slrCtrl, h, if_neg Bool.false_ne_true]
  split
  · exact startSlr_flip _ s
  · rfl

/-- Settles O52: the CTRL and STATUS words by their fields, the other registers as they are. -/
theorem registerMap : Obligations.RegisterMap := by
  unfold Obligations.RegisterMap
  refine ⟨fun v s hi hs => ?_, fun s => ?_⟩
  · refine ⟨?_, ?_, ?_, ?_, ?_, and_byteMask v, ?_, ?_⟩
    · simp [hostRead, hostWrite, hi]
    · simp [hostRead, hostWrite, hi]
    · simp [hostRead, hostWrite, hs]
    · simp [hostRead, hostWrite, hs]
    · rw [← and_channelsMask]
      simp [hostRead, hostWrite, hs]
    · rw [hostRead_infCtrl, hostWrite_infCtrl_zlibEn v hi, and_two]
    · rw [hostRead_slrCtrl, hostWrite_slrCtrl_flip v hs, and_two]
  · obtain ⟨i0, i1, i2, i3, i4, icode, irest, -⟩ := statusWord_fields s.infBusy (s.inf.phase = .done) (s.inf.phase = .error)
      s.inf.finalSeen (s.inf.tsel = .dynamic) s.inf.phase.code s.inf.phase.code_lt
    obtain ⟨l0, l1, l2, l3, -, lcode, -, lrest⟩ := statusWord_fields s.slrBusy (s.slr.phase = .done) (s.slr.phase = .error)
      s.slr.forcedTransparency false s.slr.phase.code s.slr.phase.code_lt
    rw [hostRead_infStatus, hostRead_slrStatus, ← infBusy_eq, ← slrBusy_eq, icode, lcode]
    exact ⟨i0, i1, i2, i3, i4, fun p hp h => h ▸ Phase.code_of_mem p hp, irest, l0, l1, l2, l3,
      fun p hp h => h ▸ SlrPhase.code_of_mem p hp, lrest, rfl, rfl, rfl, rfl, rfl, rfl⟩

/-- Settles O49: the equation of a write of INF_CTRL, case by case. -/
theorem infStart : Obligations.InfStart := by
  unfold Obligations.InfStart
  intro v s
  rw [hostWrite_infCtrl]
  refine ⟨fun hb hv => ?_, fun hb => by rw [if_pos hb], fun hb hv => by rw [hb, hv]; rfl⟩
  rw [hb, hv]
  rfl

/-- Settles O20: what INF reads next is `fetchSym` on the table that is active. -/
theorem symbolFetch : Obligations.SymbolFetch := by
  unfold Obligations.SymbolFetch
  intro s f T hsel
  have hword : s.infFormat = f ∧ fetchWord f s = fetchSym f T s := by
    obtain ⟨rfl, hsub, hp, rfl⟩ | ⟨rfl, hsub, rfl⟩ | ⟨rfl, hsub, rfl⟩ := hsel
    · refine ⟨by simp [State.infFormat, hsub, hp], ?_⟩
      cases h : s.inf.tsel <;> simp [fetchWord, State.llTable, h]
    · refine ⟨infFormat_of_distance hsub, ?_⟩
      cases h : s.inf.tsel <;> simp [fetchWord, State.dTable, h]
    · exact ⟨infFormat_of_clTokens hsub, rfl⟩
  obtain ⟨hf, hword⟩ := hword
  simp only [fetchInf, hf, hword, fetchSym]
  refine ⟨fun e he => by simp [he], fun sym t hs => ⟨fun e he => by simp [hs, he], fun x u i hx hi => by simp [hs, hx, hi]⟩⟩

/-- Settles O53: both units and `diag` are as at reset, whatever the reset found. -/
theorem resetRegisters : Obligations.ResetRegisters := by
  unfold Obligations.ResetRegisters
  refine ⟨by decide, fun s hs => ?_⟩
  have hregs : s.inf = Inf.reset ∧ s.slr = Slr.reset ∧ s.diag = 0 := by
    obtain rfl | ⟨u, hu⟩ := hs
    · exact ⟨rfl, rfl, rfl⟩
    · cases hu
      exact ⟨rfl, rfl, rfl⟩
  obtain ⟨hi, hsl, hd⟩ := hregs
  rw [hi, hsl, hd]
  simp [Inf.reset, Slr.reset]

/-- Settles O60: nothing is written and no unit is busy. -/
theorem invariantsAtReset : Obligations.InvariantsAtReset := by
  unfold Obligations.InvariantsAtReset
  exact ⟨by decide, infRunOk_of_idle rfl, ⟨rfl, tablesOk_of_phase (by decide)⟩, fun hb => (nomatch hb), rfl, rfl⟩

end Sys2Proof.Machine

/-! PROOFS for the family 20_memory: the frame of a step of SLR (O46), the canonical form of the memories (O56), host accesses to
memory (O54, O55), fetching what is placed (O4). -/

namespace Sys2Proof.Machine

/-! ### The bytes a step of SLR writes -/

/-- A row step leaves every byte outside the current row buffer's stride and the row of IMG alone (R303, R343). -/
theorem runRow_read (eff : Filter) {s : State} (hc : 1 ≤ s.slr.rawCh.toNat) (sp : Space) (a : Nat)
    (hrow : ¬(sp = curRow s.slr.row ∧ a < s.stride))
    (himg : ¬(sp = .img ∧ s.slr.row * s.imgRow ≤ a ∧ a < s.slr.row * s.imgRow + s.imgRow)) :
    (runRow eff s).read sp a = s.read sp a := by
  obtain ⟨⟨-, hslr⟩, hrecon, -⟩ := reconRow_spec eff s.stride 0 hc
  have hwrite := (writePixels_spec s.slr.width.toNat 0 (reconRow eff s.stride 0 s)).2.1
  have hbase : (s.slr.row * s.slr.width.toNat + 0) * s.slr.outCh.toNat = s.slr.row * s.imgRow := by
    rw [State.imgRow, Nat.add_zero, Nat.mul_assoc]
  rw [hslr, hbase] at hwrite
  calc (runRow eff s).read sp a
      = (writePixels s.slr.width.toNat 0 (reconRow eff s.stride 0 s)).read sp a := by
        rw [← hslr]
        exact State.read_congr rfl rfl rfl sp a
    _ = (reconRow eff s.stride 0 s).read sp a := hwrite sp a himg
    _ = s.read sp a := hrecon sp a fun ⟨hsp, _, ha⟩ => hrow ⟨hsp, by omega⟩

theorem flipStep_read (s : State) (sp : Space) (a : Nat) (h : ¬(sp = .img ∧ a < s.slr.height.toNat * s.imgRow)) :
    (flipStep s).read sp a = s.read sp a :=
  (flipRows_spec (s.slr.height.toNat / 2) 0 s (by omega)).2.1 sp a h

theorem imgSize_eq (s : State) : s.imgSize = s.slr.height.toNat * s.imgRow := by
  rw [State.imgSize, State.imgRow, Nat.mul_comm]

theorem rawCh_pos {s : State} (h : s.SlrRunOk) : 1 ≤ s.slr.rawCh.toNat := by
  have := h.channels
  simp only [legalPair, Bool.or_eq_true, decide_eq_true_iff] at this
  omega

/-- The row of IMG that a row step writes lies within the image (R301, R343). -/
theorem row_within_image {s : State} (h : s.slr.row < s.slr.height.toNat) :
    s.slr.row * s.imgRow + s.imgRow ≤ s.imgSize := by
  rw [imgSize_eq, ← Nat.succ_mul]
  exact Nat.mul_le_mul_right _ h

/-- Unless the host has disturbed the run, a step of SLR writes within the stride of the row buffers and within the image. -/
theorem slrStep_read {s t : State} (hb : s.slrBusy = true) (hs : s.SlrRunOk) (hd : s.disturbed = false)
    (h : slrStep s = .next t) (sp : Space) (a : Nat) (hrow : sp = .row0 ∨ sp = .row1 → s.stride ≤ a)
    (himg : sp = .img → s.imgSize ≤ a) : t.read sp a = s.read sp a := by
  obtain ⟨hd', -⟩ | ⟨-, rfl⟩ | ⟨hp, ⟨eff, rfl⟩ | rfl⟩ := slrStep_cases hb h
  · simp [hd] at hd'
  · refine flipStep_read s sp a fun ⟨hsp, ha⟩ => ?_
    have := himg hsp
    rw [imgSize_eq] at this
    omega
  · refine runRow_read eff (rawCh_pos hs) sp a (fun ⟨hsp, ha⟩ => ?_) fun ⟨hsp, _, ha⟩ => ?_
    · have hcur : sp = .row0 ∨ sp = .row1 := by
        rw [hsp, curRow]
        split
        exacts [.inl rfl, .inr rfl]
      have := hrow hcur
      omega
    · have := himg hsp
      have := row_within_image (hs.inRows hp)
      omega
  · exact State.read_congr rfl rfl rfl sp a

/-- What holds after the flip and after a row, whatever its filter, and is kept when SLR's spaces are spoiled, holds after a step
of a busy SLR if it holds after the entry of InvalidFilter. -/
theorem slrStep_induct {P : State → Prop} {s t : State} (hb : s.slrBusy = true) (h : slrStep s = .next t)
    (flip : P (flipStep s)) (row : ∀ eff, P (runRow eff s)) (spoil : ∀ u, P u → P (spoilRows u))
    (fault : P (slrFault .invalidFilter s)) : P t := by
  obtain ⟨-, rfl⟩ | ⟨-, rfl⟩ | ⟨-, ⟨eff, rfl⟩ | rfl⟩ := slrStep_cases hb h
  · unfold disturbedStep
    split
    · exact spoil _ flip
    · exact spoil _ (row .none)
  · exact flip
  · exact row eff
  · exact fault

theorem slrStep_read_out {s t : State} (hb : s.slrBusy = true) (h : slrStep s = .next t) (a : Nat) :
    t.read .out a = s.read .out a := by
  refine slrStep_induct (P := fun u => u.read .out a = s.read .out a) hb h ?_ (fun eff => ?_) (fun _ hu => hu) rfl
  · exact flipStep_read s .out a fun ⟨hsp, _⟩ => nomatch hsp
  · exact ((runRow_frame eff s).2.1 a).2

theorem slrStep_disturbed {s t : State} (hb : s.slrBusy = true) (h : slrStep s = .next t) :
    t.disturbed = s.disturbed := by
  refine slrStep_induct (P := fun u => u.disturbed = s.disturbed) hb h ?_ (fun eff => ?_) (fun _ hu => hu) rfl
  · obtain ⟨-, -, -, -, -, -, -, hdis, -⟩ := flipStep_sameBesidesSlr s
    exact hdis
  · obtain ⟨⟨-, -, -, -, -, -, -, hdis, -⟩, -⟩ := runRow_frame eff s
    exact hdis

theorem slrStep_row_le {s t : State} (hb : s.slrBusy = true) (h : slrStep s = .next t) :
    t.slr.row = s.slr.row ∨ t.slr.row = s.slr.row + 1 := by
  refine slrStep_induct (P := fun u => u.slr.row = s.slr.row ∨ u.slr.row = s.slr.row + 1) hb h (.inl ?_)
    (fun eff => .inr ?_) (fun _ hu => hu) (.inl rfl)
  · rw [flipStep_slr]
  · obtain ⟨-, -, hslr⟩ := runRow_frame eff s
    rw [hslr]

/-- Settles O46: the start checks keep the row and the flip within the image, and a row step within its buffer's stride. -/
theorem slrWritesOnlyRowsAndImage : Obligations.SlrWritesOnlyRowsAndImage := by
  unfold Obligations.SlrWritesOnlyRowsAndImage
  intro s t hb hs h
  have hc := slrConfined_slrStep hb h
  obtain ⟨-, htabs⟩ := slrStep_inf_tabs hb h
  refine ⟨fun a => ⟨hc.inn a, slrStep_read_out hb h a⟩, fun hd a => ⟨fun ha => ⟨?_, ?_⟩, fun ha => ?_⟩, hc.inf, htabs,
    hc.caps, slrStep_disturbed hb h, slrStep_row_le hb h, hc.width, hc.height, hc.rawCh, hc.outCh, hc.flip⟩
  · exact slrStep_read hb hs hd h .row0 a (fun _ => ha) fun hsp => nomatch hsp
  · exact slrStep_read hb hs hd h .row1 a (fun _ => ha) fun hsp => nomatch hsp
  · exact slrStep_read hb hs hd h .img a (fun hsp => by simp at hsp) fun _ => ha

/-! ### The canonical form of the memories -/

theorem memoriesOk_reconRow (eff : Filter) (n x : Nat) {s : State} (h : s.memoriesOk = true) :
    (reconRow eff n x s).memoriesOk = true := by
  induction n generalizing x s with
  | zero => exact h
  | succ n ih => exact ih _ (memoriesOk_write s _ _ _ h)

theorem memoriesOk_writePixel (px n k : Nat) {s : State} (h : s.memoriesOk = true) :
    (writePixel px n k s).memoriesOk = true := by
  induction n generalizing k s with
  | zero => exact h
  | succ n ih => exact ih _ (memoriesOk_write s _ _ _ h)

theorem memoriesOk_writePixels (n px : Nat) {s : State} (h : s.memoriesOk = true) :
    (writePixels n px s).memoriesOk = true := by
  induction n generalizing px s with
  | zero => exact h
  | succ n ih => exact ih _ (memoriesOk_writePixel px _ 0 h)

theorem memoriesOk_runRow (eff : Filter) {s : State} (h : s.memoriesOk = true) : (runRow eff s).memoriesOk = true :=
  memoriesOk_writePixels _ 0 (memoriesOk_reconRow eff s.stride 0 h)

theorem memoriesOk_swapRows (p q n k : Nat) {s : State} (h : s.memoriesOk = true) :
    (swapRows p q n k s).memoriesOk = true := by
  induction n generalizing k s with
  | zero => exact h
  | succ n ih => exact ih _ (memoriesOk_write _ _ _ _ (memoriesOk_write s _ _ _ h))

theorem memoriesOk_flipRows (n i : Nat) {s : State} (h : s.memoriesOk = true) : (flipRows n i s).memoriesOk = true := by
  induction n generalizing i s with
  | zero => exact h
  | succ n ih => exact ih _ (memoriesOk_swapRows _ _ _ 0 h)

theorem memoriesOk_flipStep {s : State} (h : s.memoriesOk = true) : (flipStep s).memoriesOk = true :=
  memoriesOk_flipRows (s.slr.height.toNat / 2) 0 h

theorem memoriesOk_slrStep {s t : State} (hb : s.slrBusy = true) (hs : s.memoriesOk = true) (h : slrStep s = .next t) :
    t.memoriesOk = true :=
  slrStep_induct (P := fun u => u.memoriesOk = true) hb h (memoriesOk_flipStep hs) (fun eff => memoriesOk_runRow eff hs)
    memoriesOk_spoilRows hs

theorem memoriesOk_onlyReader {s t : State} (h : OnlyReader s t) : t.memoriesOk = s.memoriesOk := by
  rw [h.eq]
  rfl

theorem memoriesOk_blockEnd {s : State} (h : s.memoriesOk = true) : (blockEnd s).memoriesOk = true := by
  rw [blockEnd_eq]
  exact h

theorem memoriesOk_rowResult {f : Format} {s t : State} (hs : s.memoriesOk = true) (h : RowResult f s t) :
    t.memoriesOk = true := by
  cases h with
  | raise | reservedHeader | zlibHeader | storedHeader | fixedHeader | dynamicHeader | lengths | lastLengths | length =>
    exact hs
  | storedData n => exact memoriesOk_blockEnd (memoriesOk_copyStored n s hs)
  | counts hlit hdist hclen clLen clT _ u read =>
    exact (memoriesOk_onlyReader (readClLens_onlyReader read)).trans hs
  | literal b => exact memoriesOk_pushOut b s hs
  | endOfBlock => exact memoriesOk_blockEnd hs
  | distance d => exact memoriesOk_copyLoop d s.inf.mlen s hs

theorem memoriesOk_infRow {s t : State} (hs : s.memoriesOk = true) (h : infRow s = .next t) : t.memoriesOk = true := by
  obtain ⟨f, rfl⟩ | ⟨u, hr, hu⟩ := infRow_result h
  · exact hs
  · exact memoriesOk_rowResult ((memoriesOk_onlyReader hr).trans hs) hu

theorem memoriesOk_infStep {s t : State} (hs : s.memoriesOk = true) (h : infStep s = .next t) : t.memoriesOk = true :=
  infStep_induct (P := fun u => u.memoriesOk = true) (fun hu _ => memoriesOk_infRow hu) (fun _ => memoriesOk_infRow hs) h

theorem memoriesOk_unitStep {s t : State} (hs : s.memoriesOk = true) (h : unitStep s = .next t) :
    t.memoriesOk = true := by
  obtain ⟨n, ⟨-, hinf⟩ | ⟨hb, hslr⟩ | rfl⟩ := unitStep_turn h
  · exact memoriesOk_infStep (s := { s with draws := n }) hs hinf
  · exact memoriesOk_slrStep (s := { s with draws := n }) hb hs hslr
  · exact hs

theorem startSlr_mem (flip : Bool) (s : State) : (startSlr flip s).mem = s.mem := by
  unfold startSlr
  dsimp only
  split <;> rfl

theorem writeResult_mem {v : Word} {s t : State} (h : WriteResult v s t) : t.mem = s.mem := by
  cases h with
  | startSlr => exact startSlr_mem _ s
  | ignored | startInf | zlib | inLen | outCap | flip | width | height | channels | diag => rfl

/-- Settles O56: whatever writes memory writes it byte by byte, and a register write does not; a reset and a spoiled space hold
no byte. -/
theorem stepKeepsMemories : Obligations.StepKeepsMemories := by
  unfold Obligations.StepKeepsMemories
  intro s t hs h
  obtain ⟨q, hcases⟩ := machineStep_cases h
  have hq : ({ s with hostQueue := q } : State).memoriesOk = true := hs
  obtain hunit | ⟨reg, v, rfl⟩ | ⟨sp, a, v, -, -, -, rfl⟩ | rfl | rfl := hcases
  · exact memoriesOk_unitStep hq hunit
  · exact (memoriesOk_congr (writeResult_mem (hostWrite_result reg v _))).trans hq
  · exact memoriesOk_write _ sp a v hq
  · exact hq
  · rfl

/-! ### Host accesses to memory -/

theorem hostWriteByte_of_idle {s : State} (hi : s.infBusy = false) (hs : s.slrBusy = false) (sp : Space) (a : Nat)
    (v : Byte) :
    hostWriteByte sp a v s = if a < s.capacity sp then .next (s.write sp a v) else .fault (.noSuchAddress sp a) := by
  simp [hostWriteByte, hi, hs]

theorem hostReadByte_of_idle {s : State} (hi : s.infBusy = false) (hs : s.slrBusy = false) (sp : Space) (a : Nat) :
    hostReadByte sp a s = if a < s.capacity sp then some (s.read sp a) else none := by
  simp [hostReadByte, hi, hs]

/-- Settles O54: the three outcomes of `hostWriteByte`. -/
theorem hostMemoryWrite : Obligations.HostMemoryWrite := by
  unfold Obligations.HostMemoryWrite
  intro sp a v s
  refine ⟨fun hi hs ha => ⟨s.write sp a v, ?_, s.read_write_same sp a v, ?_, by simp⟩, fun hb => ?_, fun hi hs ha => ?_⟩
  · rw [hostMove, hostWriteByte_of_idle hi hs, if_pos ha]
  · exact fun sp' b h => s.read_write_other v fun ⟨hsp, hb⟩ => h ⟨hsp, by omega, by omega⟩
  · simp [hostMove, hostWriteByte, hb]
  · rw [hostMove, hostWriteByte_of_idle hi hs, if_neg (by omega)]

theorem capacity_write (s : State) (sp sp' : Space) (a : Nat) (v : Byte) :
    (s.write sp a v).capacity sp' = s.capacity sp' := by
  cases sp' <;> simp [State.capacity]

theorem infBusy_write (s : State) (sp : Space) (a : Nat) (v : Byte) : (s.write sp a v).infBusy = s.infBusy := by
  simp [State.infBusy]

theorem slrBusy_write (s : State) (sp : Space) (a : Nat) (v : Byte) : (s.write sp a v).slrBusy = s.slrBusy := by
  simp [State.slrBusy]

/-- Settles O55: both units stay idle over a host write, so that the read after it is the one of memory. -/
theorem hostMemoryRead : Obligations.HostMemoryRead := by
  unfold Obligations.HostMemoryRead
  intro sp a s
  refine ⟨fun hi hs ha => ⟨?_, fun v t ht => ?_⟩, fun hb => ?_, fun hi hs ha => ?_⟩
  · rw [hostReadByte_of_idle hi hs, if_pos ha]
  · rw [hostMove, hostWriteByte_of_idle hi hs, if_pos ha] at ht
    cases ht
    have hread (sp' : Space) (b : Nat) := hostReadByte_of_idle (s := s.write sp a v) ((infBusy_write ..).trans hi)
      ((slrBusy_write ..).trans hs) sp' b
    refine ⟨?_, fun sp' b h => ?_⟩
    · rw [hread, capacity_write, if_pos ha, s.read_write_same]
    · rw [hread, capacity_write, s.read_write_other v h, hostReadByte_of_idle hi hs]
  · simp [hostReadByte, hb]
  · rw [hostReadByte_of_idle hi hs, if_neg (by omega)]

/-! ### Decoding what is encoded -/

theorem ofNat_eq_of_mod {n w : Nat} {v : BitVec n} (h : w % 2 ^ n = v.toNat) : BitVec.ofNat n w = v :=
  BitVec.eq_of_toNat_eq ((BitVec.toNat_ofNat w n).trans h)

/-- The filter bytes that select no filter (R105, R305). -/
theorem decodeFilt_of_illegal {ft : Nat} (h : 5 ≤ ft) (hlt : ft < 256) :
    decodeFilt ft = some (.rowInvalid (BitVec.ofNat 8 ft)) ∧ decodeFilt0 ft = some (.row0Invalid (BitVec.ofNat 8 ft)) := by
  obtain ⟨n, rfl⟩ := Nat.exists_eq_add_of_le' h
  exact ⟨if_pos hlt, if_pos hlt⟩

theorem decodeRow_encode {i : Instr} (h : i.wf = true) :
    decodeRow (encode i).fmt (encode i).word (encode i).extra = some i := by
  cases i with
  | zhdr cmf flg =>
    have hc := cmf.isLt
    have hf := flg.isLt
    have hw : cmf.toNat + 256 * flg.toNat < 65536 := by omega
    simp only [encode, decodeRow]
    rw [ofNat_eq_of_mod (v := cmf) (by omega), ofNat_eq_of_mod (v := flg) (by omega)]
    exact if_pos hw
  | blkStored b | blkFixed b | blkDynamic b | blkRsvd b => cases b <;> rfl
  | storedData len nlen =>
    have hl := len.isLt
    have hn := nlen.isLt
    have hw : len.toNat + 65536 * nlen.toNat < 4294967296 := by omega
    simp only [encode, decodeRow]
    rw [ofNat_eq_of_mod (v := len) (by omega), ofNat_eq_of_mod (v := nlen) (by omega)]
    exact if_pos hw
  | dyn hlit hdist hclen =>
    have hl := hlit.isLt
    have hd := hdist.isLt
    have hc := hclen.isLt
    have hw : hlit.toNat + 32 * hdist.toNat + 1024 * hclen.toNat < 16384 := by omega
    simp only [encode, decodeRow]
    rw [ofNat_eq_of_mod (v := hlit) (by omega), ofNat_eq_of_mod (v := hdist) (by omega),
      ofNat_eq_of_mod (v := hclen) (by omega)]
    exact if_pos hw
  | cl n => simp only [encode, decodeRow, decodeCl, if_pos n.isLt, BitVec.ofNat_toNat, BitVec.setWidth_eq]
  | lit b =>
    have hb : b.toNat < 256 := b.isLt
    simp only [encode, decodeRow, decodeLL, BitVec.ofNat_toNat, BitVec.setWidth_eq]
    exact if_pos hb
  | llRsvd hi | dRsvd hi =>
    obtain rfl | rfl : hi = 0 ∨ hi = 1 := by decide +revert
    all_goals simp [encode, decodeRow, decodeLL, decodeLen, decodeDist]
  | rowInvalid ft | row0Invalid ft =>
    have hft := decodeFilt_of_illegal (of_decide_eq_true h) ft.isLt
    simp [encode, decodeRow, hft]
  | _ => simp [encode, decodeRow, decodeCl, decodeLL, decodeLen, decodeDist, decodeFilt, decodeFilt0]

/-- Decoding an encoded well-formed instruction gives it back (R92 to R99, R117). -/
theorem decode_encode {i : Instr} (h : i.wf = true) : decode (encode i).fmt (encode i).word (encode i).extra = .ok i :=
  decode_eq_ok.2 (decodeRow_encode h)

open Sys2Proof.Laws in
/-- The word of an encoding has its format's bits, its extra bits are as many as its symbol has. -/
theorem encoding_fits (i : Instr) : EncodingFits.Statement i := by
  cases i
  exacts [EncodingFits.zhdr _ _, EncodingFits.blkStored _, EncodingFits.blkFixed _, EncodingFits.blkDynamic _,
    EncodingFits.blkRsvd _, EncodingFits.storedData _ _, EncodingFits.dyn _ _ _, EncodingFits.cl _, EncodingFits.cl16 _,
    EncodingFits.cl17 _, EncodingFits.cl18 _, EncodingFits.lit _, EncodingFits.eob, EncodingFits.len257,
    EncodingFits.len258, EncodingFits.len259, EncodingFits.len260, EncodingFits.len261, EncodingFits.len262,
    EncodingFits.len263, EncodingFits.len264, EncodingFits.len265 _, EncodingFits.len266 _, EncodingFits.len267 _,
    EncodingFits.len268 _, EncodingFits.len269 _, EncodingFits.len270 _, EncodingFits.len271 _, EncodingFits.len272 _,
    EncodingFits.len273 _, EncodingFits.len274 _, EncodingFits.len275 _, EncodingFits.len276 _, EncodingFits.len277 _,
    EncodingFits.len278 _, EncodingFits.len279 _, EncodingFits.len280 _, EncodingFits.len281 _, EncodingFits.len282 _,
    EncodingFits.len283 _, EncodingFits.len284 _, EncodingFits.len285, EncodingFits.llRsvd _, EncodingFits.dist0,
    EncodingFits.dist1, EncodingFits.dist2, EncodingFits.dist3, EncodingFits.dist4 _, EncodingFits.dist5 _,
    EncodingFits.dist6 _, EncodingFits.dist7 _, EncodingFits.dist8 _, EncodingFits.dist9 _, EncodingFits.dist10 _,
    EncodingFits.dist11 _, EncodingFits.dist12 _, EncodingFits.dist13 _, EncodingFits.dist14 _, EncodingFits.dist15 _,
    EncodingFits.dist16 _, EncodingFits.dist17 _, EncodingFits.dist18 _, EncodingFits.dist19 _, EncodingFits.dist20 _,
    EncodingFits.dist21 _, EncodingFits.dist22 _, EncodingFits.dist23 _, EncodingFits.dist24 _, EncodingFits.dist25 _,
    EncodingFits.dist26 _, EncodingFits.dist27 _, EncodingFits.dist28 _, EncodingFits.dist29 _, EncodingFits.dRsvd _,
    EncodingFits.rowNone, EncodingFits.rowSub, EncodingFits.rowUp, EncodingFits.rowAvg, EncodingFits.rowPaeth,
    EncodingFits.rowInvalid _, EncodingFits.row0None, EncodingFits.row0Sub, EncodingFits.row0Up, EncodingFits.row0Avg,
    EncodingFits.row0Paeth, EncodingFits.row0Invalid _]

/-- No LL symbol from 288 on decodes (R102). -/
theorem lt_of_decodeLL {w x : Nat} {i : Instr} (h : decodeLL w x = some i) : w < 288 := by
  by_contra hw
  obtain ⟨n, rfl⟩ := Nat.exists_eq_add_of_le (Nat.le_of_not_lt hw)
  have hcode : 288 + n - 257 = n + 31 := by omega
  rw [decodeLL, if_neg (by omega), if_neg (by omega), hcode] at h
  exact nomatch h

/-! ### Bits of a field and of a code -/

theorem length_fieldBits (n v : Nat) : (fieldBits n v).length = n := by
  induction n generalizing v with
  | zero => rfl
  | succ n ih => rw [fieldBits, List.length_cons, ih]

theorem bitsValue_fieldBits (n v : Nat) : bitsValue (fieldBits n v) = v % 2 ^ n := by
  induction n generalizing v with
  | zero => simp [fieldBits, bitsValue, Nat.mod_one]
  | succ n ih =>
    have hbit : bit (decide (v % 2 = 1)) = v % 2 := by
      rcases Nat.mod_two_eq_zero_or_one v with h | h <;> simp [bit, h]
    rw [fieldBits, bitsValue, ih, hbit, Nat.pow_succ', Nat.mod_mul]

/-- A field of `m + n` bits is its low `m` bits and then the `n` above them (R67). -/
theorem fieldBits_add (m n v : Nat) : fieldBits (m + n) v = fieldBits m v ++ fieldBits n (v / 2 ^ m) := by
  induction m generalizing v with
  | zero => simp [fieldBits]
  | succ m ih =>
    rw [Nat.add_right_comm, fieldBits, fieldBits, ih, Nat.pow_succ', Nat.div_div_eq_div_mul]
    rfl

theorem testBit_bitsValue (bs : List Bool) (j : Nat) : (bitsValue bs).testBit j = bs.getD j false := by
  induction bs generalizing j with
  | nil => simp [bitsValue]
  | cons b bs ih =>
    have hb : bit b ≤ 1 := by unfold bit; split <;> omega
    cases j with
    | zero =>
      rw [bitsValue, Nat.testBit_zero]
      cases b <;> simp [bit]
    | succ j =>
      have hdiv : (bit b + 2 * bitsValue bs) / 2 = bitsValue bs := by omega
      rw [bitsValue, Nat.testBit_succ, hdiv, ih, List.getD_cons_succ]

theorem testBit_bitrev (v n i : Nat) : (bitrev v n).testBit i = (decide (i < n) && v.testBit (n - 1 - i)) := by
  induction n generalizing v i with
  | zero => simp [bitrev]
  | succ n ih =>
    rw [bitrev, Nat.mul_comm, Nat.testBit_two_pow_mul_add _ (bitrev_lt _ n)]
    by_cases hi : i < n
    · have hsub : n + 1 - 1 - i = n - 1 - i + 1 := by omega
      rw [if_pos hi, ih, hsub, Nat.testBit_succ, decide_eq_true hi, decide_eq_true (Nat.lt_succ_of_lt hi)]
    · rw [if_neg hi]
      by_cases he : i = n
      · subst he
        simp [Nat.testBit_zero]
      · have hlt : v % 2 < 2 ^ (i - n) := lt_of_lt_of_le (Nat.mod_lt v two_pos) (Nat.le_self_pow (by omega) 2)
        rw [Nat.testBit_lt_two_pow hlt, decide_eq_false (by omega), Bool.false_and]

theorem bitrev_bitrev {v n : Nat} (h : v < 2 ^ n) : bitrev (bitrev v n) n = v := by
  apply Nat.eq_of_testBit_eq
  intro i
  rw [testBit_bitrev, testBit_bitrev]
  by_cases hi : i < n
  · have hsub : n - 1 - (n - 1 - i) = i := by omega
    simp [hi, hsub, show n - 1 - i < n by omega]
  · rw [decide_eq_false hi, Bool.false_and,
      Nat.testBit_lt_two_pow (lt_of_lt_of_le h (Nat.pow_le_pow_right two_pos (Nat.le_of_not_lt hi)))]

/-- Read most significant bit first, the first `n` of `n + k` bits are the high ones. -/
theorem bitrev_div (v n k : Nat) : bitrev v (n + k) / 2 ^ k = bitrev (v % 2 ^ n) n := by
  apply Nat.eq_of_testBit_eq
  intro i
  rw [Nat.testBit_div_two_pow, testBit_bitrev, testBit_bitrev, Nat.testBit_mod_two_pow]
  by_cases hi : i < n
  · have hsub : n + k - 1 - (i + k) = n - 1 - i := by omega
    simp [hi, hsub, show n - 1 - i < n by omega]
  · simp [hi]

/-! ### The codes of the fixed tables -/

/-- A code of at most 9 bits is one if every slot that begins with it holds its length and symbol (R158, R165). -/
theorem hasCode_of_fast {T : HuffTable} {n code sym : Nat} (hn : 1 ≤ n) (hn9 : n ≤ 9) (hsym : sym < 512)
    (h : ∀ j < 512, j % 2 ^ n = bitrev code n → (T.fast.getD j 0).toNat = n * 512 + sym) : HasCode T n code sym := by
  intro window _ hw
  have hslot : window % 512 % 2 ^ n = window % 2 ^ n := Nat.mod_mod_of_dvd _ (Nat.pow_dvd_pow 2 hn9)
  have he := h (window % 512) (Nat.mod_lt _ (by decide)) (hslot.trans hw)
  have hlen : (n * 512 + sym) / 512 = n := by omega
  have hrest : (n * 512 + sym) % 512 = sym := by omega
  simp only [lookup, he, hlen, hrest]
  rw [if_neg (by omega)]

theorem hasCode_flat {T : HuffTable} (hT : T.fast = fixD.fast) {sym : Nat} (h : sym < 32) : HasCode T 5 sym sym := by
  refine hasCode_of_fast (by decide) (by decide) (by omega) fun j hj hm => ?_
  have hrev : bitrev (j % 32) 5 = sym := by
    rw [show j % 32 = bitrev sym 5 from hm, bitrev_bitrev h]
  simp only [hT, fixD, List.getD_eq_getElem?_getD, List.getElem?_map, List.getElem?_range hj, Option.map_some,
    Option.getD_some, hrev, BitVec.toNat_ofNat]
  omega

/-- The slots of FIX_LL that begin with a code are those whose bits, most significant first, have it as their high part. -/
theorem hasCode_fixLL_of_entry {n code sym : Nat} (hn : 1 ≤ n) (hn9 : n ≤ 9) (hcode : code < 2 ^ n) (hsym : sym < 512)
    (h : ∀ k, k / 2 ^ (9 - n) = code → fixLLEntry k = n * 512 + sym) : HasCode fixLL n code sym := by
  refine hasCode_of_fast hn hn9 hsym fun j hj hm => ?_
  have hk : bitrev j 9 / 2 ^ (9 - n) = code := by
    have := bitrev_div j n (9 - n)
    rwa [Nat.add_sub_cancel' hn9, hm, bitrev_bitrev hcode] at this
  simp only [fixLL_fast, List.getD_eq_getElem?_getD, List.getElem?_map, List.getElem?_range hj, Option.map_some,
    Option.getD_some, h _ hk, BitVec.toNat_ofNat]
  omega

/-- FIX_LL decodes each symbol's code of R107. -/
theorem hasCode_fixLL {sym : Nat} (h : sym < 288) : HasCode fixLL (fixedLLCode sym).1 (fixedLLCode sym).2 sym := by
  unfold fixedLLCode
  split_ifs
  all_goals
    dsimp only
    refine hasCode_fixLL_of_entry (by decide) (by decide) (by omega) (by omega) fun k hk => ?_
    unfold fixLLEntry
    split_ifs <;> omega

/-! ### Reading the bits that come next -/

/-- INV-ACC holds and the bits `bs` come next in the stream. -/
structure State.Ahead (bs : List Bool) (s : State) : Prop where
  ok : s.BitReaderOk
  room : s.bitpos + bs.length ≤ 8 * s.inf.inLen.toNat
  bits : ∀ i < bs.length, s.streamBit (s.bitpos + i) = bs.getD i false

theorem State.Ahead.field {xs ys : List Bool} {s : State} (h : s.Ahead (xs ++ ys)) :
    s.streamField s.bitpos xs.length = bitsValue xs := by
  apply Nat.eq_of_testBit_eq
  intro i
  rw [streamField_testBit, testBit_bitsValue]
  by_cases hi : i < xs.length
  · rw [h.bits i (by rw [List.length_append]; omega), List.getD_append _ _ _ _ hi, decide_eq_true hi, Bool.true_and]
  · rw [decide_eq_false hi, Bool.false_and, List.getD_eq_default _ _ (Nat.le_of_not_lt hi)]

/-- What comes next after some of the bits are consumed. -/
theorem State.Ahead.moved {xs ys : List Bool} {s t : State} (h : s.Ahead (xs ++ ys)) (hm : ReaderMoved xs.length s t) :
    t.Ahead ys := by
  obtain ⟨he, hok, hpos⟩ := hm
  obtain ⟨-, hroom, hbits⟩ := h
  rw [List.length_append] at hroom hbits
  refine ⟨hok, ?_, fun i hi => ?_⟩
  · rw [hpos, he]
    show s.bitpos + xs.length + ys.length ≤ 8 * s.inf.inLen.toNat
    omega
  · have hb := hbits (xs.length + i) (by omega)
    rw [List.getD_append_right _ _ _ _ (Nat.le_add_right ..), Nat.add_sub_cancel_left] at hb
    rw [hpos, Nat.add_assoc, ← hb]
    exact streamBit_congr (by rw [he]) (by rw [he]) _

/-- Where at least `n` bits are left, `refill` leaves that many in `acc`, `n` at most 25 (R131). -/
theorem le_refill_cnt {n : Nat} {s : State} (hs : s.BitReaderOk) (hn : n ≤ 25)
    (room : s.bitpos + n ≤ 8 * s.inf.inLen.toNat) : n ≤ (refill s).inf.cnt := by
  have hspec := refillLoop_spec 4 hs
  rw [show refillLoop 4 s = refill s from rfl] at hspec
  obtain ⟨⟨-, hok, hpos⟩, hfull, -⟩ := hspec
  have := hok.cnt_le_bits
  rw [State.bitpos] at hpos
  omega

/-- A field that comes next is consumed (R134). -/
theorem consume_ahead {n v : Nat} {rest : List Bool} {s : State} (hn : n ≤ 24) (h : s.Ahead (fieldBits n v ++ rest)) :
    ∃ t, consume n s = .ok (v % 2 ^ n, t) ∧ ReaderMoved n s t ∧ t.Ahead rest := by
  have hroom := h.room
  rw [List.length_append, length_fieldBits] at hroom
  have hrest {t : State} (hm : ReaderMoved n s t) : t.Ahead rest := h.moved (by rwa [length_fieldBits])
  by_cases h0 : n = 0
  · subst h0
    exact ⟨s, by simp [consume, Nat.mod_one], readerMoved_zero h.ok, hrest (readerMoved_zero h.ok)⟩
  have hfill : ∃ u, (if s.inf.cnt < 16 ∨ s.inf.cnt < n then refill s else s) = u ∧ ReaderMoved 0 s u ∧
      n ≤ u.inf.cnt := by
    split
    · exact ⟨_, rfl, refill_moved h.ok, le_refill_cnt h.ok (by omega) (by omega)⟩
    · exact ⟨_, rfl, readerMoved_zero h.ok, by omega⟩
  obtain ⟨u, hu, hm, hcnt⟩ := hfill
  have hau : u.Ahead (fieldBits n v ++ rest) := h.moved (xs := []) hm
  have hval : u.inf.acc.toNat % 2 ^ n = v % 2 ^ n := by
    have hf := hau.field
    rw [length_fieldBits, bitsValue_fieldBits] at hf
    exact (acc_field hm.2.1 hcnt).trans hf
  have hmt : ReaderMoved n s (dropBits n u) := by simpa using hm.trans (dropBits_moved hm.2.1 hcnt)
  refine ⟨dropBits n u, ?_, hmt, hrest hmt⟩
  simp only [consume, if_neg h0, hu, if_neg (Nat.not_lt.2 hcnt), hval]

/-- A code that comes next is decoded to its symbol (R165). -/
theorem decodeSym_ahead {T : HuffTable} {n code sym : Nat} {rest : List Bool} {s : State} (hT : HasCode T n code sym)
    (hn : n ≤ 16) (h : s.Ahead (codeBits n code ++ rest)) :
    ∃ t, decodeSym T s = .ok (sym, t) ∧ ReaderMoved n s t ∧ t.Ahead rest := by
  have hlen : (codeBits n code).length = n := length_fieldBits n _
  have hroom := h.room
  rw [List.length_append, hlen] at hroom
  have hm := fillToThreshold_moved h.ok
  have hcnt : n ≤ (fillToThreshold s).inf.cnt := by
    unfold fillToThreshold
    split
    · exact le_refill_cnt h.ok (by omega) (by omega)
    · omega
  have hval : (fillToThreshold s).inf.acc.toNat % 2 ^ n = bitrev code n := by
    have hf := (h.moved (xs := []) hm : (fillToThreshold s).Ahead (codeBits n code ++ rest)).field
    rw [hlen, codeBits, bitsValue_fieldBits, Nat.mod_eq_of_lt (bitrev_lt code n)] at hf
    exact (acc_field hm.2.1 hcnt).trans hf
  have hwindow : (fillToThreshold s).inf.acc.toNat % 65536 % 2 ^ n = bitrev code n :=
    (Nat.mod_mod_of_dvd _ (Nat.pow_dvd_pow 2 hn)).trans hval
  have hmt : ReaderMoved n s (dropBits n (fillToThreshold s)) := by simpa using hm.trans (dropBits_moved hm.2.1 hcnt)
  refine ⟨_, ?_, hmt, h.moved (by rwa [hlen])⟩
  simp only [decodeSym, hT _ (Nat.mod_lt _ (by decide)) hwindow, if_neg (Nat.not_lt.2 hcnt)]

theorem streamField_byte (s : State) (a : Nat) : s.streamField (8 * a) 8 = (s.read .inn a).toNat := by
  apply Nat.eq_of_testBit_eq
  intro i
  rw [streamField_testBit, BitVec.testBit_toNat]
  by_cases hi : i < 8
  · have hdiv : (8 * a + i) / 8 = a := by omega
    have hmod : (8 * a + i) % 8 = i := by omega
    rw [decide_eq_true hi, Bool.true_and, State.streamBit, hdiv, hmod]
  · rw [decide_eq_false hi, Bool.false_and, BitVec.getLsbD_of_ge _ _ (Nat.le_of_not_lt hi)]

/-- With `acc` empty the byte that comes next is read from IN (R138). -/
theorem nextByte_ahead (f : FaultCode) {v : Nat} {rest : List Bool} {s : State} (hc : s.inf.cnt = 0)
    (h : s.Ahead (fieldBits 8 v ++ rest)) :
    ∃ b t, nextByte f s = .ok (b, t) ∧ b.toNat = v % 256 ∧ ReaderMoved 8 s t ∧ t.inf.cnt = 0 ∧ t.Ahead rest := by
  have hpos : s.bitpos = 8 * s.inf.ipos := by rw [State.bitpos, hc, Nat.sub_zero]
  have hroom := h.room
  rw [List.length_append, length_fieldBits] at hroom
  have hval : (s.read .inn s.inf.ipos).toNat = v % 256 := by
    have hf := h.field
    rwa [length_fieldBits, bitsValue_fieldBits, hpos, streamField_byte] at hf
  have hnext : nextByte f s = .ok (s.read .inn s.inf.ipos, { s with inf := { s.inf with ipos := s.inf.ipos + 1 } }) := by
    rw [nextByte, if_neg (by omega), if_neg (by omega)]
  obtain ⟨hm, -⟩ := nextByte_moved h.ok (by omega) hnext
  exact ⟨_, _, hnext, hval, hm, hc, h.moved (by rwa [length_fieldBits])⟩

/-! ### Fetching the bits that come next -/

theorem consumeTwo_ahead {m n v : Nat} {rest : List Bool} {s : State} (hm : m ≤ 24) (hn : n ≤ 24)
    (h : s.Ahead (fieldBits (m + n) v ++ rest)) :
    ∃ t, consumeTwo m n s = .ok ((v % 2 ^ m, v / 2 ^ m % 2 ^ n), t) ∧ ReaderMoved (m + n) s t ∧ t.Ahead rest := by
  rw [fieldBits_add, List.append_assoc] at h
  obtain ⟨t, ht, hst, hat⟩ := consume_ahead hm h
  obtain ⟨u, hu, htu, hau⟩ := consume_ahead hn hat
  exact ⟨u, by simp only [consumeTwo, ht, hu], hst.trans htu, hau⟩

theorem nextPair_ahead {v : Nat} {rest : List Bool} {s : State} (hc : s.inf.cnt = 0)
    (h : s.Ahead (fieldBits 16 v ++ rest)) :
    ∃ t, nextPair s = .ok (v % 65536, t) ∧ ReaderMoved 16 s t ∧ t.inf.cnt = 0 ∧ t.Ahead rest := by
  rw [fieldBits_add 8 8, List.append_assoc] at h
  obtain ⟨lo, t, ht, hlo, hst, hct, hat⟩ := nextByte_ahead .insufficientData hc h
  obtain ⟨hi, u, hu, hhi, htu, hcu, hau⟩ := nextByte_ahead .insufficientData hct hat
  have hpair : pairLE lo hi = v % 65536 := by
    rw [pairLE, hlo, hhi]
    omega
  exact ⟨u, by simp only [nextPair, ht, hu, hpair], hst.trans htu, hcu, hau⟩

theorem getD_le {l : List Nat} {b : Nat} (h : ∀ v ∈ l, v ≤ b) (k : Nat) : l.getD k 0 ≤ b := by
  rcases Nat.lt_or_ge k l.length with hk | hk
  · rw [List.getD_eq_getElem _ _ hk]
    exact h _ (List.getElem_mem hk)
  · rw [List.getD_eq_default _ _ hk]
    exact Nat.zero_le b

/-- No symbol has more than 13 extra bits (R96, R224, R260). -/
theorem extraBits_le (f : Format) (w : Nat) : extraBits f w ≤ 13 := by
  cases f with
  | clsym =>
    rw [extraBits, clExtra]
    split_ifs <;> omega
  | llsym =>
    rw [extraBits, llExtra]
    split_ifs
    · exact Nat.zero_le _
    · exact getD_le (by decide) _
  | dsym => exact getD_le (by decide) w
  | zhdr | bhdr | stored | dynhdr | filt | filt0 => exact Nat.zero_le _

theorem fetchSym_ahead {f : Format} {T : HuffTable} {n code sym x : Nat} {s : State} (hT : HasCode T n code sym)
    (hn : n ≤ 16) (hx : x < 2 ^ extraBits f sym) (h : s.Ahead (codeBits n code ++ fieldBits (extraBits f sym) x)) :
    ∃ t, fetchSym f T s = .ok ((sym, x), t) ∧
      ReaderMoved (codeBits n code ++ fieldBits (extraBits f sym) x).length s t := by
  have hk := extraBits_le f sym
  obtain ⟨t, ht, hst, hat⟩ := decodeSym_ahead hT hn h
  rw [← List.append_nil (fieldBits ..)] at hat
  obtain ⟨u, hu, htu, -⟩ := consume_ahead (by omega) hat
  rw [Nat.mod_eq_of_lt hx] at hu
  refine ⟨u, by simp only [fetchSym, ht, hu], ?_⟩
  rw [List.length_append, codeBits, length_fieldBits, length_fieldBits]
  exact hst.trans htu

theorem fetchZhdr_ahead {w : Nat} {s : State} (hw : w < 2 ^ 16) (h : s.Ahead (fieldBits 16 w)) :
    ∃ t, fetchWord .zhdr s = .ok ((w, 0), t) ∧ ReaderMoved (fieldBits 16 w).length s t := by
  rw [length_fieldBits]
  rw [← List.append_nil (fieldBits ..)] at h
  obtain ⟨t, ht, hm, -⟩ := consumeTwo_ahead (m := 8) (n := 8) (by decide) (by decide) h
  have hword : w % 2 ^ 8 + 256 * (w / 2 ^ 8 % 2 ^ 8) = w := by omega
  exact ⟨t, by simp only [fetchWord, ht, hword], hm⟩

theorem fetchBhdr_ahead {w : Nat} {s : State} (hw : w < 2 ^ 3) (h : s.Ahead (fieldBits 3 w)) :
    ∃ t, fetchWord .bhdr s = .ok ((w, 0), t) ∧ ReaderMoved (fieldBits 3 w).length s t := by
  rw [length_fieldBits]
  rw [← List.append_nil (fieldBits ..)] at h
  obtain ⟨t, ht, hm, -⟩ := consumeTwo_ahead (m := 1) (n := 2) (by decide) (by decide) h
  have hword : w % 2 ^ 1 + 2 * (w / 2 ^ 1 % 2 ^ 2) = w := by omega
  exact ⟨t, by simp only [fetchWord, ht, hword], hm⟩

theorem fetchDynhdr_ahead {w : Nat} {s : State} (hw : w < 2 ^ 14) (h : s.Ahead (fieldBits 14 w)) :
    ∃ t, fetchWord .dynhdr s = .ok ((w, 0), t) ∧ ReaderMoved (fieldBits 14 w).length s t := by
  rw [length_fieldBits]
  rw [fieldBits_add 10 4] at h
  obtain ⟨t, ht, hst, hat⟩ := consumeTwo_ahead (m := 5) (n := 5) (by decide) (by decide) h
  rw [← List.append_nil (fieldBits ..)] at hat
  obtain ⟨u, hu, htu, -⟩ := consume_ahead (by decide) hat
  have hword : w % 2 ^ 5 + 32 * (w / 2 ^ 5 % 2 ^ 5) + 1024 * (w / 2 ^ 10 % 2 ^ 4) = w := by omega
  exact ⟨u, by simp only [fetchWord, ht, hu, hword], hst.trans htu⟩

theorem align_of_empty {s : State} (hc : s.inf.cnt = 0) : align s = s := by
  have hacc : s.inf.acc >>> 0 = s.inf.acc := BitVec.ushiftRight_zero _
  simp only [align, dropBits, hc, Nat.zero_mod, hacc, Nat.sub_zero]
  rw [← hc]

theorem fetchStored_ahead {w : Nat} {s : State} (hw : w < 2 ^ 32) (hc : s.inf.cnt = 0) (h : s.Ahead (fieldBits 32 w)) :
    ∃ t, fetchWord .stored s = .ok ((w, 0), t) ∧ ReaderMoved (fieldBits 32 w).length s t := by
  rw [length_fieldBits]
  rw [fieldBits_add 16 16] at h
  obtain ⟨t, ht, hst, hct, hat⟩ := nextPair_ahead hc h
  rw [← List.append_nil (fieldBits ..)] at hat
  obtain ⟨u, hu, htu, -⟩ := nextPair_ahead hct hat
  have hword : w % 65536 + 65536 * (w / 2 ^ 16 % 65536) = w := by omega
  exact ⟨u, by simp only [fetchWord, align_of_empty hc, ht, hu, hword], hst.trans htu⟩

/-- An encoded element of INF: its word fits its format and names a symbol, and it has its symbol's extra bits. -/
structure InfFits (e : Encoded) : Prop where
  notFilt : e.fmt ≠ .filt
  notFilt0 : e.fmt ≠ .filt0
  word : e.word < 2 ^ e.fmt.wordBits
  extra : e.extra < 2 ^ extraBits e.fmt e.word
  symbol : e.fmt = .llsym → e.word < 288

theorem fixedLLCode_length (sym : Nat) : (fixedLLCode sym).1 ≤ 9 := by
  unfold fixedLLCode
  split_ifs <;> simp

/-- INF reads the format next with `acc` empty, Huffman codes through the tables `withFetchWord` selects (assumption 12). -/
structure ReadyFor (f : Format) (s : State) : Prop where
  format : s.infFormat = f
  empty : s.inf.cnt = 0
  flat : f = .clsym → s.tabs.clT = flatCl
  fixed : f = .llsym ∨ f = .dsym → s.inf.tsel = .fixed

theorem flatCl_fast : flatCl.fast = fixD.fast := by
  simp only [flatCl]

/-- The word and the extra bits of an element are fetched from its bits, all of them consumed (R66 to R68, R107). -/
theorem fetchWord_ahead {e : Encoded} {s : State} (he : InfFits e) (hs : ReadyFor e.fmt s) (h : s.Ahead e.bits) :
    ∃ t, fetchWord e.fmt s = .ok ((e.word, e.extra), t) ∧ ReaderMoved e.bits.length s t := by
  obtain ⟨f, w, x⟩ := e
  obtain ⟨hfilt, hfilt0, hw, hx, hsym⟩ := he
  cases f with
  | zhdr =>
    obtain rfl : x = 0 := Nat.lt_one_iff.1 hx
    exact fetchZhdr_ahead hw h
  | bhdr =>
    obtain rfl : x = 0 := Nat.lt_one_iff.1 hx
    exact fetchBhdr_ahead hw h
  | stored =>
    obtain rfl : x = 0 := Nat.lt_one_iff.1 hx
    exact fetchStored_ahead hw hs.empty h
  | dynhdr =>
    obtain rfl : x = 0 := Nat.lt_one_iff.1 hx
    exact fetchDynhdr_ahead hw h
  | clsym =>
    rw [fetchWord, hs.flat rfl]
    exact fetchSym_ahead (f := .clsym) (hasCode_flat flatCl_fast hw) (by decide) hx h
  | llsym =>
    rw [fetchWord, State.llTable, hs.fixed (.inl rfl)]
    exact fetchSym_ahead (f := .llsym) (hasCode_fixLL (hsym rfl)) ((fixedLLCode_length w).trans (by decide)) hx h
  | dsym =>
    rw [fetchWord, State.dTable, hs.fixed (.inr rfl)]
    exact fetchSym_ahead (f := .dsym) (hasCode_flat rfl hw) (by decide) hx h
  | filt => exact absurd rfl hfilt
  | filt0 => exact absurd rfl hfilt0

/-! ### Placing an instruction -/

theorem writeBytes_onlyMemory (s : State) (sp : Space) (a : Nat) (vs : List Byte) : OnlyMemory s (s.writeBytes sp a vs) := by
  induction vs generalizing a s with
  | nil => exact .refl s
  | cons v vs ih => exact (write_onlyMemory s sp a v).trans (ih _ (a + 1))

theorem writeBytes_read_below (s : State) (sp : Space) {a b : Nat} (vs : List Byte) (h : b < a) :
    (s.writeBytes sp a vs).read sp b = s.read sp b := by
  induction vs generalizing a s with
  | nil => rfl
  | cons v vs ih => exact (ih _ (by omega)).trans (s.read_write_other v fun ⟨_, hb⟩ => by omega)

theorem writeBytes_read (s : State) (sp : Space) (a : Nat) (vs : List Byte) {i : Nat} (h : i < vs.length) :
    (s.writeBytes sp a vs).read sp (a + i) = vs[i] := by
  induction vs generalizing a i s with
  | nil => exact absurd h (Nat.not_lt_zero i)
  | cons v vs ih =>
    cases i with
    | zero => exact (writeBytes_read_below _ sp vs (Nat.lt_succ_self a)).trans (s.read_write_same sp a v)
    | succ i =>
      rw [← Nat.succ_add_eq_add_succ]
      exact ih _ (a + 1) (Nat.lt_of_succ_lt_succ h)

theorem length_packBytes (bs : List Bool) : (packBytes bs).length = (bs.length + 7) / 8 := by
  simp [packBytes]

/-- Bit `k` of the packed bits is bit `k % 8` of byte `k / 8` (R66). -/
theorem getLsbD_packBytes {bs : List Bool} {k : Nat} (h : k / 8 < (packBytes bs).length) :
    (packBytes bs)[k / 8].getLsbD (k % 8) = bs.getD k false := by
  have hk : 8 * (k / 8) + k % 8 = k := Nat.div_add_mod k 8
  have hmod : k % 8 < 8 := Nat.mod_lt _ (by decide)
  have hbyte : (packBytes bs)[k / 8] = BitVec.ofNat 8 (bitsValue ((bs.drop (8 * (k / 8))).take 8)) := by simp [packBytes]
  rw [hbyte, BitVec.getLsbD_ofNat, testBit_bitsValue, decide_eq_true hmod, Bool.true_and, List.getD_eq_getElem?_getD,
    List.getElem?_take_of_lt hmod, List.getElem?_drop, hk, ← List.getD_eq_getElem?_getD]

/-- INF reads the format next, with `acc` empty at the start of an IN as long as the element. -/
def awaitInf (e : Encoded) (s : State) : State :=
  { selectInf e.fmt s with
    inf := { (selectInf e.fmt s).inf with
      acc := 0, cnt := 0, ipos := 0, inLen := BitVec.ofNat 32 (packBytes e.bits).length }
    slr := { (selectInf e.fmt s).slr with phase := .idle }
    hostQueue := [] }

theorem placeInf_eq (e : Encoded) (s : State) : placeInf e s = (awaitInf e s).writeBytes .inn 0 (packBytes e.bits) := rfl

theorem placeInf_inf_tabs (e : Encoded) (s : State) :
    (placeInf e s).inf = (awaitInf e s).inf ∧ (placeInf e s).tabs = (awaitInf e s).tabs := by
  obtain ⟨⟨hinf, htabs, -⟩, -⟩ := writeBytes_onlyMemory (awaitInf e s) .inn 0 (packBytes e.bits)
  exact ⟨hinf, htabs⟩

theorem placeInf_read (e : Encoded) (s : State) {i : Nat} (h : i < (packBytes e.bits).length) :
    (placeInf e s).read .inn i = (packBytes e.bits)[i] := by
  rw [placeInf_eq, ← writeBytes_read (awaitInf e s) .inn 0 _ h, Nat.zero_add]

theorem readyFor_awaitInf {e : Encoded} (s : State) (hf : e.fmt ≠ .filt) (hf0 : e.fmt ≠ .filt0) :
    ReadyFor e.fmt (awaitInf e s) := by
  obtain ⟨f, w, x⟩ := e
  refine ⟨?_, rfl, fun h => ?_, fun h => ?_⟩
  · cases f with
    | filt => exact absurd rfl hf
    | filt0 => exact absurd rfl hf0
    | zhdr | bhdr | stored | dynhdr | clsym | llsym | dsym => rfl
  · cases h
    rfl
  · obtain h | h := h <;> cases h <;> rfl

theorem readyFor_placeInf {e : Encoded} (s : State) (hf : e.fmt ≠ .filt) (hf0 : e.fmt ≠ .filt0) :
    ReadyFor e.fmt (placeInf e s) := by
  obtain ⟨hinf, htabs⟩ := placeInf_inf_tabs e s
  obtain ⟨hformat, hempty, hflat, hfixed⟩ := readyFor_awaitInf s hf hf0
  refine ⟨?_, by rwa [hinf], fun h => by rw [htabs, hflat h], fun h => by rw [hinf, hfixed h]⟩
  rw [← hformat, State.infFormat, hinf]
  rfl

theorem bitpos_placeInf (e : Encoded) (s : State) : (placeInf e s).bitpos = 0 := by
  rw [State.bitpos, (placeInf_inf_tabs e s).1]
  rfl

theorem length_bits_le (e : Encoded) : e.bits.length ≤ 32 := by
  have hl := fixedLLCode_length e.word
  have hk (f : Format) := extraBits_le f e.word
  have hcl : clExtra e.word ≤ 13 := hk .clsym
  have hll : llExtra e.word ≤ 13 := hk .llsym
  have hd : dExtra e.word ≤ 13 := hk .dsym
  unfold Encoded.bits
  split <;> simp only [List.length_append, codeBits, length_fieldBits] <;> omega

/-- The bits of a placed element come next. -/
theorem ahead_placeInf (e : Encoded) (s : State) : (placeInf e s).Ahead e.bits := by
  obtain ⟨hinf, -⟩ := placeInf_inf_tabs e s
  have hpos := bitpos_placeInf e s
  have hlen := length_packBytes e.bits
  have h32 := length_bits_le e
  have hin : (placeInf e s).inf.inLen.toNat = (e.bits.length + 7) / 8 := by
    rw [hinf, awaitInf, BitVec.toNat_ofNat, hlen]
    omega
  have hipos : (placeInf e s).inf.ipos = 0 := by rw [hinf, awaitInf]
  refine ⟨bitReaderOk_of_cnt_zero (by rw [hinf, awaitInf]) (by rw [hinf, awaitInf]) (by omega), by omega, fun i hi => ?_⟩
  have hbyte : i / 8 < (packBytes e.bits).length := by omega
  rw [hpos, Nat.zero_add, State.streamBit, placeInf_read e s hbyte, getLsbD_packBytes]

theorem place_of_inf {e : Encoded} (s : State) (hf : e.fmt ≠ .filt) (hf0 : e.fmt ≠ .filt0) :
    place e s = placeInf e s := by
  unfold place
  split
  · exact absurd ‹_› hf
  · exact absurd ‹_› hf0
  all_goals rfl

theorem infFits_encode {i : Instr} (h : i.wf = true) (hf : (encode i).fmt ≠ .filt) (hf0 : (encode i).fmt ≠ .filt0) :
    InfFits (encode i) := by
  obtain ⟨hword, hextra⟩ := encoding_fits i
  refine ⟨hf, hf0, hword, hextra, fun hll => ?_⟩
  have hrow := decodeRow_encode h
  rw [hll] at hrow
  exact lt_of_decodeLL hrow

/-- A placed element of INF is fetched, every bit of it consumed. -/
theorem fetchInf_placeInf {i : Instr} (s : State) (h : i.wf = true) (hf : (encode i).fmt ≠ .filt)
    (hf0 : (encode i).fmt ≠ .filt0) :
    ∃ t, fetchInf (placeInf (encode i) s) = .instr i t ∧ t.bitpos = (encode i).bits.length := by
  have hready := readyFor_placeInf s hf hf0
  obtain ⟨t, ht, -, -, hpos⟩ := fetchWord_ahead (infFits_encode h hf hf0) hready (ahead_placeInf _ s)
  refine ⟨t, by simp only [fetchInf, hready.format, ht, decode_encode h], ?_⟩
  rw [hpos, bitpos_placeInf, Nat.zero_add]

/-- SLR stands at a row, with INF done. -/
def awaitRow (row : Nat) (s : State) : State :=
  { s with
    inf := { s.inf with phase := .done, sub := .boundary }
    slr := { s.slr with phase := .rows, row := row }
    hostQueue := []
    disturbed := false }

theorem placeRow_eq (row : Nat) (ft : Byte) (s : State) :
    placeRow row ft s = (awaitRow row s).write .out (awaitRow row s).rowBase ft := rfl

/-- A filter byte placed at the start of its row is the byte SLR reads (R302). -/
theorem placeRow_read (row : Nat) (ft : Byte) (s : State) :
    (placeRow row ft s).slr.row = row ∧ (placeRow row ft s).read .out (placeRow row ft s).rowBase = ft := by
  have hslr : (placeRow row ft s).slr = (awaitRow row s).slr := State.write_slr ..
  have hbase : (placeRow row ft s).rowBase = (awaitRow row s).rowBase := by
    simp only [State.rowBase, State.stride, hslr]
  refine ⟨by rw [hslr, awaitRow], ?_⟩
  rw [hbase, placeRow_eq, State.read_write_same]

/-- A filter byte in place is fetched as its instruction. -/
theorem fetchSlr_of_placed {i : Instr} {u : State} (h : i.wf = true) (hf : (encode i).fmt = u.slrFormat)
    (hread : u.read .out u.rowBase = BitVec.ofNat 8 (encode i).word) : fetchSlr u = .instr i u := by
  obtain ⟨hword, hextra⟩ := encoding_fits i
  have hfmt : (encode i).fmt.wordBits = 8 ∧ extraBits (encode i).fmt (encode i).word = 0 := by
    rw [hf, State.slrFormat]
    split
    exacts [⟨rfl, rfl⟩, ⟨rfl, rfl⟩]
  rw [hfmt.1] at hword
  rw [hfmt.2] at hextra
  have hx : (encode i).extra = 0 := Nat.lt_one_iff.1 hextra
  have hd := decode_encode h
  rw [hx, hf] at hd
  have hw : (BitVec.ofNat 8 (encode i).word).toNat = (encode i).word := by
    rw [BitVec.toNat_ofNat, Nat.mod_eq_of_lt hword]
  simp only [fetchSlr, hread, hw, hd]

/-- Settles O4: the fetch of each format reads the fields and the code in the order of the encoding. -/
theorem placedInstructionIsFetched : Obligations.PlacedInstructionIsFetched := by
  unfold Obligations.PlacedInstructionIsFetched
  refine fun i s h => ⟨fun hf hf0 => ?_, fun hf => ?_⟩
  · rw [place_of_inf s hf hf0]
    exact fetchInf_placeInf s h hf hf0
  · obtain hf | hf := hf <;> rw [place, hf]
    · obtain ⟨hrow, hread⟩ := placeRow_read 1 (BitVec.ofNat 8 (encode i).word) s
      exact fetchSlr_of_placed h (by rw [State.slrFormat, hrow, if_neg (by decide), hf]) hread
    · obtain ⟨hrow, hread⟩ := placeRow_read 0 (BitVec.ofNat 8 (encode i).word) s
      exact fetchSlr_of_placed h (by rw [State.slrFormat, hrow, if_pos rfl, hf]) hread

end Sys2Proof.Machine

/-! PROOFS for the family 30_encoding: decoding after encoding (O1), encoding after decoding and the words no row takes (O2),
words written out (O3). -/

namespace Sys2Proof.Machine

/-- Settles O1: `decode_encode`, by the cases of the instruction. -/
theorem decodeOfEncode : Obligations.DecodeOfEncode := by
  unfold Obligations.DecodeOfEncode
  exact fun _ h => decode_encode h

/-! ### Encoding what is decoded -/

/-- Some row takes the word and the extra bits, with operands that encode them again. -/
def DecodesBack (f : Format) (w x : Nat) : Prop :=
  ∃ i, decodeRow f w x = some i ∧ i.wf = true ∧ encode i = ⟨f, w, x⟩

theorem DecodesBack.of_no_extra {f : Format} {w x : Nat} (h : DecodesBack f w 0) (hx : x < 2 ^ 0) : DecodesBack f w x := by
  obtain rfl : x = 0 := Nat.lt_one_iff.1 hx
  exact h

theorem toNat_ofNat_of_lt {n v : Nat} (h : v < 2 ^ n) : (BitVec.ofNat n v).toNat = v :=
  (BitVec.toNat_ofNat v n).trans (Nat.mod_eq_of_lt h)

theorem encoded_ofNat (f : Format) (w : Nat) {n x : Nat} (h : x < 2 ^ n) :
    (⟨f, w, (BitVec.ofNat n x).toNat⟩ : Encoded) = ⟨f, w, x⟩ :=
  congrArg _ (toNat_ofNat_of_lt h)

theorem encoded_zero (f : Format) (w : Nat) {x : Nat} (h : x < 2 ^ 0) : (⟨f, w, 0⟩ : Encoded) = ⟨f, w, x⟩ :=
  congrArg _ (Nat.lt_one_iff.1 h).symm

/-- The header words: the fields are the word's digits (R92, R94, R95). -/
theorem decodesBack_fields {f : Format} {w : Nat} (hf : f = .zhdr ∨ f = .stored ∨ f = .dynhdr) (h : w < 2 ^ f.wordBits) :
    DecodesBack f w 0 := by
  obtain rfl | rfl | rfl := hf
  all_goals
    refine ⟨_, if_pos h, rfl, ?_⟩
    simp only [Format.wordBits] at h
    simp only [encode, BitVec.toNat_ofNat, Encoded.mk.injEq, true_and, and_true]
    omega

theorem decodesBack_bhdr {w : Nat} (h : w < 2 ^ 3) : DecodesBack .bhdr w 0 := by
  interval_cases w <;> exact ⟨_, rfl, rfl, rfl⟩

/-- The code-length symbols: only 16, 17 and 18 have extra bits (R96). -/
theorem decodesBack_clsym {w x : Nat} (hx : x < 2 ^ clExtra w) (h : w ≤ 18) : DecodesBack .clsym w x := by
  rcases Nat.lt_or_ge w 16 with hlt | hge
  · have h0 : clExtra w = 0 := by rw [clExtra, if_neg (by omega), if_neg (by omega), if_neg (by omega)]
    rw [h0] at hx
    exact .of_no_extra ⟨_, if_pos hlt, rfl, by rw [encode, toNat_ofNat_of_lt hlt]⟩ hx
  · interval_cases w <;> exact ⟨_, rfl, rfl, encoded_ofNat _ _ hx⟩

/-- The LL symbols from 257 on: only the length codes 8 to 27 have extra bits (R224, R254). -/
theorem decodesBack_length {n x : Nat} (hx : x < 2 ^ llExtra (n + 257)) (h : n < 31) :
    DecodesBack .llsym (n + 257) x := by
  interval_cases n
  iterate 8 exact ⟨_, rfl, rfl, encoded_zero _ _ hx⟩
  iterate 20 exact ⟨_, rfl, rfl, encoded_ofNat _ _ hx⟩
  iterate 3 exact ⟨_, rfl, rfl, encoded_zero _ _ hx⟩

theorem decodesBack_llsym {w x : Nat} (hx : x < 2 ^ llExtra w) (h : w < 288) : DecodesBack .llsym w x := by
  obtain hlit | rfl | hlen : w < 256 ∨ w = 256 ∨ 257 ≤ w := by omega
  · have h0 : llExtra w = 0 := if_pos (by omega)
    rw [h0] at hx
    exact .of_no_extra ⟨_, if_pos hlit, rfl, by rw [encode, toNat_ofNat_of_lt hlit]⟩ hx
  · exact ⟨_, rfl, rfl, encoded_zero _ _ hx⟩
  · obtain ⟨n, rfl⟩ := Nat.exists_eq_add_of_le' hlen
    exact decodesBack_length hx (by omega)

/-- The D symbols: only 4 to 29 have extra bits (R260, R292). -/
theorem decodesBack_dsym {w x : Nat} (hx : x < 2 ^ dExtra w) (h : w < 32) : DecodesBack .dsym w x := by
  interval_cases w
  iterate 4 exact ⟨_, rfl, rfl, encoded_zero _ _ hx⟩
  iterate 26 exact ⟨_, rfl, rfl, encoded_ofNat _ _ hx⟩
  iterate 2 exact ⟨_, rfl, rfl, encoded_zero _ _ hx⟩

/-- The filter bytes: a filter below 5, an invalid row from 5 on (R99, R105). -/
theorem decodesBack_filter {w : Nat} (h : w < 256) : DecodesBack .filt w 0 ∧ DecodesBack .filt0 w 0 := by
  rcases Nat.lt_or_ge w 5 with hlt | hge
  · interval_cases w <;> exact ⟨⟨_, rfl, rfl, rfl⟩, ⟨_, rfl, rfl, rfl⟩⟩
  · obtain ⟨hrow, hrow0⟩ := decodeFilt_of_illegal hge h
    have hw : (BitVec.ofNat 8 w).toNat = w := toNat_ofNat_of_lt h
    refine ⟨⟨_, hrow, ?_, ?_⟩, ⟨_, hrow0, ?_, ?_⟩⟩ <;> simp [Instr.wf, encode, hw, hge]

theorem decodesBack_of_fits {f : Format} {w x : Nat} (hx : x < 2 ^ extraBits f w) (hw : w < 2 ^ f.wordBits)
    (hcl : f = .clsym → w ≤ 18) (hll : f = .llsym → w < 288) : DecodesBack f w x := by
  cases f with
  | clsym => exact decodesBack_clsym hx (hcl rfl)
  | llsym => exact decodesBack_llsym hx (hll rfl)
  | dsym => exact decodesBack_dsym hx hw
  | zhdr | stored | dynhdr => exact (decodesBack_fields (by simp) hw).of_no_extra hx
  | bhdr => exact (decodesBack_bhdr hw).of_no_extra hx
  | filt => exact (decodesBack_filter hw).1.of_no_extra hx
  | filt0 => exact (decodesBack_filter hw).2.of_no_extra hx

/-! ### The words no row takes -/

theorem decodeCl_eq_none {w : Nat} (x : Nat) (h : 18 < w) : decodeCl w x = none := by
  rw [decodeCl, if_neg (by omega), if_neg (by omega), if_neg (by omega), if_neg (by omega)]

theorem decodeLL_eq_none {w : Nat} (x : Nat) (h : 288 ≤ w) : decodeLL w x = none :=
  Option.eq_none_iff_forall_ne_some.2 fun _ hi => Nat.not_lt.2 h (lt_of_decodeLL hi)

theorem decodeBlk_eq_none {w : Nat} (h : 8 ≤ w) : decodeBlk w = none := by
  obtain ⟨n, hn⟩ := Nat.exists_eq_add_of_le' (show 4 ≤ w / 2 by omega)
  simp only [decodeBlk, hn]

theorem decodeFilt_eq_none {w : Nat} (h : 256 ≤ w) : decodeFilt w = none ∧ decodeFilt0 w = none := by
  obtain ⟨n, rfl⟩ := Nat.exists_eq_add_of_le' (show 5 ≤ w by omega)
  have hn : ¬n + 5 < 256 := Nat.not_lt.2 h
  exact ⟨if_neg hn, if_neg hn⟩

theorem decodeRow_of_wide {f : Format} {w : Nat} (x : Nat) (h : 2 ^ f.wordBits ≤ w) : decodeRow f w x = none := by
  cases f with
  | zhdr | stored | dynhdr => exact if_neg (Nat.not_lt.2 h)
  | bhdr => exact decodeBlk_eq_none h
  | clsym => exact decodeCl_eq_none x (Nat.lt_of_lt_of_le (by decide) h)
  | llsym => exact decodeLL_eq_none x (Nat.le_trans (by decide) h)
  | dsym =>
    obtain ⟨n, rfl⟩ := Nat.exists_eq_add_of_le' h
    rfl
  | filt => exact (decodeFilt_eq_none h).1
  | filt0 => exact (decodeFilt_eq_none h).2

theorem decode_eq_noRow {f : Format} {w x : Nat} (h : decodeRow f w x = none) :
    decode f w x = .error (.noRow f w) := by
  rw [decode, h]

/-- Settles O2: per format, the row of each word encodes it again, and the other words have no row. -/
theorem encodeOfDecode : Obligations.EncodeOfDecode := by
  unfold Obligations.EncodeOfDecode
  refine fun f w x hx => ⟨fun hw hcl hll => ?_, fun h => decode_eq_noRow ?_⟩
  · obtain ⟨i, hi, hwf, henc⟩ := decodesBack_of_fits hx hw hcl hll
    exact ⟨i, decode_eq_ok.2 hi, hwf, henc⟩
  · obtain hwide | ⟨rfl, hcl⟩ | ⟨rfl, hll⟩ := h
    exacts [decodeRow_of_wide x hwide, decodeCl_eq_none x hcl, decodeLL_eq_none x hll]

/-! ### Words written out -/

/-- Settles O3: closed words, each decoded by evaluation. -/
theorem writtenWords : Obligations.WrittenWords := by
  unfold Obligations.WrittenWords
  decide

end Sys2Proof.Machine

/-! PROOFS for the family 40_bit_reader: `refill` (O5), `consume` (O6), the decode window (O7), `align` (O8), `next_byte` (O9). -/

namespace Sys2Proof.Machine

/-! ### The loop of `refill` -/

/-- Where the fuel suffices to fill `acc`, more fuel loads no more bytes. -/
theorem refillLoop_succ_of_full (fuel : Nat) {s : State} (h : 25 ≤ s.inf.cnt + 8 * fuel) :
    refillLoop (fuel + 1) s = refillLoop fuel s := by
  induction fuel generalizing s with
  | zero => exact if_neg (by omega)
  | succ fuel ih => exact if_congr Iff.rfl (ih (by rw [loadByte_cnt]; omega)) rfl

/-- One turn of the loop of R131. -/
theorem refill_loadByte {s : State} (hc : s.inf.cnt ≤ 24) (hi : s.inf.ipos < s.inf.inLen.toNat) :
    refill s = refill (loadByte s) := by
  calc refill s = refillLoop 3 (loadByte s) := if_pos ⟨hc, hi⟩
    _ = refill (loadByte s) := (refillLoop_succ_of_full 3 (by rw [loadByte_cnt]; omega)).symm

theorem refill_of_done {s : State} (h : 24 < s.inf.cnt ∨ s.inf.inLen.toNat ≤ s.inf.ipos) : refill s = s :=
  if_neg (by omega)

/-- The four bytes of fuel suffice: `refill` ends with `acc` full or IN exhausted (R131). -/
theorem refill_full {s : State} (h : s.BitReaderOk) :
    25 ≤ (refill s).inf.cnt ∨ (refill s).inf.ipos = s.inf.inLen.toNat := by
  obtain ⟨-, hfull | hend | hfuel, -⟩ := refillLoop_spec 4 h
  · exact .inl hfull
  · exact .inr hend
  · exact .inl (Nat.le_trans (by omega) hfuel)

/-- Settles O5: one turn of the loop, its end, and what `refillLoop_spec` says of four turns. -/
theorem refill_correct : Obligations.Refill := by
  unfold Obligations.Refill
  intro s h
  obtain ⟨hmoved, -, hipos, -⟩ := refillLoop_spec 4 h
  exact ⟨refill_loadByte, refill_of_done, hmoved, refill_full h, hipos⟩

/-! ### Consuming a field -/

theorem cnt_le_bitsLeft {s : State} (h : s.BitReaderOk) : s.inf.cnt ≤ s.bitsLeft := by
  have := h.cnt_le_bits
  have := h.ipos_le
  rw [State.bitsLeft, State.bitpos]
  omega

/-- With IN exhausted, what `acc` holds is all that is left. -/
theorem bitsLeft_of_exhausted {s : State} (h : s.BitReaderOk) (he : s.inf.ipos = s.inf.inLen.toNat) :
    s.bitsLeft = s.inf.cnt := by
  have := h.cnt_le_bits
  rw [State.bitsLeft, State.bitpos, ← he]
  omega

theorem ReaderMoved.inLen {n : Nat} {s t : State} (h : ReaderMoved n s t) : t.inf.inLen = s.inf.inLen := by rw [h.1]

theorem ReaderMoved.bitsLeft {s t : State} (h : ReaderMoved 0 s t) : t.bitsLeft = s.bitsLeft := by
  rw [State.bitsLeft, h.inLen, h.2.2, Nat.add_zero, State.bitsLeft]

theorem ReaderMoved.streamField {n : Nat} {s t : State} (h : ReaderMoved n s t) (p k : Nat) :
    t.streamField p k = s.streamField p k :=
  streamField_congr (by rw [h.1]) (by rw [h.1]) p k

/-- The state in which `consume` takes its bits: nothing is consumed yet, and the bits are there if the stream has them. -/
theorem exists_filled_for_consume {n : Nat} {s : State} (hn : n ≤ 24) (h : s.BitReaderOk) :
    ∃ u, (if s.inf.cnt < 16 ∨ s.inf.cnt < n then refill s else s) = u ∧ ReaderMoved 0 s u ∧
      (n ≤ u.inf.cnt ↔ n ≤ s.bitsLeft) := by
  have hall {u : State} (hm : ReaderMoved 0 s u) (hu : n ≤ u.inf.cnt) : n ≤ s.bitsLeft :=
    hm.bitsLeft ▸ hu.trans (cnt_le_bitsLeft hm.2.1)
  have hbitpos := bitpos_le_stream h
  split
  · have hm := refill_moved h
    refine ⟨_, rfl, hm, hall hm, fun hl => le_refill_cnt h (by omega) ?_⟩
    rw [State.bitsLeft] at hl
    omega
  · have hm := readerMoved_zero h
    exact ⟨_, rfl, hm, hall hm, fun _ => by omega⟩

/-- Settles O6: the state after the refill holds `n` bits exactly when the stream does, and its low bits are the field. -/
theorem consume_correct : Obligations.Consume := by
  unfold Obligations.Consume
  intro n s hn h
  obtain rfl | h0 := Nat.eq_zero_or_pos n
  · exact ⟨fun hl => absurd hl (Nat.not_lt_zero _), fun _ => ⟨s, rfl, readerMoved_zero h, fun h0 => absurd rfl h0⟩, rfl⟩
  obtain ⟨u, hu, hm, hcnt⟩ := exists_filled_for_consume hn h
  rw [hu]
  refine ⟨fun hl => ?_, fun hl => ?_, rfl⟩
  · simp only [consume, hu, if_neg h0.ne', if_pos (show u.inf.cnt < n by omega)]
  · have hle := hcnt.2 hl
    have hval : u.inf.acc.toNat % 2 ^ n = s.streamField s.bitpos n := by
      rw [acc_field hm.2.1 hle, hm.streamField, hm.2.2, Nat.add_zero]
    refine ⟨dropBits n u, ?_, by simpa using hm.trans (dropBits_moved hm.2.1 hle), fun _ => rfl⟩
    simp only [consume, hu, if_neg h0.ne', if_neg (Nat.not_lt.2 hle), hval]

/-! ### The decode window -/

/-- The padded field is the field cut off at the end of the stream (R139). -/
theorem paddedField_eq_streamField (s : State) (p n : Nat) :
    s.paddedField p n = s.streamField p (min n (8 * s.inf.inLen.toNat - p)) := by
  induction n generalizing p with
  | zero => rw [Nat.zero_min]; rfl
  | succ n ih =>
    rw [State.paddedField, ih]
    by_cases hp : p < 8 * s.inf.inLen.toNat
    · have hmin : min (n + 1) (8 * s.inf.inLen.toNat - p) = min n (8 * s.inf.inLen.toNat - (p + 1)) + 1 := by omega
      rw [hmin, State.streamField, decide_eq_true hp, Bool.true_and]
    · have hend : 8 * s.inf.inLen.toNat - p = 0 ∧ 8 * s.inf.inLen.toNat - (p + 1) = 0 := by omega
      rw [hend.1, hend.2, Nat.min_zero, Nat.min_zero, decide_eq_false hp]
      rfl

/-- Where `acc` holds `n` bits or IN is exhausted, its low `n` bits are the next bits of the stream, 0 past the end (R136). -/
theorem acc_paddedField {s : State} (h : s.BitReaderOk) {n : Nat}
    (hn : n ≤ s.inf.cnt ∨ s.inf.ipos = s.inf.inLen.toNat) :
    s.inf.acc.toNat % 2 ^ n = s.paddedField s.bitpos n := by
  have hleft := cnt_le_bitsLeft h
  rw [paddedField_eq_streamField, ← State.bitsLeft]
  rcases Nat.le_total n s.inf.cnt with hle | hge
  · rw [min_eq_left (hle.trans hleft), acc_field h hle]
  · have hcnt : min n s.bitsLeft = s.inf.cnt := by
      obtain hle | he := hn
      · omega
      · rw [bitsLeft_of_exhausted h he, min_eq_right hge]
    rw [hcnt, ← acc_field h le_rfl, Nat.mod_eq_of_lt h.acc_lt,
      Nat.mod_eq_of_lt (h.acc_lt.trans_le (Nat.pow_le_pow_right (by decide) hge))]

theorem ReaderMoved.paddedField {n : Nat} {s t : State} (h : ReaderMoved n s t) (p k : Nat) :
    t.paddedField p k = s.paddedField p k := by
  rw [paddedField_eq_streamField, h.streamField, h.inLen, ← paddedField_eq_streamField]

theorem fillToThreshold_of_le {s : State} (h : 16 ≤ s.inf.cnt) : fillToThreshold s = s := if_neg (Nat.not_lt.2 h)

theorem fillToThreshold_full {s : State} (h : s.BitReaderOk) :
    16 ≤ (fillToThreshold s).inf.cnt ∨ (fillToThreshold s).inf.ipos = s.inf.inLen.toNat := by
  rw [fillToThreshold]
  split
  · exact (refill_full h).imp_left (Nat.le_trans (by decide))
  · exact .inl (by omega)

/-- Settles O7: `acc_paddedField`, in the state `fill_to_threshold` leaves. -/
theorem decodeWindow : Obligations.DecodeWindow := by
  unfold Obligations.DecodeWindow
  intro s h
  have hm := fillToThreshold_moved h
  have hfull := fillToThreshold_full h
  refine ⟨hm, hfull, fillToThreshold_of_le, ?_⟩
  have hacc := acc_paddedField (n := 16) hm.2.1 (by rwa [hm.inLen])
  rwa [hm.paddedField, hm.2.2, Nat.add_zero] at hacc

/-! ### Byte boundaries -/

/-- Settles O8: dropping `cnt mod 8` bits, the position being `cnt` bits before a byte boundary. -/
theorem align_correct : Obligations.Align := by
  unfold Obligations.Align
  intro s h
  obtain ⟨hm, hmod⟩ := align_moved h
  refine ⟨rfl, hm, hmod, ?_⟩
  have := h.cnt_le_bits
  rw [hm.2.2, State.bitpos]
  omega

/-- At a byte boundary the low byte of `acc` is the byte of IN at the stream position (R138). -/
theorem acc_byte {s : State} (h : s.BitReaderOk) (hc : s.inf.cnt % 8 = 0) (hpos : 0 < s.inf.cnt) :
    s.inf.acc.setWidth 8 = s.read .inn (s.bitpos / 8) := by
  have hbyte : s.bitpos = 8 * (s.bitpos / 8) := by
    rw [State.bitpos]
    omega
  apply BitVec.eq_of_toNat_eq
  rw [BitVec.toNat_setWidth, acc_field h (by omega), hbyte, streamField_byte, ← hbyte]

/-- Settles O9: `acc` holds a byte of IN, or it is empty and the byte comes from IN itself. -/
theorem nextByte_correct : Obligations.NextByte := by
  unfold Obligations.NextByte
  intro f s h hc
  have hleft := cnt_le_bitsLeft h
  obtain hempty | hpos := Nat.eq_zero_or_pos s.inf.cnt
  · have hbitpos : s.bitpos = 8 * s.inf.ipos := by rw [State.bitpos, hempty, Nat.sub_zero]
    rw [State.bitsLeft, hbitpos, Nat.mul_div_cancel_left _ (by decide)]
    refine ⟨fun hl => ?_, fun hl => ?_⟩
    · rw [nextByte, if_neg (by omega), if_pos (by omega)]
    · have hnext : nextByte f s =
          .ok (s.read .inn s.inf.ipos, { s with inf := { s.inf with ipos := s.inf.ipos + 1 } }) := by
        rw [nextByte, if_neg (by omega), if_neg (by omega)]
      exact ⟨_, hnext, (nextByte_moved h hc hnext).1, fun hp => absurd hempty hp.ne', fun _ => hempty⟩
  · have hnext : nextByte f s = .ok (s.read .inn (s.bitpos / 8), dropBits 8 s) := by
      rw [nextByte, if_pos hpos, acc_byte h hc hpos]
    exact ⟨fun hl => by omega, fun _ =>
      ⟨_, hnext, (nextByte_moved h hc hnext).1, fun _ => rfl, fun he => absurd he hpos.ne'⟩⟩

end Sys2Proof.Machine

/-! PROOFS for the family 41_huffman: when `build` fails (O10, O11), what it builds, the two-tier lookup (O13), `decode` (O14) and
the fixed tables (O12). -/

namespace Sys2Proof.Machine

/-! ### The canonical codes of each length -/

/-- One past the last canonical code of length `l` (R156): the running `code` of R154 after the addition. -/
def endCodeOf (L : List Nat) (l : Nat) : Nat := firstCodeOf L l + codesOfLength L l

/-- Where the codes of length `l` end among the 16-bit windows read most significant bit first (R156). -/
def maxCodeOf (L : List Nat) (l : Nat) : Nat := endCodeOf L l * 2 ^ (16 - l)

/-- The second check of R154 passes at every length. -/
def CodesFit (L : List Nat) : Prop := ∀ l ≤ 15, endCodeOf L l ≤ 2 ^ l

/-- The number of coded symbols shorter than `l`: the running `k` of R154 at `l`. -/
def firstSymbolOf (L : List Nat) (l : Nat) : Nat := L.countP fun x => decide (x ≠ 0 ∧ x < l)

theorem codesOfLength_eq_count (L : List Nat) {l : Nat} (hl : l ≠ 0) : codesOfLength L l = L.count l := if_neg hl

theorem firstCodeOf_succ (L : List Nat) (l : Nat) : firstCodeOf L (l + 1) = 2 * endCodeOf L l := rfl

theorem endCodeOf_zero (L : List Nat) : endCodeOf L 0 = 0 := rfl

theorem endCodeOf_succ (L : List Nat) (l : Nat) : endCodeOf L (l + 1) = 2 * endCodeOf L l + L.count (l + 1) := rfl

theorem firstSymbolOf_succ (L : List Nat) (l : Nat) : firstSymbolOf L (l + 1) = firstSymbolOf L l + codesOfLength L l := by
  by_cases hl : l = 0
  · subst hl
    simp [firstSymbolOf, codesOfLength]
  rw [codesOfLength_eq_count L hl]
  unfold firstSymbolOf
  induction L with
  | nil => rfl
  | cons x L ih =>
    rw [List.countP_cons, List.countP_cons, List.count_cons, ih]
    by_cases hx : x = l
    · simp [hx, hl]
      omega
    · have hlt : x < l + 1 ↔ x < l := by omega
      simp [hx, hlt]
      omega

theorem firstSymbolOf_zero (L : List Nat) : firstSymbolOf L 0 = 0 := List.countP_eq_zero.2 (by simp)

theorem firstSymbolOf_one (L : List Nat) : firstSymbolOf L 1 = 0 := by rw [firstSymbolOf_succ, firstSymbolOf_zero]; rfl

theorem firstSymbolOf_mono (L : List Nat) {l m : Nat} (h : l ≤ m) : firstSymbolOf L l ≤ firstSymbolOf L m :=
  monotone_nat_of_le_succ (fun n => by rw [firstSymbolOf_succ]; omega) h

theorem firstSymbolOf_le_length (L : List Nat) (l : Nat) : firstSymbolOf L l ≤ L.length := List.countP_le_length

/-! ### The bookkeeping of the lengths -/

/-- What R154 records of length `l`. -/
def lenInfoOf (L : List Nat) (l : Nat) : LenInfo := ⟨firstCodeOf L l, firstSymbolOf L l, maxCodeOf L l⟩

/-- The bookkeeping of R154 computes the first codes and symbols of the lengths, and stops where a length does not fit. -/
theorem bookkeep_eq (L : List Nat) (n : Nat) {l : Nat} (hl : l ≠ 0) :
    bookkeep L n l (firstCodeOf L l) (firstSymbolOf L l) =
      if ∀ j ∈ List.range' l n, endCodeOf L j ≤ 2 ^ j then some ((List.range' l n).map (lenInfoOf L)) else none := by
  induction n generalizing l with
  | zero => simp [bookkeep]
  | succ n ih =>
    have hend : firstCodeOf L l + L.count l = endCodeOf L l := by rw [endCodeOf, codesOfLength_eq_count L hl]
    have hsym : firstSymbolOf L l + L.count l = firstSymbolOf L (l + 1) := by
      rw [firstSymbolOf_succ, codesOfLength_eq_count L hl]
    rw [bookkeep, hend, hsym, ← firstCodeOf_succ, ih (Nat.succ_ne_zero l), List.range'_succ]
    simp only [List.forall_mem_cons, List.map_cons]
    by_cases hfit : endCodeOf L l ≤ 2 ^ l
    · simp only [hfit, Nat.not_lt.2 hfit, if_false, true_and]
      split_ifs <;> rfl
    · simp only [hfit, Nat.lt_of_not_le hfit, if_true, false_and, if_false]

theorem codesFit_iff (L : List Nat) : CodesFit L ↔ ∀ l ∈ List.range' 1 15, endCodeOf L l ≤ 2 ^ l := by
  simp only [CodesFit, List.mem_range'_1]
  refine ⟨fun h l hl => h l (by omega), fun h l hl => ?_⟩
  obtain rfl | hpos := Nat.eq_zero_or_pos l
  · exact Nat.zero_le _
  · exact h l ⟨hpos, by omega⟩

/-- Part 2 of `build`, from the start. -/
theorem bookkeep_start (L : List Nat) :
    (CodesFit L → bookkeep L 15 1 0 0 = some ((List.range' 1 15).map (lenInfoOf L))) ∧
      (¬CodesFit L → bookkeep L 15 1 0 0 = none) := by
  have hstart := bookkeep_eq L 15 Nat.one_ne_zero
  rw [firstSymbolOf_one, firstCodeOf_succ, endCodeOf_zero] at hstart
  rw [codesFit_iff]
  exact ⟨fun h => hstart.trans (if_pos h), fun h => hstart.trans (if_neg h)⟩

theorem count_le_endCodeOf (L : List Nat) {l : Nat} (hl : l ≠ 0) : L.count l ≤ endCodeOf L l := by
  rw [endCodeOf, codesOfLength_eq_count L hl]
  exact Nat.le_add_left ..

/-- The check of R153 is implied by that of R154. -/
theorem tooMany_of_fit {L : List Nat} (h : CodesFit L) : tooMany L = false := by
  rw [tooMany, List.any_eq_false]
  intro l hl
  have hpos : l ≠ 0 := Nat.ne_of_gt (List.mem_range'_1.1 hl).1
  rw [decide_eq_true_eq, Nat.not_lt]
  exact (count_le_endCodeOf L hpos).trans ((codesFit_iff L).1 h l hl)

/-! ### What `build` makes -/

/-- `next_code` at its start, and the field `first_code` (R154). -/
def firstCodes (L : List Nat) : List Nat := (List.range 16).map (firstCodeOf L)

/-- The field `first_symbol` (R154). -/
def firstSymbols (L : List Nat) : List Nat := (List.range 16).map (firstSymbolOf L)

/-- The coded symbols, in symbol order (R155). -/
def codedSymbols (L : List Nat) : List Coded := assign (firstCodes L) 0 L

/-- A slow-path array (R155): the value `v` of each coded symbol at its index. -/
def slowArray {α : Type} (cap : Nat) (L : List Nat) (zero : α) (v : Coded → α) : List α :=
  (codedSymbols L).foldl (fun t c => t.set (slowIndex (firstCodes L) (firstSymbols L) c) (v c)) (List.replicate cap zero)

/-- The table of R159. -/
def builtTable (cap : Nat) (L : List Nat) : HuffTable where
  fast := (codedSymbols L).foldl fillFast (List.replicate 512 0)
  firstCode := (firstCodes L).map (BitVec.ofNat 16)
  firstSymbol := (firstSymbols L).map (BitVec.ofNat 9)
  maxCode := ((List.range 16).map (maxCodeOf L) ++ [65536]).map (BitVec.ofNat 17)
  lengths := slowArray cap L 0 fun c => BitVec.ofNat 4 c.len
  symbols := slowArray cap L 0 fun c => BitVec.ofNat 9 c.sym

theorem build_of_fit (cap : Nat) {L : List Nat} (h : CodesFit L) : build cap L = some (builtTable cap L) := by
  have hcodes : 0 :: ((List.range' 1 15).map (lenInfoOf L)).map LenInfo.firstCode = firstCodes L := rfl
  have hsymbols : 0 :: ((List.range' 1 15).map (lenInfoOf L)).map LenInfo.firstSymbol = firstSymbols L :=
    congrArg (· :: _) (firstSymbolOf_zero L).symm
  have hmax : 0 :: ((List.range' 1 15).map (lenInfoOf L)).map LenInfo.maxCode = (List.range 16).map (maxCodeOf L) :=
    congrArg (· :: _) (Nat.zero_mul _).symm
  rw [build, tooMany_of_fit h, (bookkeep_start L).1 h]
  simp only [hcodes, hsymbols, hmax]
  rfl

theorem build_of_not_fit (cap : Nat) {L : List Nat} (h : ¬CodesFit L) : build cap L = none := by
  rw [build, (bookkeep_start L).2 h]
  exact ite_self none

/-- A table is built of lengths whose codes fit, and is the one of R159. -/
theorem built_iff {cap : Nat} {L : List Nat} {T : HuffTable} :
    build cap L = some T ↔ CodesFit L ∧ T = builtTable cap L := by
  refine ⟨fun h => ?_, fun ⟨hfit, hT⟩ => hT ▸ build_of_fit cap hfit⟩
  by_cases hfit : CodesFit L
  · rw [build_of_fit cap hfit] at h
    exact ⟨hfit, (Option.some.inj h).symm⟩
  · rw [build_of_not_fit cap hfit] at h
    cases h

theorem build_eq_none_iff (cap : Nat) (L : List Nat) : build cap L = none ↔ ¬CodesFit L := by
  refine ⟨fun hb hfit => ?_, build_of_not_fit cap⟩
  rw [build_of_fit cap hfit] at hb
  cases hb

/-! ### When `build` fails -/

/-- Settles O10: `count l` codes of length `l` end past `2^l`, whatever the shorter ones leave. -/
theorem buildCountCheck : Obligations.BuildCountCheck := by
  unfold Obligations.BuildCountCheck
  intro cap L l hl h15 hcount
  have hfit : ¬CodesFit L := fun h =>
    absurd (hcount.trans_le (count_le_endCodeOf L (by omega))) (Nat.not_lt.2 (h l h15))
  exact ⟨build_of_not_fit cap hfit, (bookkeep_start L).2 hfit⟩

/-! ### The Kraft sum -/

/-- A code space that is over-subscribed at some length stays so at the longer ones. -/
theorem endCodeOf_over {L : List Nat} {l m : Nat} (hlm : l ≤ m) (h : 2 ^ l < endCodeOf L l) : 2 ^ m < endCodeOf L m := by
  induction m, hlm using Nat.le_induction with
  | base => exact h
  | succ m _ ih =>
    rw [endCodeOf_succ, Nat.pow_succ]
    omega

theorem codesFit_iff_last (L : List Nat) : CodesFit L ↔ endCodeOf L 15 ≤ 2 ^ 15 :=
  ⟨fun h => h 15 le_rfl, fun h _ hl => Nat.le_of_not_lt fun hover => absurd (endCodeOf_over hl hover) (Nat.not_lt.2 h)⟩

/-- What one more symbol of length `x` takes of the codes of length `l`: those that begin with its own code. -/
theorem endCodeOf_cons (x : Nat) (L : List Nat) (l : Nat) :
    endCodeOf (x :: L) l = endCodeOf L l + if x ≠ 0 ∧ x ≤ l then 2 ^ (l - x) else 0 := by
  induction l with
  | zero => simp [endCodeOf_zero]
  | succ l ih =>
    rw [endCodeOf_succ, endCodeOf_succ, ih, List.count_cons]
    obtain hlt | rfl | hgt := Nat.lt_trichotomy x (l + 1)
    · have hle : x ≤ l := Nat.le_of_lt_succ hlt
      have hpow : 2 ^ (l + 1 - x) = 2 * 2 ^ (l - x) := by rw [Nat.succ_sub hle, Nat.pow_succ']
      by_cases h0 : x = 0
      · simp [h0]
      · simp [h0, hle, hlt.le, hlt.ne, hpow]
        omega
    · simp
      omega
    · simp [Nat.not_le.2 hgt, Nat.not_le.2 (Nat.lt_of_succ_lt hgt), hgt.ne']

/-- The codes of length 15 that are taken are the Kraft sum (R154). -/
theorem kraftSum_eq_endCodeOf {L : List Nat} (h15 : ∀ l ∈ L, l ≤ 15) : kraftSum L = endCodeOf L 15 := by
  induction L with
  | nil => rfl
  | cons x L ih =>
    obtain ⟨hx, hL⟩ := List.forall_mem_cons.1 h15
    rw [endCodeOf_cons, ← ih hL]
    by_cases h0 : x = 0
    · simp [kraftSum, h0]
    · simp [kraftSum, h0, hx, Nat.add_comm]

/-- Settles O11: the second check at length 15 is the last one to be broken, and there it compares the Kraft sum. -/
theorem buildFailsIffOversubscribed : Obligations.BuildFailsIffOversubscribed := by
  unfold Obligations.BuildFailsIffOversubscribed
  intro cap L h15
  rw [build_eq_none_iff, codesFit_iff_last, kraftSum_eq_endCodeOf h15, Nat.not_le]

/-! ### Counting the symbols of a length -/

theorem lt_length_of_coded {L : List Nat} {s : Nat} (hs : L.getD s 0 ≠ 0) : s < L.length :=
  Nat.lt_of_not_le fun hle => hs (List.getD_eq_default _ _ hle)

/-- A coded symbol is itself one of its length, after those before it. -/
theorem count_take_lt {L : List Nat} {s : Nat} (hs : L.getD s 0 ≠ 0) :
    (L.take s).count (L.getD s 0) < L.count (L.getD s 0) := by
  have hlt := lt_length_of_coded hs
  rw [List.getD_eq_getElem _ _ hlt, ← List.countBefore_eq_count_take]
  exact List.countBefore_lt_count_getElem

/-- A symbol is determined by its length and by how many symbols of that length come before it. -/
theorem eq_of_count_take_eq {L : List Nat} {s t : Nat} (hs : L.getD s 0 ≠ 0) (hlen : L.getD s 0 = L.getD t 0)
    (h : (L.take s).count (L.getD s 0) = (L.take t).count (L.getD t 0)) : s = t := by
  have hslt := lt_length_of_coded hs
  have htlt := lt_length_of_coded (hlen ▸ hs)
  rw [List.getD_eq_getElem _ _ hslt, List.getD_eq_getElem _ _ htlt] at hlen h
  rw [← List.countBefore_eq_count_take, ← List.countBefore_eq_count_take] at h
  calc s = L.idxOfNth L[s] (L.countBefore L[s] s) := List.idxOfNth_countBefore_getElem.symm
    _ = L.idxOfNth L[t] (L.countBefore L[t] t) := by rw [h, hlen]
    _ = t := List.idxOfNth_countBefore_getElem

theorem exists_count_take {L : List Nat} {l r : Nat} (hr : r < L.count l) :
    ∃ s, L.getD s 0 = l ∧ (L.take s).count l = r := by
  have hlt := List.idxOfNth_lt_length_of_lt_count hr
  refine ⟨L.idxOfNth l r, ?_, ?_⟩
  · rw [List.getD_eq_getElem _ _ hlt, List.getElem_idxOfNth_eq]
  · rw [← List.countBefore_eq_count_take, List.countBefore_idxOfNth_of_lt_count hr]

/-! ### The code space, cut into intervals -/

/-- The codes of length `l + 1` begin where those of length `l` end (R156). -/
theorem firstCodeOf_aligned (L : List Nat) {l : Nat} (hl : l ≤ 15) :
    firstCodeOf L (l + 1) * 2 ^ (16 - (l + 1)) = maxCodeOf L l := by
  have hexp : 16 - l = 16 - (l + 1) + 1 := by omega
  rw [firstCodeOf_succ, maxCodeOf, hexp, Nat.pow_succ]
  ring

theorem maxCodeOf_mono (L : List Nat) {l m : Nat} (hlm : l ≤ m) (hm : m ≤ 15) : maxCodeOf L l ≤ maxCodeOf L m := by
  induction m, hlm using Nat.le_induction with
  | base => exact le_rfl
  | succ m _ ih =>
    refine (ih (by omega)).trans ?_
    rw [← firstCodeOf_aligned L (by omega)]
    exact Nat.mul_le_mul_right _ (Nat.le_add_right ..)

theorem maxCodeOf_le {L : List Nat} (hfit : CodesFit L) {l : Nat} (hl : l ≤ 15) : maxCodeOf L l ≤ 65536 :=
  calc maxCodeOf L l ≤ 2 ^ l * 2 ^ (16 - l) := Nat.mul_le_mul_right _ (hfit l hl)
    _ = 65536 := by rw [← Nat.pow_add, Nat.add_sub_cancel' (by omega)]

theorem canonicalCode_bounds {L : List Nat} {s : Nat} (hs : L.getD s 0 ≠ 0) :
    firstCodeOf L (L.getD s 0) ≤ canonicalCode L s ∧ canonicalCode L s < endCodeOf L (L.getD s 0) := by
  rw [canonicalCode, endCodeOf, codesOfLength_eq_count L hs]
  exact ⟨Nat.le_add_right .., Nat.add_lt_add_left (count_take_lt hs) _⟩

/-! ### The symbol a window begins with -/

section
variable {L : List Nat} (hfit : CodesFit L) (h15 : ∀ l ∈ L, l ≤ 15)
include hfit h15

/-- Symbol `s` is matched when its code is the high bits of the window read most significant bit first (R166, R169). -/
theorem codeMatches_iff (window s : Nat) :
    CodeMatches L window s ↔
      L.getD s 0 ≠ 0 ∧ bitrev window 16 / 2 ^ (16 - L.getD s 0) = canonicalCode L s := by
  have hl := getD_le h15 s
  have hhigh : bitrev window 16 / 2 ^ (16 - L.getD s 0) = bitrev (window % 2 ^ L.getD s 0) (L.getD s 0) := by
    have hdiv := bitrev_div window (L.getD s 0) (16 - L.getD s 0)
    rwa [Nat.add_sub_cancel' (by omega)] at hdiv
  rw [CodeMatches, hhigh]
  constructor
  · rintro ⟨-, hs, hw⟩
    have hcode : canonicalCode L s < 2 ^ L.getD s 0 := (canonicalCode_bounds hs).2.trans_le (hfit _ hl)
    exact ⟨hs, by rw [hw, bitrev_bitrev hcode]⟩
  · rintro ⟨hs, hw⟩
    refine ⟨lt_length_of_coded hs, hs, ?_⟩
    rw [← hw, bitrev_bitrev (Nat.mod_lt _ (Nat.two_pow_pos _))]

/-- The windows that begin with a code of length `l` lie in the interval of that length (R156). -/
theorem codeMatches_interval {window s : Nat} (h : CodeMatches L window s) :
    firstCodeOf L (L.getD s 0) * 2 ^ (16 - L.getD s 0) ≤ bitrev window 16 ∧
      bitrev window 16 < maxCodeOf L (L.getD s 0) := by
  obtain ⟨hs, hcode⟩ := (codeMatches_iff hfit h15 window s).1 h
  obtain ⟨hlo, hhi⟩ := canonicalCode_bounds hs
  rw [← hcode] at hlo hhi
  exact ⟨(Nat.le_div_iff_mul_le (Nat.two_pow_pos _)).1 hlo, (Nat.div_lt_iff_lt_mul (Nat.two_pow_pos _)).1 hhi⟩

/-- Every window in the interval of length `l` begins with a code of that length (R166). -/
theorem exists_codeMatches {window l : Nat} (hl : l ≠ 0)
    (hlo : firstCodeOf L l * 2 ^ (16 - l) ≤ bitrev window 16) (hhi : bitrev window 16 < maxCodeOf L l) :
    ∃ s, CodeMatches L window s := by
  replace hlo := (Nat.le_div_iff_mul_le (Nat.two_pow_pos _)).2 hlo
  replace hhi := (Nat.div_lt_iff_lt_mul (Nat.two_pow_pos _)).2 hhi
  rw [endCodeOf, codesOfLength_eq_count L hl] at hhi
  have hlt : bitrev window 16 / 2 ^ (16 - l) - firstCodeOf L l < L.count l := by omega
  obtain ⟨s, hlen, hcount⟩ := exists_count_take hlt
  refine ⟨s, (codeMatches_iff hfit h15 window s).2 ⟨hlen ▸ hl, ?_⟩⟩
  rw [canonicalCode, hlen, hcount]
  omega

/-- A window that no code begins lies past the codes of every length (R166, R167). -/
theorem maxCodeOf_le_of_no_match {window : Nat} (h : ¬∃ s, CodeMatches L window s) {l : Nat} (hl : l ≤ 15) :
    maxCodeOf L l ≤ bitrev window 16 := by
  induction l with
  | zero => simp [maxCodeOf, endCodeOf_zero]
  | succ l ih =>
    by_contra hlt
    refine h (exists_codeMatches hfit h15 (Nat.succ_ne_zero l) ?_ (Nat.lt_of_not_le hlt))
    rw [firstCodeOf_aligned L (by omega)]
    exact ih (by omega)

/-- The length of the code a window begins with is the first whose codes end after the window (R166). -/
theorem lt_maxCodeOf_iff {window s l : Nat} (h : CodeMatches L window s) (hl : l ≤ 15) :
    bitrev window 16 < maxCodeOf L l ↔ L.getD s 0 ≤ l := by
  obtain ⟨hlo, hhi⟩ := codeMatches_interval hfit h15 h
  refine ⟨fun hlt => ?_, fun hle => hhi.trans_le (maxCodeOf_mono L hle hl)⟩
  by_contra hgt
  obtain ⟨m, hm⟩ := Nat.exists_eq_add_one_of_ne_zero h.2.1
  have hm15 : m + 1 ≤ 15 := hm ▸ getD_le h15 s
  rw [hm, firstCodeOf_aligned L (by omega)] at hlo
  exact absurd (maxCodeOf_mono L (show l ≤ m by omega) (by omega)) (by omega)

/-- No code begins another: a window begins with at most one of them (R151, R169). -/
theorem codeMatches_unique {window s t : Nat} (hs : CodeMatches L window s) (ht : CodeMatches L window t) : s = t := by
  have hlen : L.getD s 0 = L.getD t 0 := Nat.le_antisymm
    ((lt_maxCodeOf_iff hfit h15 hs (getD_le h15 t)).1 (codeMatches_interval hfit h15 ht).2)
    ((lt_maxCodeOf_iff hfit h15 ht (getD_le h15 s)).1 (codeMatches_interval hfit h15 hs).2)
  obtain ⟨hcoded, hcs⟩ := (codeMatches_iff hfit h15 window s).1 hs
  obtain ⟨-, hct⟩ := (codeMatches_iff hfit h15 window t).1 ht
  have hcode : canonicalCode L s = canonicalCode L t := by rw [← hcs, ← hct, hlen]
  rw [canonicalCode, canonicalCode] at hcode
  refine eq_of_count_take_eq hcoded hlen (Nat.add_left_cancel (n := firstCodeOf L (L.getD s 0)) ?_)
  rwa [hlen] at hcode ⊢

end

/-! ### Reading lists -/

theorem getD_map_range {α : Type} (f : Nat → α) {n i : Nat} (hi : i < n) (d : α) :
    ((List.range n).map f).getD i d = f i := by
  rw [List.getD_eq_getElem?_getD, List.getElem?_map, List.getElem?_range hi]
  rfl

theorem getD_set {α : Type} (t : List α) (i j : Nat) (a d : α) :
    (t.set i a).getD j d = if i = j ∧ j < t.length then a else t.getD j d := by
  rw [List.getD_eq_getElem?_getD, List.getElem?_set, List.getD_eq_getElem?_getD]
  by_cases hij : i = j
  · subst hij
    by_cases hi : i < t.length <;> simp [hi]
  · simp [hij]

/-! ### The codes that are assigned -/

/-- Symbol `s` with its length and its canonical code. -/
def codedSymbol (L : List Nat) (s : Nat) : Coded := ⟨s, L.getD s 0, canonicalCode L s⟩

/-- `next_code` when symbol `s` is reached: for each length, the code of the next symbol of that length (R156). -/
structure NextCodes (L : List Nat) (s : Nat) (next : List Nat) : Prop where
  length : next.length = 16
  code : ∀ l, l ≠ 0 → l ≤ 15 → next.getD l 0 = firstCodeOf L l + (L.take s).count l

theorem nextCodes_start (L : List Nat) : NextCodes L 0 (firstCodes L) where
  length := by rw [firstCodes, List.length_map, List.length_range]
  code l _ hl := by
    rw [firstCodes, getD_map_range _ (by omega), List.take_zero, List.count_nil, Nat.add_zero]

theorem count_take_succ (L : List Nat) {s : Nat} (hs : s < L.length) (l : Nat) :
    (L.take (s + 1)).count l = (L.take s).count l + if L.getD s 0 = l then 1 else 0 := by
  rw [List.take_succ_eq_append_getElem hs, List.count_append, List.getD_eq_getElem _ _ hs]
  simp [List.count_singleton]

/-- An uncoded symbol leaves `next_code` as it is. -/
theorem NextCodes.skip {L next : List Nat} {s : Nat} (h : NextCodes L s next) (hs : s < L.length) (h0 : L.getD s 0 = 0) :
    NextCodes L (s + 1) next where
  length := h.length
  code l hl hl15 := by
    rw [h.code l hl hl15, count_take_succ L hs, if_neg fun he => hl (he.symm.trans h0), Nat.add_zero]

/-- A coded symbol takes the next code of its length. -/
theorem NextCodes.advance {L next : List Nat} {s : Nat} (h : NextCodes L s next) (hs : L.getD s 0 ≠ 0) :
    NextCodes L (s + 1) (next.set (L.getD s 0) (next.getD (L.getD s 0) 0 + 1)) where
  length := by rw [List.length_set, h.length]
  code l hl hl15 := by
    have hlt : l < next.length := by rw [h.length]; omega
    rw [count_take_succ L (lt_length_of_coded hs), ← Nat.add_assoc, ← h.code l hl hl15, getD_set]
    by_cases he : L.getD s 0 = l
    · rw [if_pos ⟨he, hlt⟩, if_pos he, he]
    · rw [if_neg fun hc => he hc.1, if_neg he, Nat.add_zero]

/-- Each coded symbol is assigned its canonical code (R156). -/
theorem assign_eq {L next rest : List Nat} {s : Nat} (h15 : ∀ l ∈ L, l ≤ 15) (hrest : L.drop s = rest)
    (h : NextCodes L s next) :
    assign next s rest =
      ((List.range' s rest.length).filter fun i => decide (L.getD i 0 ≠ 0)).map (codedSymbol L) := by
  induction rest generalizing s next with
  | nil => rfl
  | cons l rest ih =>
    have hs : s < L.length := by
      by_contra hge
      rw [List.drop_eq_nil_of_le (Nat.le_of_not_lt hge)] at hrest
      cases hrest
    rw [List.drop_eq_getElem_cons hs, List.cons.injEq] at hrest
    obtain ⟨hl, hrest⟩ := hrest
    rw [← List.getD_eq_getElem _ 0] at hl
    subst hl
    rw [assign, List.length_cons, List.range'_succ, List.filter_cons]
    by_cases h0 : L.getD s 0 = 0
    · rw [if_pos h0, if_neg fun h => absurd h0 (of_decide_eq_true h)]
      exact ih hrest (h.skip hs h0)
    · rw [if_neg h0, if_pos (decide_eq_true h0), List.map_cons, ih hrest (h.advance h0), codedSymbol, canonicalCode,
        h.code _ h0 (getD_le h15 s)]

theorem mem_codedSymbols {L : List Nat} (h15 : ∀ l ∈ L, l ≤ 15) {c : Coded} :
    c ∈ codedSymbols L ↔ ∃ s, L.getD s 0 ≠ 0 ∧ c = codedSymbol L s := by
  rw [codedSymbols, assign_eq h15 List.drop_zero (nextCodes_start L), List.mem_map]
  simp only [List.mem_filter, List.mem_range'_1, decide_eq_true_eq]
  constructor
  · rintro ⟨s, ⟨-, hs⟩, rfl⟩
    exact ⟨s, hs, rfl⟩
  · rintro ⟨s, hs, rfl⟩
    have := lt_length_of_coded hs
    exact ⟨s, ⟨by omega, hs⟩, rfl⟩

/-! ### The entries of the arrays -/

/-- What the write of one member makes true and no write undoes holds after all the writes. -/
theorem foldl_written {α β : Type} {write : β → α → β} {Inv Written : β → Prop} {cs : List α} {c : α} {t : β}
    (hc : c ∈ cs) (ht : Inv t) (hinv : ∀ t c', Inv t → Inv (write t c')) (hwrite : ∀ t, Inv t → Written (write t c))
    (hkeep : ∀ t, ∀ c' ∈ cs, Inv t → Written t → Written (write t c')) : Written (cs.foldl write t) := by
  obtain ⟨before, after, rfl⟩ := List.append_of_mem hc
  have hbefore : Inv (before.foldl write t) := List.foldlRecOn _ _ ht fun t h c' _ => hinv t c' h
  rw [List.foldl_append, List.foldl_cons]
  refine (List.foldlRecOn (motive := fun t => Inv t ∧ Written t) _ _ ⟨hinv _ c hbefore, hwrite _ hbefore⟩ ?_).2
  exact fun t ht c' hc' => ⟨hinv t c' ht.1, hkeep t c' (by simp [hc']) ht.1 ht.2⟩

/-- The index of symbol `s` among the coded symbols, by length and then by number (R155). -/
def symbolIndex (L : List Nat) (s : Nat) : Nat := firstSymbolOf L (L.getD s 0) + (L.take s).count (L.getD s 0)

theorem slowIndex_codedSymbol {L : List Nat} {s : Nat} (h15 : ∀ l ∈ L, l ≤ 15) :
    slowIndex (firstCodes L) (firstSymbols L) (codedSymbol L s) = symbolIndex L s := by
  have hl : L.getD s 0 < 16 := Nat.lt_succ_of_le (getD_le h15 s)
  simp only [slowIndex, codedSymbol, firstCodes, firstSymbols, getD_map_range _ hl, canonicalCode, symbolIndex]
  omega

theorem symbolIndex_lt_next {L : List Nat} {s : Nat} (hs : L.getD s 0 ≠ 0) :
    symbolIndex L s < firstSymbolOf L (L.getD s 0 + 1) := by
  rw [firstSymbolOf_succ, codesOfLength_eq_count L hs]
  exact Nat.add_lt_add_left (count_take_lt hs) _

theorem symbolIndex_lt_length {L : List Nat} {s : Nat} (hs : L.getD s 0 ≠ 0) : symbolIndex L s < L.length :=
  (symbolIndex_lt_next hs).trans_le (firstSymbolOf_le_length L _)

theorem symbolIndex_lt_of_shorter {L : List Nat} {s t : Nat} (hs : L.getD s 0 ≠ 0) (hlt : L.getD s 0 < L.getD t 0) :
    symbolIndex L s < symbolIndex L t :=
  calc symbolIndex L s < firstSymbolOf L (L.getD s 0 + 1) := symbolIndex_lt_next hs
    _ ≤ firstSymbolOf L (L.getD t 0) := firstSymbolOf_mono L hlt
    _ ≤ symbolIndex L t := Nat.le_add_right ..

/-- No two coded symbols share an index. -/
theorem symbolIndex_inj {L : List Nat} {s t : Nat} (hs : L.getD s 0 ≠ 0) (ht : L.getD t 0 ≠ 0)
    (h : symbolIndex L s = symbolIndex L t) : s = t := by
  obtain hlt | hlen | hgt := Nat.lt_trichotomy (L.getD s 0) (L.getD t 0)
  · exact absurd h (symbolIndex_lt_of_shorter hs hlt).ne
  · refine eq_of_count_take_eq hs hlen (Nat.add_left_cancel (n := firstSymbolOf L (L.getD s 0)) ?_)
    rw [symbolIndex, symbolIndex] at h
    rwa [hlen] at h ⊢
  · exact absurd h (symbolIndex_lt_of_shorter ht hgt).ne'

/-- A slow-path array holds the value of each coded symbol at its index. -/
theorem slowArray_getD {α : Type} {cap : Nat} {L : List Nat} (hcap : L.length ≤ cap) (h15 : ∀ l ∈ L, l ≤ 15) (zero : α)
    (v : Coded → α) {s : Nat} (hs : L.getD s 0 ≠ 0) :
    (slowArray cap L zero v).getD (symbolIndex L s) zero = v (codedSymbol L s) := by
  have hlt := (symbolIndex_lt_length hs).trans_le hcap
  have hmem := (mem_codedSymbols h15).2 ⟨s, hs, rfl⟩
  refine foldl_written (Inv := fun t : List α => t.length = cap)
    (Written := fun t : List α => t.getD (symbolIndex L s) zero = v (codedSymbol L s)) hmem List.length_replicate
    (fun t c ht => List.length_set.trans ht) (fun t ht => ?_) (fun t c hc ht hw => ?_)
  · rw [getD_set, slowIndex_codedSymbol h15, if_pos ⟨rfl, by omega⟩]
  · obtain ⟨s', hs', rfl⟩ := (mem_codedSymbols h15).1 hc
    rw [getD_set, slowIndex_codedSymbol h15]
    split_ifs with hsame
    · rw [symbolIndex_inj hs' hs hsame.1]
    · exact hw

@[simp] theorem length_fillSlots (rev l : Nat) (entry : BitVec 16) (j : Nat) (fast : List (BitVec 16)) :
    (fillSlots rev l entry j fast).length = fast.length := by
  induction fast generalizing j with
  | nil => rfl
  | cons e fast ih => simp only [fillSlots, List.length_cons, ih]

theorem fillSlots_getD (rev l : Nat) (entry : BitVec 16) (j : Nat) (fast : List (BitVec 16)) (i : Nat) :
    (fillSlots rev l entry j fast).getD i 0 =
      if i < fast.length ∧ (j + i) % 2 ^ l = rev then entry else fast.getD i 0 := by
  induction fast generalizing i j with
  | nil => simp [fillSlots]
  | cons e fast ih =>
    cases i with
    | zero => simp [fillSlots]
    | succ i =>
      rw [fillSlots, List.getD_cons_succ, List.getD_cons_succ, ih, List.length_cons, Nat.add_right_comm j 1 i]
      simp only [Nat.add_lt_add_iff_right, Nat.add_assoc]

/-- The coded symbol has an entry in slot `j` (R158). -/
def Coded.FillsSlot (c : Coded) (j : Nat) : Prop := c.len ≤ 9 ∧ j % 2 ^ c.len = bitrev c.code c.len

/-- The entry of a coded symbol in the fast table (R158). -/
def Coded.entry (c : Coded) : BitVec 16 := BitVec.ofNat 16 (c.len * 512 + c.sym)

theorem length_fillFast (fast : List (BitVec 16)) (c : Coded) : (fillFast fast c).length = fast.length := by
  rw [fillFast]
  split_ifs
  · exact length_fillSlots ..
  · rfl

theorem fillFast_getD_of_fills {fast : List (BitVec 16)} {c : Coded} {j : Nat} (h : c.FillsSlot j) (hj : j < fast.length) :
    (fillFast fast c).getD j 0 = c.entry := by
  rw [fillFast, if_pos h.1, fillSlots_getD, Nat.zero_add, if_pos ⟨hj, h.2⟩, Coded.entry]

theorem fillFast_getD_of_not_fills {fast : List (BitVec 16)} {c : Coded} {j : Nat} (h : ¬c.FillsSlot j) :
    (fillFast fast c).getD j 0 = fast.getD j 0 := by
  rw [fillFast]
  split_ifs with h9
  · rw [fillSlots_getD, Nat.zero_add, if_neg fun hc => h ⟨h9, hc.2⟩]
  · rfl

theorem fillsSlot_codedSymbol {L : List Nat} {s j : Nat} (hs : L.getD s 0 ≠ 0) :
    (codedSymbol L s).FillsSlot j ↔ L.getD s 0 ≤ 9 ∧ CodeMatches L j s :=
  and_congr_right' ⟨fun h => ⟨lt_length_of_coded hs, hs, h⟩, fun h => h.2.2⟩

section
variable {L : List Nat} (hfit : CodesFit L) (h15 : ∀ l ∈ L, l ≤ 15)
include h15

/-- The slots no short code begins stay empty (R158). -/
theorem fast_empty (cap : Nat) {j : Nat} (h : ∀ s, CodeMatches L j s → 9 < L.getD s 0) :
    (builtTable cap L).fast.getD j 0 = 0 := by
  refine List.foldlRecOn (motive := fun fast : List (BitVec 16) => fast.getD j 0 = 0) _ _ ?_ fun fast hempty c hc => ?_
  · rw [List.getD_eq_getElem?_getD]
    exact List.getElem?_getD_replicate_default_eq ..
  · obtain ⟨s, hs, rfl⟩ := (mem_codedSymbols h15).1 hc
    rw [fillFast_getD_of_not_fills, hempty]
    rw [fillsSlot_codedSymbol hs]
    exact fun hc => absurd (h s hc.2) (Nat.not_lt.2 hc.1)

include hfit

/-- The slots a short code begins hold its length and its symbol; no other code begins them (R158). -/
theorem fast_filled (cap : Nat) {j s : Nat} (hj : j < 512) (h : CodeMatches L j s) (h9 : L.getD s 0 ≤ 9) :
    (builtTable cap L).fast.getD j 0 = BitVec.ofNat 16 (L.getD s 0 * 512 + s) := by
  have hs := h.2.1
  have hmem := (mem_codedSymbols h15).2 ⟨s, hs, rfl⟩
  refine foldl_written (Inv := fun t : List (BitVec 16) => t.length = 512)
    (Written := fun t : List (BitVec 16) => t.getD j 0 = (codedSymbol L s).entry) hmem List.length_replicate
    (fun t c ht => (length_fillFast t c).trans ht) (fun t ht => ?_) (fun t c hc ht hw => ?_)
  · exact fillFast_getD_of_fills ((fillsSlot_codedSymbol hs).2 ⟨h9, h⟩) (by omega)
  · obtain ⟨s', hs', rfl⟩ := (mem_codedSymbols h15).1 hc
    by_cases hfills : (codedSymbol L s').FillsSlot j
    · rw [codeMatches_unique hfit h15 h ((fillsSlot_codedSymbol hs').1 hfills).2]
      exact fillFast_getD_of_fills hfills (by omega)
    · rw [fillFast_getD_of_not_fills hfills, hw]

end

/-! ### The two-tier lookup -/

/-- The search of R166 ends at the first length whose `max_code` exceeds `k`. -/
theorem slowLength_eq {T : HuffTable} {k fuel start l : Nat} (hstart : start ≤ l) (hend : l ≤ start + fuel)
    (hbelow : ∀ m, m < l → (T.maxCode.getD m 0).toNat ≤ k) (hl : k < (T.maxCode.getD l 0).toNat) :
    slowLength T k fuel start = l := by
  induction fuel generalizing start with
  | zero => exact Nat.le_antisymm hstart hend
  | succ fuel ih =>
    rw [slowLength]
    obtain rfl | hlt := Nat.eq_or_lt_of_le hstart
    · exact if_neg (Nat.not_le.2 hl)
    · rw [if_pos (hbelow start hlt)]
      exact ih hlt (by omega)

theorem builtTable_firstCode {L : List Nat} (hfit : CodesFit L) (cap : Nat) {l : Nat} (hl : l ≤ 15) :
    ((builtTable cap L).firstCode.getD l 0).toNat = firstCodeOf L l := by
  have hle : firstCodeOf L l ≤ 2 ^ 15 :=
    calc firstCodeOf L l ≤ endCodeOf L l := Nat.le_add_right ..
      _ ≤ 2 ^ l := hfit l hl
      _ ≤ 2 ^ 15 := Nat.pow_le_pow_right two_pos hl
  rw [builtTable, firstCodes, List.map_map, getD_map_range _ (by omega)]
  exact Nat.mod_eq_of_lt (by omega)

theorem builtTable_firstSymbol {L : List Nat} (hlen : L.length < 512) (cap : Nat) {l : Nat} (hl : l ≤ 15) :
    ((builtTable cap L).firstSymbol.getD l 0).toNat = firstSymbolOf L l := by
  rw [builtTable, firstSymbols, List.map_map, getD_map_range _ (by omega)]
  exact Nat.mod_eq_of_lt ((firstSymbolOf_le_length L l).trans_lt hlen)

theorem builtTable_maxCode {L : List Nat} (hfit : CodesFit L) (cap : Nat) {l : Nat} (hl : l ≤ 15) :
    ((builtTable cap L).maxCode.getD l 0).toNat = maxCodeOf L l := by
  have hlt : l < (((List.range 16).map (maxCodeOf L)).map (BitVec.ofNat 17)).length := by
    rw [List.length_map, List.length_map, List.length_range]
    omega
  rw [builtTable, List.map_append, List.getD_append _ _ _ _ hlt, List.map_map, getD_map_range _ (by omega)]
  exact Nat.mod_eq_of_lt (Nat.lt_of_le_of_lt (maxCodeOf_le hfit hl) (by decide))

theorem builtTable_maxCode_sentinel (cap : Nat) (L : List Nat) : ((builtTable cap L).maxCode.getD 16 0).toNat = 65536 := rfl

/-- A window shows its code of at most 9 bits to the fast table (R165). -/
theorem codeMatches_slot {L : List Nat} (window : Nat) {s : Nat} (h9 : L.getD s 0 ≤ 9) :
    CodeMatches L (window % 512) s ↔ CodeMatches L window s := by
  rw [CodeMatches, CodeMatches, Nat.mod_mod_of_dvd _ (Nat.pow_dvd_pow 2 h9 : 2 ^ L.getD s 0 ∣ 512)]

/-- Without a short code the slow path is taken (R165). -/
theorem lookup_eq_slow {L : List Nat} (h15 : ∀ l ∈ L, l ≤ 15) (cap : Nat) {window : Nat}
    (h : ∀ s, CodeMatches L window s → 9 < L.getD s 0) :
    lookup (builtTable cap L) window = slow (builtTable cap L) window := by
  have hempty : (builtTable cap L).fast.getD (window % 512) 0 = 0 := fast_empty h15 cap fun s hs => by
    by_contra h9
    exact h9 (h s ((codeMatches_slot window (by omega)).1 hs))
  rw [lookup, hempty]
  rfl

section
variable {L : List Nat} (hfit : CodesFit L) (h15 : ∀ l ∈ L, l ≤ 15) (cap : Nat)
include hfit h15

/-- A code of at most 9 bits is found in the fast table. -/
theorem lookup_of_short {window s : Nat} (hlen : L.length < 512) (hw : window < 65536) (h : CodeMatches L window s)
    (h9 : L.getD s 0 ≤ 9) : lookup (builtTable cap L) window = .ok (L.getD s 0, s) := by
  obtain ⟨hs, h0, hcode⟩ := h
  refine hasCode_of_fast (Nat.pos_of_ne_zero h0) h9 (hs.trans hlen) (fun j hj hm => ?_) window hw hcode
  rw [fast_filled hfit h15 cap hj ⟨hs, h0, hm⟩ h9]
  exact Nat.mod_eq_of_lt (by omega)

/-- A code of more than 9 bits is found in the slow path (R166). -/
theorem slow_of_match {window s : Nat} (hcap : L.length ≤ cap) (hlen : L.length < 512) (h : CodeMatches L window s)
    (h9 : 9 < L.getD s 0) : slow (builtTable cap L) window = .ok (L.getD s 0, s) := by
  have hl := getD_le h15 s
  obtain ⟨hs, hcode⟩ := (codeMatches_iff hfit h15 window s).1 h
  have hlength : slowLength (builtTable cap L) (bitrev window 16) 6 10 = L.getD s 0 := by
    refine slowLength_eq h9 (by omega) (fun m hm => ?_) ?_
    · rw [builtTable_maxCode hfit cap (by omega)]
      exact Nat.le_of_not_lt fun hlt => Nat.not_le.2 hm ((lt_maxCodeOf_iff hfit h15 h (by omega)).1 hlt)
    · rw [builtTable_maxCode hfit cap hl]
      exact (lt_maxCodeOf_iff hfit h15 h hl).2 le_rfl
  have hindex : canonicalCode L s - firstCodeOf L (L.getD s 0) + firstSymbolOf L (L.getD s 0) = symbolIndex L s := by
    rw [canonicalCode, symbolIndex]
    omega
  have hsym : ((builtTable cap L).symbols.getD (symbolIndex L s) 0).toNat = s := by
    rw [builtTable, slowArray_getD hcap h15 _ _ hs]
    exact Nat.mod_eq_of_lt (h.1.trans hlen)
  simp only [slow, hlength, if_neg (show L.getD s 0 ≠ 16 by omega), hcode, builtTable_firstCode hfit cap hl,
    builtTable_firstSymbol hlen cap hl, hindex, hsym]

/-- A window that no code begins runs to the sentinel (R167). -/
theorem slow_of_no_match {window : Nat} (h : ¬∃ s, CodeMatches L window s) :
    slow (builtTable cap L) window = .error .invalidHuffmanTree := by
  have hlength : slowLength (builtTable cap L) (bitrev window 16) 6 10 = 16 := by
    refine slowLength_eq (by decide) (by decide) (fun m hm => ?_) ?_
    · rw [builtTable_maxCode hfit cap (by omega)]
      exact maxCodeOf_le_of_no_match hfit h15 h (by omega)
    · rw [builtTable_maxCode_sentinel]
      exact bitrev_lt window 16
  rw [slow, hlength]
  rfl

end

/-- Settles O13: a short code fills its slots of the fast table; the other windows are searched by the intervals into which the
lengths cut the code space. -/
theorem lookupIsCanonical : Obligations.LookupIsCanonical := by
  unfold Obligations.LookupIsCanonical
  intro cap L T hcap h288 h15 hb window hw
  obtain ⟨hfit, rfl⟩ := built_iff.1 hb
  have hlen : L.length < 512 := by omega
  refine ⟨fun s h => ?_, fun s t => codeMatches_unique hfit h15, fun h => ?_⟩
  · obtain h9 | h9 := Nat.lt_or_ge 9 (L.getD s 0)
    · have hlong : ∀ t, CodeMatches L window t → 9 < L.getD t 0 := fun t ht => codeMatches_unique hfit h15 h ht ▸ h9
      rw [lookup_eq_slow h15 cap hlong, slow_of_match hfit h15 cap hcap hlen h h9]
    · exact lookup_of_short hfit h15 cap hlen hw h h9
  · rw [lookup_eq_slow h15 cap fun s hs => absurd ⟨s, hs⟩ h, slow_of_no_match hfit h15 cap h]

/-! ### Decoding a symbol -/

/-- No built table has a code longer than 15 bits (R155). -/
theorem lookup_length_le {cap : Nat} {T : HuffTable} (hcap : cap ≤ 288) (hT : BuiltFrom cap T) {window l sym : Nat}
    (hw : window < 65536) (h : lookup T window = .ok (l, sym)) : l ≤ 15 := by
  obtain ⟨L, hL, h15, hb⟩ := hT
  obtain ⟨hmatch, -, hnone⟩ := lookupIsCanonical cap L T hL hcap h15 hb window hw
  by_cases hex : ∃ s, CodeMatches L window s
  · obtain ⟨s, hs⟩ := hex
    rw [hmatch s hs] at h
    cases h
    exact getD_le h15 _
  · rw [hnone hex] at h
    cases h

/-- In the state in which `decode` looks a code up, `acc` holds all of it exactly when the stream does (R168). -/
theorem le_fillToThreshold_cnt_iff {s : State} (h : s.BitReaderOk) {l : Nat} (hl : l ≤ 16) :
    l ≤ (fillToThreshold s).inf.cnt ↔ l ≤ s.bitsLeft := by
  have hm := fillToThreshold_moved h
  rw [← hm.bitsLeft]
  refine ⟨fun hle => hle.trans (cnt_le_bitsLeft hm.2.1), fun hle => ?_⟩
  obtain hfull | hend := fillToThreshold_full h
  · exact hl.trans hfull
  · rwa [bitsLeft_of_exhausted hm.2.1 (by rw [hend, hm.inLen])] at hle

/-- Settles O14: the window of `decodeWindow` is looked up, and the code's bits are in `acc` if the stream has them. -/
theorem decodeSymbol : Obligations.DecodeSymbol := by
  unfold Obligations.DecodeSymbol
  intro cap T s hcap hT h
  obtain ⟨hm, -, -, hwindow⟩ := decodeWindow s h
  rw [← hwindow]
  refine ⟨fun f hf => by rw [decodeSym, hf], fun l sym hl => ?_⟩
  have hiff := le_fillToThreshold_cnt_iff h (Nat.le_succ_of_le (lookup_length_le hcap hT (Nat.mod_lt _ (by decide)) hl))
  refine ⟨fun hshort => ?_, fun hle => ?_⟩
  · rw [decodeSym, hl]
    exact if_pos (by omega)
  · have hcnt := hiff.2 hle
    refine ⟨dropBits l (fillToThreshold s), ?_, by simpa using hm.trans (dropBits_moved hm.2.1 hcnt)⟩
    rw [decodeSym, hl]
    exact if_neg (Nat.not_lt.2 hcnt)

/-! ### The fixed tables -/

/-- The `n` symbols from `start` on have length `l`, and consecutive codes and indexes. -/
def CodeRun (L : List Nat) (start n l code index : Nat) : Prop :=
  ∀ i < n, L.getD (start + i) 0 = l ∧ canonicalCode L (start + i) = code + i ∧ symbolIndex L (start + i) = index + i

/-- Equal lengths in a row are a run, which continues the codes of their length (R151, R155). -/
theorem codeRun_replicate {L before after : List Nat} {start n l code index : Nat}
    (hL : L = before ++ (List.replicate n l ++ after)) (hstart : before.length = start)
    (hcode : firstCodeOf L l + before.count l = code) (hindex : firstSymbolOf L l + before.count l = index) :
    CodeRun L start n l code index := by
  subst hstart hcode hindex
  intro i hi
  have hlen : L.getD (before.length + i) 0 = l := by
    rw [hL, List.getD_append_right _ _ _ _ (Nat.le_add_right ..), Nat.add_sub_cancel_left,
      List.getD_append _ _ _ _ (by rwa [List.length_replicate]), List.getD_replicate _ hi]
  have htake : L.take (before.length + i) = before ++ List.replicate i l := by
    rw [hL, List.take_length_add_append, List.take_append_of_le_length (by rw [List.length_replicate]; omega),
      List.take_replicate, min_eq_left hi.le]
  have hcount : (L.take (before.length + i)).count l = before.count l + i := by
    rw [htake, List.count_append, List.count_replicate_self]
  rw [canonicalCode, symbolIndex, hlen, hcount]
  exact ⟨rfl, (Nat.add_assoc ..).symm, (Nat.add_assoc ..).symm⟩

theorem CodeRun.map_symbolIndex {L : List Nat} {start n l code index : Nat} (h : CodeRun L start n l code index) :
    (List.range' start n).map (symbolIndex L) = List.range' index n := by
  rw [List.range'_eq_map_range, List.range'_eq_map_range, List.map_map]
  exact List.map_congr_left fun i hi => (h i (List.mem_range.1 hi)).2.2

theorem CodeRun.map_length {L : List Nat} {start n l code index : Nat} (h : CodeRun L start n l code index) :
    (List.range' start n).map (fun s => BitVec.ofNat 4 (L.getD s 0)) = List.replicate n (BitVec.ofNat 4 l) := by
  rw [List.range'_eq_map_range, List.map_map, List.eq_replicate_iff]
  refine ⟨by rw [List.length_map, List.length_range], fun b hb => ?_⟩
  obtain ⟨i, hi, rfl⟩ := List.mem_map.1 hb
  exact congrArg _ (h i (List.mem_range.1 hi)).1

/-- A slot that begins with a code of the run holds the symbol of that code (R158). -/
theorem CodeRun.fast {L : List Nat} {start n l code index : Nat} (h : CodeRun L start n l code index) (hfit : CodesFit L)
    (h15 : ∀ l ∈ L, l ≤ 15) (cap : Nat) (hl : l ≠ 0) (h9 : l ≤ 9) {j i : Nat} (hj : j < 512) (hi : i < n)
    (hslot : bitrev (j % 2 ^ l) l = code + i) :
    (builtTable cap L).fast.getD j 0 = BitVec.ofNat 16 (l * 512 + (start + i)) := by
  obtain ⟨hlen, hcode, -⟩ := h i hi
  have hs : L.getD (start + i) 0 ≠ 0 := by rwa [hlen]
  have hmatch : CodeMatches L j (start + i) := by
    refine ⟨lt_length_of_coded hs, hs, ?_⟩
    rw [hcode, hlen, ← hslot, bitrev_bitrev (Nat.mod_lt _ (Nat.two_pow_pos _))]
  rw [fast_filled hfit h15 cap hj hmatch (by rwa [hlen]), hlen]

theorem length_slowArray {α : Type} (cap : Nat) (L : List Nat) (zero : α) (v : Coded → α) :
    (slowArray cap L zero v).length = cap :=
  List.foldlRecOn (motive := fun t : List α => t.length = cap) _ _ List.length_replicate
    fun _ ht _ _ => List.length_set.trans ht

/-- A slow-path array lists the symbols in the order of their indexes (R155). -/
theorem slowArray_eq_map {α : Type} {cap : Nat} {L order : List Nat} (hcap : L.length ≤ cap) (h15 : ∀ l ∈ L, l ≤ 15)
    (zero : α) (v : Coded → α) (hcoded : ∀ s ∈ order, L.getD s 0 ≠ 0)
    (horder : order.map (symbolIndex L) = List.range cap) :
    slowArray cap L zero v = order.map fun s => v (codedSymbol L s) := by
  have hlen : order.length = cap := by rw [← List.length_map (symbolIndex L), horder, List.length_range]
  refine List.ext_getElem (by rw [length_slowArray, List.length_map, hlen]) fun k hk hk' => ?_
  have hk'' : k < order.length := by rwa [List.length_map] at hk'
  have hindex : symbolIndex L order[k] = k := by
    rw [← List.getElem_map (symbolIndex L) (h := by rwa [List.length_map])]
    simp only [horder, List.getElem_range]
  rw [List.getElem_map, ← slowArray_getD hcap h15 zero v (hcoded order[k] (List.getElem_mem _)), hindex,
    List.getD_eq_getElem _ _ hk]

theorem length_fast (cap : Nat) (L : List Nat) : (builtTable cap L).fast.length = 512 :=
  List.foldlRecOn (motive := fun t : List (BitVec 16) => t.length = 512) _ _ List.length_replicate
    fun t ht c _ => (length_fillFast t c).trans ht

theorem fast_eq_map {cap : Nat} {L : List Nat} {f : Nat → BitVec 16}
    (h : ∀ j < 512, (builtTable cap L).fast.getD j 0 = f j) : (builtTable cap L).fast = (List.range 512).map f := by
  have hlen := length_fast cap L
  refine List.ext_getElem (by rw [hlen, List.length_map, List.length_range]) fun j hj _ => ?_
  rw [List.getElem_map, List.getElem_range, ← h j (hlen ▸ hj), List.getD_eq_getElem _ _ hj]

/-- A built table is known from its runs: the short codes, the bookkeeping, and the symbols in the order of their indexes. -/
theorem builtTable_eq {cap : Nat} {L order : List Nat} {T : HuffTable} (hcap : L.length ≤ cap) (h15 : ∀ l ∈ L, l ≤ 15)
    (hcoded : ∀ s ∈ order, L.getD s 0 ≠ 0) (horder : order.map (symbolIndex L) = List.range cap)
    (hfast : (builtTable cap L).fast = T.fast) (hcodes : (firstCodes L).map (BitVec.ofNat 16) = T.firstCode)
    (hsymbols : (firstSymbols L).map (BitVec.ofNat 9) = T.firstSymbol)
    (hmax : ((List.range 16).map (maxCodeOf L) ++ [65536]).map (BitVec.ofNat 17) = T.maxCode)
    (hlengths : order.map (fun s => BitVec.ofNat 4 (L.getD s 0)) = T.lengths)
    (hnumbers : order.map (BitVec.ofNat 9) = T.symbols) : builtTable cap L = T := by
  have harray {α : Type} (zero : α) (v : Coded → α) := slowArray_eq_map hcap h15 zero v hcoded horder
  cases T
  subst hfast hcodes hsymbols hmax hlengths hnumbers
  rw [builtTable, harray, harray]
  rfl

/-- The fixed distance code is one run (R171). -/
theorem codeRun_fixedD : CodeRun (List.replicate 32 5) 0 32 5 0 0 :=
  codeRun_replicate (before := []) (after := []) (by decide) rfl (by decide) (by decide)

theorem codesFit_fixedD : CodesFit (List.replicate 32 5) := (codesFit_iff_last _).2 (by decide)

theorem builtTable_fixedD : builtTable Config.nD (List.replicate 32 5) = fixD := by
  have h15 : ∀ l ∈ List.replicate 32 5, l ≤ 15 := by decide
  have horder : (List.range' 0 32).map (symbolIndex (List.replicate 32 5)) = List.range Config.nD :=
    codeRun_fixedD.map_symbolIndex
  have hfast : (builtTable Config.nD (List.replicate 32 5)).fast = fixD.fast := by
    simp only [fixD]
    refine fast_eq_map fun j hj => ?_
    rw [codeRun_fixedD.fast codesFit_fixedD h15 Config.nD (by decide) (by decide) hj (bitrev_lt (j % 32) 5)
      (Nat.zero_add _).symm, Nat.zero_add]
  exact builtTable_eq (by decide) h15 (by decide) horder hfast (by decide) (by decide) (by decide)
    codeRun_fixedD.map_length rfl

theorem codesFit_fixedLL : CodesFit fixedLLLengths := (codesFit_iff_last _).2 (by decide +kernel)

theorem fixedLL_le_15 : ∀ l ∈ fixedLLLengths, l ≤ 15 := by decide +kernel

/-- The fixed literal/length code is four runs (R170). -/
theorem codeRuns_fixedLL :
    CodeRun fixedLLLengths 0 144 8 48 24 ∧ CodeRun fixedLLLengths 144 112 9 400 176 ∧
      CodeRun fixedLLLengths 256 24 7 0 0 ∧ CodeRun fixedLLLengths 280 8 8 192 168 := by
  refine ⟨?_, ?_, ?_, ?_⟩
  · exact codeRun_replicate (before := []) (after := List.replicate 112 9 ++ List.replicate 24 7 ++ List.replicate 8 8)
      (by decide +kernel) rfl (by decide +kernel) (by decide +kernel)
  · exact codeRun_replicate (before := List.replicate 144 8) (after := List.replicate 24 7 ++ List.replicate 8 8)
      (by decide +kernel) rfl (by decide +kernel) (by decide +kernel)
  · exact codeRun_replicate (before := List.replicate 144 8 ++ List.replicate 112 9) (after := List.replicate 8 8)
      (by decide +kernel) (by decide +kernel) (by decide +kernel) (by decide +kernel)
  · exact codeRun_replicate (before := List.replicate 144 8 ++ List.replicate 112 9 ++ List.replicate 24 7) (after := [])
      (by decide +kernel) (by decide +kernel) (by decide +kernel) (by decide +kernel)

/-- The closed form of FIX_LL holds the entries of the four runs (R107, R158). -/
theorem fast_fixedLL {j : Nat} (hj : j < 512) :
    (builtTable Config.nLL fixedLLLengths).fast.getD j 0 = BitVec.ofNat 16 (fixLLEntry (bitrev j 9)) := by
  obtain ⟨run0, run144, run256, run280⟩ := codeRuns_fixedLL
  have h7 : bitrev j 9 / 4 = bitrev (j % 2 ^ 7) 7 := bitrev_div j 7 2
  have h8 : bitrev j 9 / 2 = bitrev (j % 2 ^ 8) 8 := bitrev_div j 8 1
  have h9 : bitrev j 9 / 1 = bitrev (j % 2 ^ 9) 9 := bitrev_div j 9 0
  have hlt := bitrev_lt j 9
  rw [fixLLEntry]
  split_ifs with h256 h0 h280
  · exact run256.fast codesFit_fixedLL fixedLL_le_15 Config.nLL (by decide) (by decide) hj h256 (by omega)
  · rw [run0.fast codesFit_fixedLL fixedLL_le_15 Config.nLL (by decide) (by decide) hj
      (show bitrev j 9 / 2 - 48 < 144 by omega) (by omega), Nat.zero_add]
  · exact run280.fast codesFit_fixedLL fixedLL_le_15 Config.nLL (by decide) (by decide) hj
      (show bitrev j 9 / 2 - 192 < 8 by omega) (by omega)
  · exact run144.fast codesFit_fixedLL fixedLL_le_15 Config.nLL (by decide) (by decide) hj
      (show bitrev j 9 - 400 < 112 by omega) (by omega)

/-- The symbols of FIX_LL in the order of their indexes (R170). -/
def fixedLLOrder : List Nat := List.range' 256 24 ++ List.range' 0 144 ++ List.range' 280 8 ++ List.range' 144 112

theorem builtTable_fixedLL : builtTable Config.nLL fixedLLLengths = fixLL := by
  obtain ⟨run0, run144, run256, run280⟩ := codeRuns_fixedLL
  have horder : fixedLLOrder.map (symbolIndex fixedLLLengths) = List.range Config.nLL := by
    simp only [fixedLLOrder, List.map_append, run0.map_symbolIndex, run144.map_symbolIndex, run256.map_symbolIndex,
      run280.map_symbolIndex]
    decide +kernel
  have hlengths : fixedLLOrder.map (fun s => BitVec.ofNat 4 (fixedLLLengths.getD s 0)) = fixLL.lengths := by
    simp only [fixedLLOrder, List.map_append, run0.map_length, run144.map_length, run256.map_length, run280.map_length]
    decide +kernel
  have hfast : (builtTable Config.nLL fixedLLLengths).fast = fixLL.fast :=
    (fast_eq_map fun j hj => fast_fixedLL hj).trans fixLL_fast.symm
  exact builtTable_eq (by decide +kernel) fixedLL_le_15 (by decide +kernel) horder hfast (by decide +kernel)
    (by decide +kernel) (by decide +kernel) hlengths (by decide +kernel)

/-- Settles O12: both codes are runs of equal lengths, and the ROM tables list the codes of the runs. -/
theorem fixedTables : Obligations.FixedTables := by
  unfold Obligations.FixedTables
  exact ⟨built_iff.2 ⟨codesFit_fixedLL, builtTable_fixedLL.symm⟩, built_iff.2 ⟨codesFit_fixedD, builtTable_fixedD.symm⟩⟩

end Sys2Proof.Machine

/-! PROOFS for the family 42_blocks: the zlib header (O15), the block header (O16), the stored block (O17), the fixed part of a
dynamic header (O18), the code-length tokens (O19), units at rest, in contention and refused (O43). -/

namespace Sys2Proof.Machine

/-! ### Reads that take a known number of bits -/

/-- Reading takes `k` bits from `s` on: it gives `v` past them where the stream has them, and raises InsufficientData where it
has not (R134, R138). -/
def Yields {α : Type} (k : Nat) (r : Read α) (v : α) (s : State) : Prop :=
  (s.bitsLeft < k → r = .error .insufficientData) ∧ (k ≤ s.bitsLeft → ∃ t, r = .ok (v, t) ∧ ReaderMoved k s t)

theorem ReaderMoved.bitsLeft_eq {k : Nat} {s t : State} (h : ReaderMoved k s t) : t.bitsLeft = s.bitsLeft - k := by
  rw [State.bitsLeft, h.inLen, h.2.2, Nat.sub_add_eq, State.bitsLeft]

theorem ReaderMoved.read_inn {k : Nat} {s t : State} (h : ReaderMoved k s t) (a : Nat) : t.read .inn a = s.read .inn a :=
  State.read_inn_congr (by rw [h.1]) (by rw [h.1]) a

/-- One read after another, where the whole fails as its first part does and goes on from where that ends. -/
theorem Yields.andThen {α β : Type} {j k : Nat} {r : Read α} {q : Read β} {v : α} {w : β} {s : State}
    (h : Yields j r v s) (fails : r = .error .insufficientData → q = .error .insufficientData)
    (goesOn : ∀ t, r = .ok (v, t) → ReaderMoved j s t → Yields k q w t) : Yields (j + k) q w s := by
  obtain ⟨hshort, hlong⟩ := h
  rcases Nat.lt_or_ge s.bitsLeft j with hj | hj
  · exact ⟨fun _ => fails (hshort hj), fun hk => absurd hk (by omega)⟩
  · obtain ⟨t, ht, hst⟩ := hlong hj
    obtain ⟨kshort, klong⟩ := goesOn t ht hst
    rw [hst.bitsLeft_eq] at kshort klong
    refine ⟨fun hl => kshort (by omega), fun hl => ?_⟩
    obtain ⟨u, hu, htu⟩ := klong (by omega)
    exact ⟨u, hu, hst.trans htu⟩

/-- The same read, its value worked on. -/
theorem Yields.map {α β : Type} {k : Nat} {r : Read α} {q : Read β} {v : α} {w : β} {s : State} (h : Yields k r v s)
    (fails : r = .error .insufficientData → q = .error .insufficientData)
    (gives : ∀ t, r = .ok (v, t) → q = .ok (w, t)) : Yields k q w s := by
  obtain ⟨hshort, hlong⟩ := h
  refine ⟨fun hl => fails (hshort hl), fun hl => ?_⟩
  obtain ⟨t, ht, hm⟩ := hlong hl
  exact ⟨t, gives t ht, hm⟩

theorem consume_yields {n : Nat} {s : State} (hn : n ≤ 24) (h : s.BitReaderOk) :
    Yields n (consume n s) (s.streamField s.bitpos n) s := by
  obtain ⟨hshort, hlong, -⟩ := consume_correct n s hn h
  refine ⟨hshort, fun hl => ?_⟩
  obtain ⟨t, ht, hm, -⟩ := hlong hl
  exact ⟨t, ht, hm⟩

/-- A field after another one, of which `j` bits have been consumed, is the field `j` bits further on. -/
theorem consume_yields_after {j n : Nat} {s t : State} (hn : n ≤ 24) (h : ReaderMoved j s t) :
    Yields n (consume n t) (s.streamField (s.bitpos + j) n) t := by
  rw [← h.streamField, ← h.2.2]
  exact consume_yields hn h.2.1

theorem consumeTwo_yields {m n : Nat} {s : State} (hm : m ≤ 24) (hn : n ≤ 24) (h : s.BitReaderOk) :
    Yields (m + n) (consumeTwo m n s) (s.streamField s.bitpos m, s.streamField (s.bitpos + m) n) s := by
  refine (consume_yields hm h).andThen (fun he => by simp only [consumeTwo, he]) fun t ht hst => ?_
  exact (consume_yields_after hn hst).map (fun he => by simp only [consumeTwo, ht, he])
    fun u hu => by simp only [consumeTwo, ht, hu]

/-- A fetch that takes `k` bits: InsufficientData, or the instruction its word decodes to. -/
theorem fetchInf_of_yields {f : Format} {k w x : Nat} {i : Instr} {s : State} (hf : s.infFormat = f)
    (h : Yields k (fetchWord f s) (w, x) s) (hi : decode f w x = .ok i) :
    (s.bitsLeft < k → fetchInf s = .raise .insufficientData) ∧
      (k ≤ s.bitsLeft → ∃ t, ReaderMoved k s t ∧ fetchInf s = .instr i t) := by
  obtain ⟨hshort, hlong⟩ := h
  refine ⟨fun hl => ?_, fun hl => ?_⟩
  · simp only [fetchInf, hf, hshort hl]
  · obtain ⟨t, ht, hm⟩ := hlong hl
    exact ⟨t, hm, by simp only [fetchInf, hf, ht, hi]⟩

/-! ### The zlib header -/

theorem fetchZhdr_yields {s : State} (h : s.BitReaderOk) :
    Yields 16 (fetchWord .zhdr s) (s.streamField s.bitpos 8 + 256 * s.streamField (s.bitpos + 8) 8, 0) s :=
  (consumeTwo_yields (m := 8) (n := 8) (by decide) (by decide) h).map (fun he => by simp only [fetchWord, he])
    fun t ht => by simp only [fetchWord, ht]

theorem decode_zhdr {a b : Nat} (ha : a < 2 ^ 8) (hb : b < 2 ^ 8) :
    decode .zhdr (a + 256 * b) 0 = .ok (.zhdr (BitVec.ofNat 8 a) (BitVec.ofNat 8 b)) := by
  have h := decode_encode (i := .zhdr (BitVec.ofNat 8 a) (BitVec.ofNat 8 b)) rfl
  rwa [encode, toNat_ofNat_of_lt ha, toNat_ofNat_of_lt hb] at h

/-- Settles O15: two fields of 8 bits, and the three checks one by one. -/
theorem zlibHeader : Obligations.ZlibHeader := by
  unfold Obligations.ZlibHeader
  refine ⟨fun s hp hb h => ?_, fun cmf flg s => ⟨fun hcm hdict hsum => ?_, fun hbad => ?_⟩⟩
  · exact fetchInf_of_yields (by simp only [State.infFormat, hb, hp]) (fetchZhdr_yields h)
      (decode_zhdr (streamField_lt ..) (streamField_lt ..))
  · exact congrArg (infEnd s)
      ((if_neg (not_not.2 hcm)).trans ((if_neg (by omega)).trans (if_neg (not_not.2 hsum))))
  · by_cases hcm : cmf.toNat % 16 = 8
    · by_cases hdict : flg.toNat / 32 % 2 = 1
      · exact congrArg (infEnd s) ((if_neg (not_not.2 hcm)).trans (if_pos hdict))
      · have hsum : zlibCheck cmf flg % 31 ≠ 0 := (hbad.resolve_left (not_not.2 hcm)).resolve_left hdict
        exact congrArg (infEnd s) ((if_neg (not_not.2 hcm)).trans ((if_neg hdict).trans (if_pos hsum)))
    · exact congrArg (infEnd s) (if_pos hcm)

/-! ### The block header -/

theorem fetchBhdr_yields {s : State} (h : s.BitReaderOk) :
    Yields 3 (fetchWord .bhdr s) (s.streamField s.bitpos 1 + 2 * s.streamField (s.bitpos + 1) 2, 0) s :=
  (consumeTwo_yields (m := 1) (n := 2) (by decide) (by decide) h).map (fun he => by simp only [fetchWord, he])
    fun t ht => by simp only [fetchWord, ht]

theorem decode_bhdr {bfinal btype : Nat} (hf : bfinal < 2 ^ 1) (ht : btype < 2 ^ 2) :
    decode .bhdr (bfinal + 2 * btype) 0 = .ok (blockHeader bfinal btype) := by
  interval_cases bfinal <;> interval_cases btype <;> rfl

/-- Settles O16: a field of 1 bit and one of 2 bits; what each header sets is its meaning unfolded. -/
theorem blockHeader_correct : Obligations.BlockHeader := by
  unfold Obligations.BlockHeader
  refine ⟨fun s hp hb h => ?_, fun f s => ⟨rfl, rfl, rfl, rfl⟩⟩
  exact fetchInf_of_yields (by simp only [State.infFormat, hb, hp]) (fetchBhdr_yields h)
    (decode_bhdr (streamField_lt ..) (streamField_lt ..))

/-! ### The stored block -/

/-- At byte `p` of IN the next byte read is that byte (R138). -/
theorem nextByte_yields {p : Nat} {s : State} (h : s.BitReaderOk) (hp : s.bitpos = 8 * p) :
    Yields 8 (nextByte .insufficientData s) (s.read .inn p) s := by
  have hc : s.inf.cnt % 8 = 0 := by
    have := h.cnt_le_bits
    rw [State.bitpos] at hp
    omega
  obtain ⟨hshort, hlong⟩ := nextByte_correct .insufficientData s h hc
  refine ⟨hshort, fun hl => ?_⟩
  obtain ⟨t, ht, hm, -⟩ := hlong hl
  rw [hp, Nat.mul_div_cancel_left p (by decide)] at ht
  exact ⟨t, ht, hm⟩

theorem nextPair_yields {p : Nat} {s : State} (h : s.BitReaderOk) (hp : s.bitpos = 8 * p) :
    Yields 16 (nextPair s) ((s.read .inn p).toNat + 256 * (s.read .inn (p + 1)).toNat) s := by
  refine (nextByte_yields h hp).andThen (k := 8) (fun he => by simp only [nextPair, he]) fun t ht hst => ?_
  rw [← hst.read_inn (p + 1)]
  have hhigh := nextByte_yields (p := p + 1) hst.2.1 (by rw [hst.2.2, hp]; rfl)
  exact hhigh.map (fun he => by simp only [nextPair, ht, he]) fun u hu => by simp only [nextPair, ht, hu, pairLE]

/-- The four header bytes of a stored block that begin at byte `p` of IN (R188). -/
theorem fetchStored_yields_aligned {p : Nat} {s : State} (h : (align s).BitReaderOk) (hp : (align s).bitpos = 8 * p) :
    Yields 32 (fetchWord .stored s)
      ((s.read .inn p).toNat + 256 * (s.read .inn (p + 1)).toNat +
        65536 * ((s.read .inn (p + 2)).toNat + 256 * (s.read .inn (p + 3)).toNat), 0) (align s) := by
  refine (nextPair_yields h hp).andThen (k := 16) (fun he => by simp only [fetchWord, he]) fun t ht hst => ?_
  have hread (a : Nat) : t.read .inn a = s.read .inn a := hst.read_inn a
  have hpair := nextPair_yields (p := p + 2) hst.2.1 (by rw [hst.2.2, hp]; rfl)
  rw [hread, hread] at hpair
  exact hpair.map (fun he => by simp only [fetchWord, ht, he]) fun u hu => by simp only [fetchWord, ht, hu]; rfl

theorem decode_stored {a b : Nat} (ha : a < 2 ^ 16) (hb : b < 2 ^ 16) :
    decode .stored (a + 65536 * b) 0 = .ok (.storedData (BitVec.ofNat 16 a) (BitVec.ofNat 16 b)) := by
  have h := decode_encode (i := .storedData (BitVec.ofNat 16 a) (BitVec.ofNat 16 b)) rfl
  rwa [encode, toNat_ofNat_of_lt ha, toNat_ofNat_of_lt hb] at h

theorem pair_lt (lo hi : Byte) : lo.toNat + 256 * hi.toNat < 2 ^ 16 := by omega

/-- The header bytes begin at the next byte boundary and leave no bit in `acc` (R137, R188). -/
theorem fetchStored_yields {s : State} (h : s.BitReaderOk) :
    let p := (s.bitpos + 7) / 8
    Yields (8 * p - s.bitpos + 32) (fetchWord .stored s)
      ((s.read .inn p).toNat + 256 * (s.read .inn (p + 1)).toNat +
        65536 * ((s.read .inn (p + 2)).toNat + 256 * (s.read .inn (p + 3)).toNat), 0) s := by
  intro p
  obtain ⟨-, hm, -, hpos⟩ := align_correct s h
  have hskip : 8 * p - s.bitpos = s.inf.cnt % 8 := by
    rw [← hpos, hm.2.2, Nat.add_sub_cancel_left]
  have halign : Yields (s.inf.cnt % 8) (.ok ((), align s)) () s :=
    ⟨fun hl => absurd hl (Nat.not_lt.2 ((Nat.mod_le _ 8).trans (cnt_le_bitsLeft h))), fun _ => ⟨_, rfl, hm⟩⟩
  rw [hskip]
  refine halign.andThen (fun he => nomatch he) fun t ht hst => ?_
  cases ht
  exact fetchStored_yields_aligned hm.2.1 hpos

/-- Settles O17: four bytes from the next byte boundary on; then the checks, and `copyStored_spec` for the payload. -/
theorem storedBlock : Obligations.StoredBlock := by
  unfold Obligations.StoredBlock
  refine ⟨fun s hp hb h => ?_, fun len nlen s => ⟨fun hcompl hin hout => ?_, fun hcompl => ?_, fun hcompl hin => ?_,
    fun hcompl hin hout => ?_⟩⟩
  · intro p
    have hpos := bitpos_le_stream h
    have hf : s.infFormat = .stored := by simp only [State.infFormat, hb, hp]
    obtain ⟨hshort, hlong⟩ := fetchInf_of_yields hf (fetchStored_yields h) (decode_stored (pair_lt ..) (pair_lt ..))
    rw [State.bitsLeft] at hshort hlong
    refine ⟨fun hl => hshort (by omega), fun hl => ?_⟩
    obtain ⟨t, ht, hi⟩ := hlong (by omega)
    obtain ⟨w, x, hw, -⟩ := fetchInf_instr hi
    rw [hf] at hw
    exact ⟨t, ht, (fetchStored_moved h hw).2, hi⟩
  · obtain ⟨hinf, hrest, hmem, hbytes⟩ := copyStored_spec len.toNat s
    refine ⟨blockEnd (copyStored len.toNat s), ?_, ?_, ?_, ?_, ?_⟩
    · exact congrArg (infEnd s)
        ((if_neg (not_not.2 hcompl)).trans ((if_neg (Nat.not_lt.2 hin)).trans (if_neg (Nat.not_lt.2 hout))))
    · rw [blockEnd_eq, hinf]
    · rw [blockEnd_eq]
      exact hrest
    · intro i hi
      rw [← hbytes i hi, blockEnd_eq]
      exact State.read_congr rfl rfl rfl _ _
    · intro sp a ha
      rw [← hmem sp a ha, blockEnd_eq]
      exact State.read_congr rfl rfl rfl _ _
  · exact congrArg (infEnd s) (if_pos hcompl)
  · exact congrArg (infEnd s) ((if_neg (not_not.2 hcompl)).trans (if_pos hin))
  · exact congrArg (infEnd s)
      ((if_neg (not_not.2 hcompl)).trans ((if_neg (Nat.not_lt.2 hin)).trans (if_pos hout)))

/-! ### The fixed part of a dynamic header -/

theorem fetchDynhdr_yields {s : State} (h : s.BitReaderOk) :
    Yields 14 (fetchWord .dynhdr s) (s.streamField s.bitpos 5 + 32 * s.streamField (s.bitpos + 5) 5 +
      1024 * s.streamField (s.bitpos + 10) 4, 0) s := by
  refine (consumeTwo_yields (m := 5) (n := 5) (by decide) (by decide) h).andThen (k := 4)
    (fun he => by simp only [fetchWord, he]) fun t ht hst => ?_
  exact (consume_yields_after (by decide) hst).map (fun he => by simp only [fetchWord, ht, he])
    fun u hu => by simp only [fetchWord, ht, hu]

theorem decode_dynhdr {a b c : Nat} (ha : a < 2 ^ 5) (hb : b < 2 ^ 5) (hc : c < 2 ^ 4) :
    decode .dynhdr (a + 32 * b + 1024 * c) 0 = .ok (.dyn (BitVec.ofNat 5 a) (BitVec.ofNat 5 b) (BitVec.ofNat 4 c)) := by
  have h := decode_encode (i := .dyn (BitVec.ofNat 5 a) (BitVec.ofNat 5 b) (BitVec.ofNat 4 c)) rfl
  rwa [encode, toNat_ofNat_of_lt ha, toNat_ofNat_of_lt hb, toNat_ofNat_of_lt hc] at h

/-- The scratch array `cl_len` when the first `n` fields at stream bit `p` have been read (R194). -/
def State.clLenRead (s : State) (p n : Nat) : List (BitVec 3) := (s.clLengths p n).map (BitVec.ofNat 3)

theorem length_clLenRead (s : State) (p n : Nat) : (s.clLenRead p n).length = 19 := by
  simp [State.clLenRead, State.clLengths]

theorem getElem_clLenRead (s : State) (p n : Nat) {k : Nat} (hk : k < (s.clLenRead p n).length) :
    (s.clLenRead p n)[k] =
      if clOrder.idxOf k < n then BitVec.ofNat 3 (s.streamField (p + 3 * clOrder.idxOf k) 3) else 0 := by
  simp only [State.clLenRead, State.clLengths, List.getElem_map, List.getElem_range]
  split <;> rfl

theorem clLenRead_zero (s : State) (p : Nat) : s.clLenRead p 0 = List.replicate 19 0 := by
  simp [State.clLenRead, State.clLengths]

/-- CL_ORDER names each symbol once (R106). -/
theorem clOrder_getD_eq_iff : ∀ i < 19, ∀ k < 19, clOrder.getD i 0 = k ↔ clOrder.idxOf k = i := by decide

/-- Field `i` goes to the symbol CL_ORDER has at place `i`. -/
theorem clLenRead_succ (s : State) (p : Nat) {i : Nat} (hi : i < 19) :
    s.clLenRead p (i + 1) =
      (s.clLenRead p i).set (clOrder.getD i 0) (BitVec.ofNat 3 (s.streamField (p + 3 * i) 3)) := by
  refine List.ext_getElem (by rw [List.length_set, length_clLenRead, length_clLenRead]) fun k hk _ => ?_
  have horder := clOrder_getD_eq_iff i hi k (length_clLenRead s p (i + 1) ▸ hk)
  rw [List.getElem_set, getElem_clLenRead, getElem_clLenRead]
  by_cases hik : clOrder.idxOf k = i
  · rw [if_pos (horder.2 hik), if_pos (by omega), hik]
  · rw [if_neg fun h => hik (horder.1 h)]
    exact if_congr (by omega) rfl rfl

theorem clLenRead_toNat (s : State) (p n : Nat) : (s.clLenRead p n).map BitVec.toNat = s.clLengths p n := by
  rw [State.clLenRead, List.map_map]
  refine (List.map_congr_left fun v hv => ?_).trans (List.map_id _)
  obtain ⟨k, -, rfl⟩ := List.mem_map.1 hv
  refine toNat_ofNat_of_lt ?_
  split
  · exact streamField_lt s _ 3
  · decide

theorem ReaderMoved.clLenRead {j : Nat} {s t : State} (h : ReaderMoved j s t) (p n : Nat) :
    t.clLenRead p n = s.clLenRead p n := by
  simp only [State.clLenRead, State.clLengths, h.streamField]

/-- The loop of R194, `i` fields having been read from stream bit `p` on. -/
theorem readClLens_yields (n : Nat) {i p : Nat} {s : State} (hn : i + n ≤ 19) (h : s.BitReaderOk)
    (hp : s.bitpos = p + 3 * i) :
    Yields (3 * n) (readClLens n i (s.clLenRead p i) s) (s.clLenRead p (i + n)) s := by
  induction n generalizing i s with
  | zero => exact ⟨fun hl => absurd hl (Nat.not_lt_zero _), fun _ => ⟨s, rfl, readerMoved_zero h⟩⟩
  | succ n ih =>
    rw [Nat.mul_add_one, Nat.add_comm]
    refine (consume_yields (by decide) h).andThen (fun he => by simp only [readClLens, he]) fun t ht hst => ?_
    have hloop := ih (i := i + 1) (by omega) hst.2.1 (by rw [hst.2.2]; omega)
    rw [hst.clLenRead, hst.clLenRead, clLenRead_succ s p (by omega), Nat.add_right_comm, ← hp] at hloop
    simp only [readClLens, ht]
    exact hloop

section
variable {hlit hdist : BitVec 5} {hclen : BitVec 4} {clLen : List (BitVec 3)} {s t : State}

theorem execDyn_of_raise {f : FaultCode} (hr : readClLens (hclenCount hclen) 0 (List.replicate 19 0) s = .error f) :
    execDyn hlit hdist hclen s = .next (infFault f s) := by
  simp only [execDyn, hr, infEnd]

theorem execDyn_of_not_built (hr : readClLens (hclenCount hclen) 0 (List.replicate 19 0) s = .ok (clLen, t))
    (hT : build Config.nCL (clLen.map BitVec.toNat) = none) :
    execDyn hlit hdist hclen s = .next (infFault .invalidHuffmanTree s) := by
  simp only [execDyn, hr, hT, infEnd]

theorem execDyn_of_built {T : HuffTable} (hr : readClLens (hclenCount hclen) 0 (List.replicate 19 0) s = .ok (clLen, t))
    (hT : build Config.nCL (clLen.map BitVec.toNat) = some T) :
    execDyn hlit hdist hclen s = .next (startTokens (hlitCount hlit) (hdistCount hdist) clLen T t) := by
  simp only [execDyn, hr, hT, infEnd]

end

/-- Settles O18: three fields, then the loop over CL_ORDER and what `build` makes of its lengths. -/
theorem dynamicHeader : Obligations.DynamicHeader := by
  unfold Obligations.DynamicHeader
  refine ⟨fun s hp hb h => ?_, fun hlit hdist hclen s h => ?_⟩
  · exact fetchInf_of_yields (by simp only [State.infFormat, hb, hp]) (fetchDynhdr_yields h)
      (decode_dynhdr (streamField_lt ..) (streamField_lt ..) (streamField_lt ..))
  · have hy := readClLens_yields (hclenCount hclen) (i := 0) (p := s.bitpos) (by rw [hclenCount]; omega) h rfl
    rw [clLenRead_zero, Nat.zero_add] at hy
    obtain ⟨hshort, hlong⟩ := hy
    refine ⟨fun hl => execDyn_of_raise (hshort hl), fun hl => ?_⟩
    obtain ⟨u, hu, hm⟩ := hlong hl
    have hbuild := congrArg (build Config.nCL) (clLenRead_toNat s s.bitpos (hclenCount hclen))
    exact ⟨fun hnone => execDyn_of_not_built hu (hbuild.trans hnone),
      fun T hT => ⟨u, hm, execDyn_of_built hu (hbuild.trans hT)⟩⟩

/-! ### Code-length tokens -/

theorem finishHeader_of_built {ll d : HuffTable} {s : State}
    (hll : build Config.nLL ((s.tabs.lens.take s.inf.hlit).map BitVec.toNat) = some ll)
    (hd : build Config.nD ((s.tabs.lens.drop s.inf.hlit).map BitVec.toNat) = some d) :
    finishHeader s = .ok (enterDynamic ll d s) := by
  simp only [finishHeader, hll, hd, enterDynamic]

theorem finishHeader_of_not_built {s : State}
    (h : build Config.nLL ((s.tabs.lens.take s.inf.hlit).map BitVec.toNat) = none ∨
      build Config.nD ((s.tabs.lens.drop s.inf.hlit).map BitVec.toNat) = none) :
    finishHeader s = .error .invalidHuffmanTree := by
  unfold finishHeader
  split
  · rfl
  · rename_i ll hll
    rw [hll] at h
    simp only [h.resolve_left nofun]

section
variable {r : Nat} {v : BitVec 4} {s : State}

theorem addLengths_of_over (h : s.total < (s.tabs.lens ++ List.replicate r v).length) :
    addLengths r v s = .error .invalidHuffmanTree :=
  if_pos (by simpa using h)

theorem addLengths_of_more (h : (s.tabs.lens ++ List.replicate r v).length < s.total) :
    addLengths r v s = .ok (withLens (s.tabs.lens ++ List.replicate r v) s) :=
  (if_neg (by simpa using h.le)).trans (if_pos h)

theorem addLengths_of_last (h : (s.tabs.lens ++ List.replicate r v).length = s.total) :
    addLengths r v s = finishHeader (withLens (s.tabs.lens ++ List.replicate r v) s) :=
  (if_neg (by simpa using h.le)).trans (if_neg h.not_lt)

end

/-- A token that adds `r` copies of `v` means what `TokenMeans` says. -/
theorem tokenMeans_of_addLengths {i : Instr} {r : Nat} {v : BitVec 4} {s : State}
    (hi : exec i s = infEnd s (addLengths r v s)) : TokenMeans i r v s := by
  unfold TokenMeans
  rw [hi]
  refine ⟨fun h => ?_, fun h ll d hll hd => ?_, fun h hnone => ?_, fun h => ?_⟩
  · rw [addLengths_of_more h]
    rfl
  · rw [addLengths_of_last h, finishHeader_of_built (ll := ll) (d := d) hll hd]
    rfl
  · rw [addLengths_of_last h, finishHeader_of_not_built hnone]
    rfl
  · rw [addLengths_of_over h]
    rfl

/-- Settles O19: every token but a CL16 without a previous length adds copies of one length. -/
theorem codeLengthTokens : Obligations.CodeLengthTokens := by
  unfold Obligations.CodeLengthTokens
  refine fun s => ⟨fun n => tokenMeans_of_addLengths rfl, fun rep lens v hv => tokenMeans_of_addLengths ?_,
    fun rep hnil => ?_, fun rep => tokenMeans_of_addLengths rfl, fun rep => tokenMeans_of_addLengths rfl⟩
  · have hlast : s.tabs.lens.getLast? = some v := by rw [hv, List.getLast?_concat]
    simp only [exec, execCl16, hlast, repCount16]
  · simp only [exec, execCl16, hnil, List.getLast?_nil, infEnd]

/-! ### Units at rest, in contention and refused -/

theorem unitStep_of_idle {s : State} (hi : s.infBusy = false) (hs : s.slrBusy = false) : unitStep s = .next s := by
  simp [unitStep, hi, hs]

theorem unitStep_of_both {s : State} (hi : s.infBusy = true) (hs : s.slrBusy = true) : unitStep s = contendedStep s := by
  simp [unitStep, hi, hs]

theorem unitStep_of_beyond {s : State} (hi : s.infBusy = true) (hs : s.slrBusy = false) (hl : s.lengthsFit = false) :
    unitStep s = .refused .lengthsBeyondCapacity := by
  simp [unitStep, infTurn, hi, hs, hl]

/-- Settles O43: the step is the units' step, by which of them are busy; the free turn decides between the two. -/
theorem unitsAtRest : Obligations.UnitsAtRest := by
  unfold Obligations.UnitsAtRest
  intro s hq
  rw [step_of_no_host_move hq]
  refine ⟨unitStep_of_idle, fun hi hs => ?_, fun hi hs hbeyond => unitStep_of_beyond hi hs ?_⟩
  · rw [unitStep_of_both hi hs, contendedStep]
    cases Config.freeTurn s.draws
    · exact .inl rfl
    · exact .inr rfl
  · rw [State.lengthsFit, decide_eq_false_iff_not]
    omega

end Sys2Proof.Machine

/-! PROOFS for the family 43_symbols_lz77: the literals (O21), the end of a block (O22), the length symbols (O23 to O25), the
reserved symbols (O26), the distance symbols (O27 to O29), the copy of a match (O30), a run of one byte (O31). -/

namespace Sys2Proof.Machine

/-! ### The copy of a match -/

section
variable {length distance : Nat} {s : State} (pos : 1 ≤ distance) (reach : distance ≤ s.inf.olen)
include pos reach

/-- The bytes of a copy repeat the last `distance` bytes of the output (R295): a byte copied from a copied byte is, `distance`
bytes at a time, a copy of an old one. -/
theorem copyLoop_read_periodic {i : Nat} (hi : i < length) :
    (copyLoop distance length s).read .out (s.inf.olen + i) = s.read .out (s.inf.olen - distance + i % distance) := by
  obtain ⟨-, -, hmem, hserial⟩ := copyLoop_spec distance length pos reach
  induction i using Nat.strong_induction_on with
  | _ i ih =>
    rw [hserial i hi]
    obtain hold | hnew := Nat.lt_or_ge i distance
    · rw [hmem .out _ (by omega), Nat.mod_eq_of_lt hold, Nat.sub_add_comm reach]
    · rw [Nat.add_sub_assoc hnew, ih (i - distance) (by omega) (by omega), ← Nat.mod_eq_sub_mod hnew]

theorem copyDone_copyLoop : CopyDone length distance s.inf.sub s (copyLoop distance length s) := by
  obtain ⟨hinf, hrest, hmem, -⟩ := copyLoop_spec distance length pos reach
  exact ⟨hinf, hrest, fun _ hi => copyLoop_read_periodic pos reach hi, hmem⟩

theorem copyDone_endMatch : CopyDone s.inf.mlen distance .boundary s (endMatch distance s) := by
  obtain ⟨hinf, hrest⟩ := endMatch_inf pos reach
  obtain ⟨-, -, hbytes, hmem⟩ := copyDone_copyLoop (length := s.inf.mlen) pos reach
  exact ⟨hinf, hrest, hbytes, hmem⟩

end

theorem copyMatch_of_far {length distance : Nat} {s : State} (far : s.inf.olen < distance) :
    copyMatch length distance s = .error .distanceTooFar := if_pos far

theorem copyMatch_of_full {length distance : Nat} {s : State} (reach : distance ≤ s.inf.olen)
    (full : s.inf.outCap.toNat < s.inf.olen + length) : copyMatch length distance s = .error .capacityError :=
  (if_neg (Nat.not_lt.2 reach)).trans (if_pos full)

theorem copyMatch_of_room {length distance : Nat} {s : State} (reach : distance ≤ s.inf.olen)
    (room : s.inf.olen + length ≤ s.inf.outCap.toNat) :
    copyMatch length distance s = .ok (copyLoop distance length s) :=
  (if_neg (Nat.not_lt.2 reach)).trans (if_neg (Nat.not_lt.2 room))

/-- Settles O30: the checks one by one, and `copyLoop_spec` with its closed form for the bytes. -/
theorem copy : Obligations.Copy := by
  unfold Obligations.Copy
  intro length distance s pos
  refine ⟨copyMatch_of_far, copyMatch_of_full, fun reach room => ?_⟩
  obtain ⟨-, -, -, hserial⟩ := copyLoop_spec distance length pos reach
  exact ⟨_, copyMatch_of_room reach room, copyDone_copyLoop pos reach, hserial⟩

/-! ### The distance symbols -/

theorem distanceToken_of_error {base f : Nat} {s : State} {e : FaultCode}
    (h : copyMatch s.inf.mlen (base + f) s = .error e) : distanceToken base f s = .next (infFault e s) := by
  rw [distanceToken, h]
  rfl

theorem distanceToken_of_room {base f : Nat} {s : State} (reach : base + f ≤ s.inf.olen)
    (room : s.inf.olen + s.inf.mlen ≤ s.inf.outCap.toNat) :
    distanceToken base f s = .next (endMatch (base + f) s) := by
  rw [distanceToken, copyMatch_of_room reach room]
  rfl

/-- Every distance base is at least 1 (R260). -/
theorem one_le_distBase : ∀ sym < 30, 1 ≤ distBase.getD sym 0 := by decide

/-- What is encoded as a distance symbol has its meaning: the base of DIST_BASE and the extra bits (R260). -/
theorem exec_of_encode_dsym {i : Instr} {sym f : Nat} (hsym : sym < 30) (hwf : i.wf = true) (h : encode i = ⟨.dsym, sym, f⟩)
    (s : State) : exec i s = distanceToken (distBase.getD sym 0) f s := by
  have hrow : decodeDist sym f = some i := by
    have := decodeRow_encode hwf
    rwa [h] at this
  have hf : f < 2 ^ distExtra.getD sym 0 := by
    obtain ⟨-, hextra⟩ := encoding_fits i
    rwa [h] at hextra
  have hexec := distance_of_table sym f hsym hf s
  rw [hrow] at hexec
  exact Option.some.inj hexec

/-- The distance symbols are alike: the 5-bit code is the symbol (R171), the extra bits and the base are the tables' (R260). -/
theorem distanceMeans_of_encode {i : Instr} {sym f : Nat} (hsym : sym < 30) (hwf : i.wf = true)
    (h : encode i = ⟨.dsym, sym, f⟩) : DistanceMeans i sym sym (dExtra sym) f (distBase.getD sym 0 + f) := by
  have hexec := exec_of_encode_dsym hsym hwf h
  have pos : 1 ≤ distBase.getD sym 0 + f := (one_le_distBase sym hsym).trans (Nat.le_add_right ..)
  refine ⟨h, rfl, hasCode_flat rfl (by omega), fun s => ⟨fun reach room => ?_, fun far => ?_, fun reach full => ?_⟩⟩
  · exact ⟨_, (hexec s).trans (distanceToken_of_room reach room), copyDone_endMatch pos reach⟩
  · exact (hexec s).trans (distanceToken_of_error (copyMatch_of_far far))
  · exact (hexec s).trans (distanceToken_of_error (copyMatch_of_full reach full))

/-- Settles O27: `distanceMeans_of_encode` at each symbol. -/
theorem distanceSymbols0To11 : Obligations.DistanceSymbols0To11 := by
  unfold Obligations.DistanceSymbols0To11
  refine ⟨?_, ?_, ?_, ?_, fun f => ?_, fun f => ?_, fun f => ?_, fun f => ?_, fun f => ?_, fun f => ?_, fun f => ?_,
    fun f => ?_⟩
  all_goals exact distanceMeans_of_encode (by decide) rfl rfl

/-- Settles O28: `distanceMeans_of_encode` at each symbol. -/
theorem distanceSymbols12To23 : Obligations.DistanceSymbols12To23 := by
  unfold Obligations.DistanceSymbols12To23
  refine ⟨fun f => ?_, fun f => ?_, fun f => ?_, fun f => ?_, fun f => ?_, fun f => ?_, fun f => ?_, fun f => ?_,
    fun f => ?_, fun f => ?_, fun f => ?_, fun f => ?_⟩
  all_goals exact distanceMeans_of_encode (by decide) rfl rfl

/-- Settles O29: `distanceMeans_of_encode` at each symbol. -/
theorem distanceSymbols24To29 : Obligations.DistanceSymbols24To29 := by
  unfold Obligations.DistanceSymbols24To29
  refine ⟨fun f => ?_, fun f => ?_, fun f => ?_, fun f => ?_, fun f => ?_, fun f => ?_⟩
  all_goals exact distanceMeans_of_encode (by decide) rfl rfl

/-- Settles O31: the bytes of a copy of distance 1 have one period, the byte last produced. -/
theorem runLength : Obligations.RunLength := by
  unfold Obligations.RunLength
  intro s reach room
  obtain ⟨hinf, -, hbytes, -⟩ := copyDone_endMatch le_rfl reach
  refine ⟨endMatch 1 s, distanceToken_of_room reach room, by rw [hinf], fun i hi => ?_⟩
  rw [hbytes i hi, Nat.mod_one, Nat.add_zero]

/-! ### The literal/length symbols -/

/-- Settles O21: the codes are those of R107, the byte and the frame those of `pushOut`. -/
theorem literal : Obligations.Literal := by
  unfold Obligations.Literal
  refine ⟨fun sym h => ?_, fun sym hlo hhi => ?_, fun b s => ⟨rfl, if_pos (by omega), fun room => ?_, fun full => ?_⟩⟩
  · have hcode := hasCode_fixLL (sym := sym) (by omega)
    rwa [fixedLLCode, if_pos (by omega)] at hcode
  · have hcode := hasCode_fixLL (sym := sym) (by omega)
    rwa [fixedLLCode, if_neg (by omega), if_pos (by omega)] at hcode
  · refine ⟨pushOut b s, congrArg (infEnd s) (if_neg (Nat.not_lt.2 room)), pushOut_inf b s, pushOut_same b s, ?_, ?_⟩
    · rw [pushOut_read, if_pos ⟨rfl, rfl⟩]
    · intro sp a ha
      rw [pushOut_read, if_neg fun ⟨hsp, h⟩ => ha ⟨hsp, by omega, by omega⟩]
  · exact congrArg (infEnd s) (if_pos full)

/-- Settles O22: the two cases of `block_end`. -/
theorem endOfBlock : Obligations.EndOfBlock := by
  unfold Obligations.EndOfBlock
  refine ⟨rfl, rfl, hasCode_fixLL (sym := 256) (by decide), fun s => ⟨fun hfinal => ?_, fun hmore => ?_⟩⟩
  · exact congrArg _ (if_pos hfinal)
  · exact congrArg _ (if_neg (Bool.eq_false_iff.1 hmore))

/-- What is encoded as a length symbol has its meaning: the base of LEN_BASE and the extra bits (R224). -/
theorem exec_of_encode_length {i : Instr} {sym e : Nat} (hlo : 257 ≤ sym) (hhi : sym < 286) (hwf : i.wf = true)
    (h : encode i = ⟨.llsym, sym, e⟩) (s : State) : exec i s = lengthToken (lenBase.getD (sym - 257) 0) e s := by
  have hrow : decodeLL sym e = some i := by
    have := decodeRow_encode hwf
    rwa [h] at this
  have he : e < 2 ^ llExtra sym := by
    obtain ⟨-, hextra⟩ := encoding_fits i
    rwa [h] at hextra
  rw [decodeLL, if_neg (by omega), if_neg (by omega)] at hrow
  rw [llExtra, if_neg (by omega)] at he
  have hexec := length_of_table (sym - 257) e (by omega) he s
  rw [hrow] at hexec
  exact Option.some.inj hexec

/-- The length symbols are alike: the code is that of R107, the extra bits and the base are the tables' (R224). -/
theorem lengthMeans_of_encode {i : Instr} {sym e : Nat} (hlo : 257 ≤ sym) (hhi : sym < 286) (hwf : i.wf = true)
    (h : encode i = ⟨.llsym, sym, e⟩) :
    LengthMeans i sym (fixedLLCode sym).1 (fixedLLCode sym).2 (llExtra sym) e (lenBase.getD (sym - 257) 0 + e) :=
  ⟨h, rfl, hasCode_fixLL (by omega), exec_of_encode_length hlo hhi hwf h⟩

/-- Settles O23: `lengthMeans_of_encode` at each symbol. -/
theorem lengthSymbols257To268 : Obligations.LengthSymbols257To268 := by
  unfold Obligations.LengthSymbols257To268
  refine ⟨?_, ?_, ?_, ?_, ?_, ?_, ?_, ?_, fun e => ?_, fun e => ?_, fun e => ?_, fun e => ?_⟩
  all_goals exact lengthMeans_of_encode (by decide) (by decide) rfl rfl

/-- Settles O24: `lengthMeans_of_encode` at each symbol. -/
theorem lengthSymbols269To280 : Obligations.LengthSymbols269To280 := by
  unfold Obligations.LengthSymbols269To280
  refine ⟨fun e => ?_, fun e => ?_, fun e => ?_, fun e => ?_, fun e => ?_, fun e => ?_, fun e => ?_, fun e => ?_,
    fun e => ?_, fun e => ?_, fun e => ?_, fun e => ?_⟩
  all_goals exact lengthMeans_of_encode (by decide) (by decide) rfl rfl

/-- Settles O25: `lengthMeans_of_encode` at each symbol. -/
theorem lengthSymbols281To285 : Obligations.LengthSymbols281To285 := by
  unfold Obligations.LengthSymbols281To285
  refine ⟨fun e => ?_, fun e => ?_, fun e => ?_, fun e => ?_, ?_⟩
  all_goals exact lengthMeans_of_encode (by decide) (by decide) rfl rfl

/-! ### The reserved symbols -/

/-- Settles O26: both arms raise InvalidSymbol whatever the state is; the codes are those of R107 and R171. -/
theorem reservedSymbols : Obligations.ReservedSymbols := by
  unfold Obligations.ReservedSymbols
  exact ⟨fun _ _ => rfl, fun _ _ => rfl, hasCode_fixLL (sym := 286) (by decide), hasCode_fixLL (sym := 287) (by decide),
    hasCode_flat rfl (by decide), hasCode_flat rfl (by decide), rfl, rfl, rfl, rfl⟩

end Sys2Proof.Machine

/-! PROOFS for the family 44_scanline: the Paeth predictor (O35), a row in each filter (O32, O33), that it undoes filtering
(O36), the illegal filter bytes (O34), what the start checks of SLR established (O59). -/

namespace Sys2Proof.Machine

/-! ### Predictors -/

theorem paeth_mem (a b c : Byte) : paeth a b c = a ∨ paeth a b c = b ∨ paeth a b c = c := by
  unfold paeth
  dsimp only
  split_ifs
  exacts [.inl rfl, .inr (.inl rfl), .inr (.inr rfl)]

/-- The nearest of the three by the distances of R322 is the one the threshold of R323 selects; where they select different
arguments, the arguments are equal bytes. -/
theorem paeth_eq_branchFree (a b c : Byte) : paeth a b c = paethBranchFree a b c := by
  unfold paeth paethBranchFree
  dsimp only
  refine BitVec.eq_of_toNat_eq ?_
  obtain hab | hab := le_or_gt a.toNat b.toNat
  · simp only [if_pos hab]
    split_ifs <;> omega
  · simp only [if_neg (not_le.2 hab)]
    split_ifs <;> omega

/-- Settles O35: the nearest of the three is the one the threshold selects. -/
theorem paethBranchFree_correct : Obligations.PaethBranchFree := by
  unfold Obligations.PaethBranchFree
  exact fun a b c => ⟨paeth_eq_branchFree a b c, paeth_mem a b c⟩

theorem paeth_zero_zero (a : Byte) : paeth a 0 0 = a := by
  simp [paeth]

/-- Adding a predictor undoes subtracting it (R325). -/
theorem unfilterByte_sub (v : Byte) (p : Nat) : unfilterByte (v - BitVec.ofNat 8 p) p = v := by
  rw [unfilterByte, BitVec.ofNat_add, BitVec.ofNat_toNat, BitVec.setWidth_eq, BitVec.sub_add_cancel]

/-! ### A row step -/

/-- The row loop over a whole row, whatever the channels: with none the row is empty. -/
theorem reconRow_stride (eff : Filter) (s : State) :
    OnlyMemory s (reconRow eff s.stride 0 s) ∧
      SameOutside (curRow s.slr.row) 0 s.stride s (reconRow eff s.stride 0 s) ∧
      ∀ x < s.stride, (reconRow eff s.stride 0 s).read (curRow s.slr.row) x =
        unfilterByte (s.read .out (s.rowBase + 1 + x))
          (predict eff ((reconRow eff s.stride 0 s).leftOf x) (s.aboveOf x) (s.upperLeftOf x)) := by
  obtain hc | hc := Nat.eq_zero_or_pos s.slr.rawCh.toNat
  · have hempty : s.stride = 0 := by rw [State.stride, hc, Nat.mul_zero]
    rw [hempty]
    exact ⟨.refl s, .refl _ _ _ s, fun x hx => absurd hx (Nat.not_lt_zero x)⟩
  · obtain ⟨honly, hframe, hrow⟩ := reconRow_spec eff s.stride 0 hc
    exact ⟨honly, hframe, fun x hx => hrow x (Nat.zero_le x) (by omega)⟩

theorem runRow_read_eq (eff : Filter) (s : State) (sp : Space) (a : Nat) :
    (runRow eff s).read sp a =
      (writePixels s.slr.width.toNat 0 (reconRow eff s.stride 0 s)).read sp a := by
  obtain ⟨⟨-, hslr⟩, -⟩ := reconRow_stride eff s
  rw [← hslr]
  exact State.read_congr rfl rfl rfl sp a

/-- A row step is one scanline with the filter's predictor (R303, R343), from every state. -/
theorem rowDone_runRow (eff : Filter) (s : State) : RowDone (predict eff) s (runRow eff s) := by
  obtain ⟨hrest, -, hregs⟩ := runRow_frame eff s
  have hread := runRow_read_eq eff s
  obtain ⟨⟨-, hslr⟩, hrecon, hrow⟩ := reconRow_stride eff s
  obtain ⟨-, hwrite, hpixels⟩ := writePixels_spec s.slr.width.toNat 0 (reconRow eff s.stride 0 s)
  have hcur (x : Nat) :
      (runRow eff s).read (curRow s.slr.row) x = (reconRow eff s.stride 0 s).read (curRow s.slr.row) x :=
    (hread _ x).trans (hwrite _ x fun ⟨hsp, _⟩ => curRow_ne_img _ hsp)
  rw [hslr] at hwrite hpixels
  refine ⟨fun x hx => ?_, fun px hpx k hk => ?_, hregs, hrest, fun sp a hnrow hnimg => ?_⟩
  · rw [hcur, hrow x hx, State.leftOf, hslr, hcur]
    rfl
  · rw [hread, hpixels px (Nat.zero_le px) (by omega) k hk, mux, hslr, hcur]
  · have hbase : (s.slr.row * s.slr.width.toNat + 0) * s.slr.outCh.toNat = s.slr.row * s.imgRow := by
      rw [State.imgRow, Nat.add_zero, Nat.mul_assoc]
    rw [hbase] at hwrite
    rw [hread, hwrite sp a hnimg, hrecon sp a fun ⟨hsp, _, ha⟩ => hnrow ⟨hsp, by omega⟩]

/-- Settles O32: each filter is a row step with its own predictor. -/
theorem rowFilters : Obligations.RowFilters := by
  unfold Obligations.RowFilters
  refine ⟨⟨rfl, rfl, rfl, rfl, rfl⟩, fun s => ⟨?_, ?_, ?_, ?_, ?_⟩⟩
  · exact ⟨_, rfl, rowDone_runRow .none s⟩
  · exact ⟨_, rfl, rowDone_runRow .sub s⟩
  · exact ⟨_, rfl, rowDone_runRow .up s⟩
  · exact ⟨_, rfl, rowDone_runRow .avg s⟩
  · exact ⟨_, rfl, rowDone_runRow .paeth s⟩

/-- Settles O33: each filter of row 0 is a row step with the predictor it is remapped to, which is the PNG predictor where the
neighbours above are 0. -/
theorem rowZeroFilters : Obligations.RowZeroFilters := by
  unfold Obligations.RowZeroFilters
  refine ⟨⟨rfl, rfl, rfl, rfl, rfl⟩, fun s => ⟨?_, ?_, ?_, ?_, ?_⟩, fun a => ⟨rfl, paeth_zero_zero a⟩⟩
  · exact ⟨_, rfl, rowDone_runRow .none s⟩
  · exact ⟨_, rfl, rowDone_runRow .sub s⟩
  · exact ⟨_, rfl, rowDone_runRow .none s⟩
  · exact ⟨_, rfl, rowDone_runRow .avgFirst s⟩
  · exact ⟨_, rfl, rowDone_runRow .sub s⟩

/-- Settles O34: the decoder gives back what the byte encodes, and both arms enter InvalidFilter. -/
theorem invalidFilterByte : Obligations.InvalidFilterByte := by
  unfold Obligations.InvalidFilterByte
  refine ⟨fun ft hft => ⟨?_, ?_⟩, fun _ _ => ⟨rfl, rfl⟩⟩
  · exact decode_eq_ok.2 (decodeRow_encode (i := .rowInvalid ft) (decide_eq_true hft))
  · exact decode_eq_ok.2 (decodeRow_encode (i := .row0Invalid ft) (decide_eq_true hft))

/-! ### Unfiltering undoes filtering -/

/-- One scanline gives back the bytes that were filtered with its predictor (R325): from left to right, the left neighbour is
already a byte of `raw`. -/
theorem read_of_rowDone {p : Byte → Byte → Byte → Nat} {raw : Nat → Byte} {s t : State} (hfiltered : RowIsFiltered p raw s)
    (hdone : RowDone p s t) {x : Nat} (hx : x < s.stride) : t.read (curRow s.slr.row) x = raw x := by
  have hc : 0 < s.slr.rawCh.toNat := Nat.pos_of_mul_pos_left (Nat.zero_lt_of_lt hx)
  induction x using Nat.strong_induction_on with
  | _ x ih =>
    have hleft : (if s.slr.rawCh.toNat ≤ x then t.read (curRow s.slr.row) (x - s.slr.rawCh.toNat) else 0) =
        if s.slr.rawCh.toNat ≤ x then raw (x - s.slr.rawCh.toNat) else 0 :=
      if_ctx_congr Iff.rfl (fun _ => ih _ (by omega) (by omega)) fun _ => rfl
    rw [hdone.row x hx, hfiltered x hx, hleft, unfilterByte_sub]

/-- A row step restores what its filter's predictor filtered. -/
theorem rowRestores_runRow (eff : Filter) {i : Instr} {raw : Nat → Byte} {s : State} (hi : exec i s = .next (runRow eff s)) :
    RowRestores i (predict eff) raw s :=
  fun hfiltered => ⟨_, hi, fun _ => read_of_rowDone hfiltered (rowDone_runRow eff s)⟩

/-- In row 0 the neighbours above are 0, so a filter restores what any predictor that agrees there filtered (R316). -/
theorem rowRestores_runRow_row0 (eff : Filter) {i : Instr} {p : Byte → Byte → Byte → Nat} {raw : Nat → Byte} {s : State}
    (h0 : s.slr.row = 0) (hp : ∀ a, p a 0 0 = predict eff a 0 0) (hi : exec i s = .next (runRow eff s)) :
    RowRestores i p raw s := by
  have hnone : ¬1 ≤ s.slr.row := by omega
  refine fun hfiltered => rowRestores_runRow eff hi fun x hx => ?_
  have hbyte := hfiltered x hx
  simp only [hnone, false_and, if_false, hp] at hbyte ⊢
  exact hbyte

/-- Settles O36: each filter restores what its predictor filtered, and in row 0 the predictor it is remapped to filters as the
PNG predictor does. -/
theorem unfilterInverts : Obligations.UnfilterInverts := by
  unfold Obligations.UnfilterInverts
  refine fun raw s => ⟨?_, ?_, ?_, ?_, ?_, fun h0 => ⟨?_, ?_, ?_, ?_, ?_⟩⟩
  · exact rowRestores_runRow .none rfl
  · exact rowRestores_runRow .sub rfl
  · exact rowRestores_runRow .up rfl
  · exact rowRestores_runRow .avg rfl
  · exact rowRestores_runRow .paeth rfl
  · exact rowRestores_runRow .none rfl
  · exact rowRestores_runRow .sub rfl
  · exact rowRestores_runRow_row0 .none h0 (fun _ => rfl) rfl
  · exact rowRestores_runRow_row0 .avgFirst h0 (fun _ => rfl) rfl
  · exact rowRestores_runRow_row0 .sub h0 (fun a => congrArg BitVec.toNat (paeth_zero_zero a)) rfl

/-! ### The run of SLR -/

/-- What the start checks established, while SLR is busy. -/
def State.SlrOk (s : State) : Prop := s.slrBusy = true → s.SlrRunOk

theorem slrOk_of_idle {s : State} (h : s.slrBusy = false) : s.SlrOk := fun hb => by simp [h] at hb

theorem slrBusy_congr {s t : State} (h : t.slr = s.slr) : t.slrBusy = s.slrBusy := by
  simp only [State.slrBusy, h]

/-- `row` is in range for the phase (R36). -/
def State.RowInRange (s : State) : Prop :=
  (s.slr.phase = .rows → s.slr.row < s.slr.height.toNat) ∧
    (s.slr.phase = .flipping → s.slr.row = s.slr.height.toNat ∧ s.slr.flip = true)

theorem rowInRange_of_slrRunOk {s : State} (h : s.SlrRunOk) : s.RowInRange := ⟨h.inRows, h.inFlip⟩

/-- What no step changes in a run of SLR: the configuration, `img_len`, the capacities; and, of a run that is not disturbed, that
it was not, and INF's phase and output length (R36, R301, R407). -/
structure SlrRunKept (s t : State) : Prop where
  slr : t.slr = { s.slr with
    row := t.slr.row
    forcedTransparency := t.slr.forcedTransparency
    phase := t.slr.phase
    err := t.slr.err }
  caps : t.caps = s.caps
  data : t.disturbed = false → s.disturbed = false ∧ t.inf.phase = s.inf.phase ∧ t.inf.olen = s.inf.olen

theorem slrRunOk_of_kept {s t : State} (hs : s.SlrRunOk) (hk : SlrRunKept s t) (hrow : t.RowInRange) : t.SlrRunOk := by
  obtain ⟨hslr, hcaps, hdata⟩ := hk
  have hw : t.slr.width = s.slr.width := by rw [hslr]
  have hh : t.slr.height = s.slr.height := by rw [hslr]
  have hc : t.slr.rawCh = s.slr.rawCh := by rw [hslr]
  have ho : t.slr.outCh = s.slr.outCh := by rw [hslr]
  have himg : t.slr.imgLen = s.slr.imgLen := by rw [hslr]
  have hstride : t.stride = s.stride := by simp only [State.stride, hw, hc]
  have hneeded : t.needed = s.needed := by simp only [State.needed, hstride, hh]
  have hsize : t.imgSize = s.imgSize := by simp only [State.imgSize, hw, ho, hh]
  exact {
    width := hw ▸ hs.width
    height := hh ▸ hs.height
    channels := hc ▸ ho ▸ hs.channels
    sizes := hneeded ▸ hsize ▸ hs.sizes
    capacities := hstride ▸ hsize ▸ hcaps ▸ hs.capacities
    imgLen := by rw [himg, hsize, hs.imgLen]
    inRows := hrow.1
    inFlip := hrow.2
    data := fun hd => by
      obtain ⟨hd, hphase, holen⟩ := hdata hd
      rw [hphase, holen, hneeded]
      exact hs.data hd }

/-- A step that leaves SLR's registers alone keeps the run. -/
theorem slrOk_of_same_slr {s t : State} (hsl : t.slr = s.slr) (hcaps : t.caps = s.caps)
    (hdata : s.slrBusy = true → s.SlrRunOk → t.disturbed = false →
      s.disturbed = false ∧ t.inf.phase = s.inf.phase ∧ t.inf.olen = s.inf.olen) (hs : s.SlrOk) : t.SlrOk := by
  intro hb
  have hb : s.slrBusy = true := slrBusy_congr hsl ▸ hb
  have hok := hs hb
  refine slrRunOk_of_kept hok ⟨by rw [hsl], hcaps, hdata hb hok⟩ ?_
  rw [State.RowInRange, hsl]
  exact rowInRange_of_slrRunOk hok

/-- A step that leaves SLR's registers and INF's alone keeps the run. -/
theorem slrOk_congr {s t : State} (hsl : t.slr = s.slr) (hcaps : t.caps = s.caps) (hd : t.disturbed = s.disturbed)
    (hphase : t.inf.phase = s.inf.phase) (holen : t.inf.olen = s.inf.olen) (hs : s.SlrOk) : t.SlrOk :=
  slrOk_of_same_slr hsl hcaps (fun _ _ h => ⟨hd ▸ h, hphase, holen⟩) hs

/-! ### The steps of the units -/

/-- All that a step of a busy SLR can do to its registers: end the run, or those of a row step. -/
theorem slrStep_slr {s t : State} (hb : s.slrBusy = true) (h : slrStep s = .next t) :
    t.slrBusy = false ∨ s.slr.phase = .rows ∧ ∃ eff, t.slr = (runRow eff s).slr := by
  have hflip : (flipStep s).slrBusy = false := by simp [State.slrBusy, flipStep_slr]
  obtain ⟨-, rfl⟩ | ⟨-, rfl⟩ | ⟨hp, ⟨eff, rfl⟩ | rfl⟩ := slrStep_cases hb h
  · unfold disturbedStep
    split
    · exact .inl hflip
    · rename_i hp
      refine .inr ⟨?_, .none, rfl⟩
      simpa [slrBusy_eq, hp] using hb
  · exact .inl hflip
  · exact .inr ⟨hp, eff, rfl⟩
  · exact .inl rfl

/-- A row step goes to the next row, or past the last one to the flip or the end (R303). -/
theorem rowInRange_of_runRow {eff : Filter} {s t : State} (hrow : s.slr.row < s.slr.height.toNat)
    (hp : s.slr.phase = .rows) (ht : t.slr = (runRow eff s).slr) : t.RowInRange := by
  obtain ⟨-, -, hslr⟩ := runRow_frame eff s
  rw [State.RowInRange, ht, hslr]
  dsimp only
  split_ifs with hlast hflip
  · exact ⟨nofun, fun _ => ⟨hlast, hflip⟩⟩
  · exact ⟨nofun, nofun⟩
  · rw [hp]
    exact ⟨fun _ => by omega, nofun⟩

theorem slrOk_slrStep {s t : State} (hb : s.slrBusy = true) (hs : s.SlrOk) (h : slrStep s = .next t) : t.SlrOk := by
  obtain hend | ⟨hp, eff, hslr⟩ := slrStep_slr hb h
  · exact slrOk_of_idle hend
  have hok := hs hb
  have hc := slrConfined_slrStep hb h
  obtain ⟨-, -, hregs⟩ := runRow_frame eff s
  refine fun _ => slrRunOk_of_kept hok ⟨?_, hc.caps, fun hd => ?_⟩ (rowInRange_of_runRow (hok.inRows hp) hp hslr)
  · rw [hslr, hregs]
  · rw [hc.inf]
    exact ⟨slrStep_disturbed hb h ▸ hd, rfl, rfl⟩

/-- INF takes a step under a run of SLR only where the run is disturbed: else INF is DONE. -/
theorem slrOk_infStep {s t : State} (hb : s.infBusy = true) (hs : s.SlrOk) (h : infStep s = .next t) : t.SlrOk := by
  have ha := appendsOnly_infStep h
  refine slrOk_of_same_slr ha.slr ha.caps (fun _ hok hd => ?_) hs
  obtain ⟨hdone, -⟩ := hok.data (ha.disturbed ▸ hd)
  simp [State.infBusy, hdone] at hb

theorem slrOk_unitStep {s t : State} (hs : s.SlrOk) (h : unitStep s = .next t) : t.SlrOk := by
  obtain ⟨n, hturn⟩ := unitStep_turn h
  have hn : ({ s with draws := n } : State).SlrOk := slrOk_congr (s := s) rfl rfl rfl rfl rfl hs
  obtain ⟨hb, hinf⟩ | ⟨hb, hslr⟩ | rfl := hturn
  · exact slrOk_infStep hb hn hinf
  · exact slrOk_slrStep hb hn hslr
  · exact hn

/-! ### The moves of the host -/

/-- A START of INF disturbs the run of SLR in progress (R407; assumption 9). -/
theorem slrOk_startInf (zlib : Bool) {s : State} (hs : s.SlrOk) : (startInf zlib s).SlrOk := by
  refine slrOk_of_same_slr (s := s) rfl rfl (fun hb _ hd => ?_) hs
  simp [startInf, hb] at hd

/-- A START of SLR begins a run only where every check passes (R301). -/
theorem slrOk_startSlr (flip : Bool) (s : State) : (startSlr flip s).SlrOk := by
  unfold startSlr
  dsimp only
  rw [slrCheck_clearSlr]
  split
  · exact slrOk_of_idle rfl
  · rename_i hnone
    rw [slrCheck_eq] at hnone
    split_ifs at hnone with hdone hdims hpair hsizes
    obtain ⟨hw1, hw2, hh1, hh2⟩ := hdims
    obtain ⟨hneeded, himg, holen, hrow, hcap⟩ := hsizes
    exact fun _ => {
      width := ⟨hw1, hw2⟩
      height := ⟨hh1, hh2⟩
      channels := (legalPair_iff _ _).2 hpair
      sizes := ⟨hneeded, himg⟩
      capacities := ⟨hrow, hcap⟩
      imgLen := rfl
      inRows := fun _ => hh1
      inFlip := nofun
      data := fun _ => ⟨not_not.1 hdone, holen⟩ }

theorem slrOk_writeResult {v : Word} {s t : State} (hs : s.SlrOk) (h : WriteResult v s t) : t.SlrOk := by
  cases h with
  | ignored | zlib | inLen | outCap | diag => exact slrOk_congr (s := s) rfl rfl rfl rfl rfl hs
  | startInf => exact slrOk_startInf _ hs
  | startSlr => exact slrOk_startSlr _ s
  | flip idle | width idle | height idle | channels idle => exact slrOk_of_idle idle

/-- Settles O59: a START passes the checks; a row step stays in range; a step of INF under the run is one the host began, which
disturbs the run; every other step leaves what the checks looked at alone. -/
theorem stepKeepsSlrRun : Obligations.StepKeepsSlrRun := by
  unfold Obligations.StepKeepsSlrRun
  intro s t hs h
  change t.SlrOk
  obtain ⟨q, hcases⟩ := machineStep_cases h
  have hq : ({ s with hostQueue := q } : State).SlrOk := slrOk_congr (s := s) rfl rfl rfl rfl rfl hs
  obtain hunit | ⟨reg, v, rfl⟩ | ⟨sp, a, v, -, idle, -, rfl⟩ | rfl | rfl := hcases
  · exact slrOk_unitStep hq hunit
  · exact slrOk_writeResult hq (hostWrite_result reg v _)
  · exact slrOk_of_idle ((slrBusy_write ..).trans idle)
  · exact hq
  · exact slrOk_of_idle rfl

end Sys2Proof.Machine

/-! PROOFS for the family 45_expand_flip: the vertical flip (O37). -/

namespace Sys2Proof.Machine

theorem slrStep_flipping {s : State} (hd : s.disturbed = false) (hp : s.slr.phase = .flipping) :
    slrStep s = .next (flipStep s) := by
  simp [slrStep, hd, hp]

/-- Each row of IMG reads as its mirror row did (R347); the middle row of an odd height is its own mirror row. -/
theorem flipStep_read_row (s : State) {y k : Nat} (hy : y < s.slr.height.toNat) (hk : k < s.imgRow) :
    (flipStep s).read .img (y * s.imgRow + k) = s.read .img ((s.slr.height.toNat - 1 - y) * s.imgRow + k) := by
  obtain ⟨-, -, hrow⟩ := flipRows_spec (s.slr.height.toNat / 2) 0 s (by omega)
  refine (hrow y hy k hk).trans ?_
  split_ifs with hswapped
  · rfl
  · have hmiddle : s.slr.height.toNat - 1 - y = y := by omega
    rw [hmiddle]

theorem flipStep_height (s : State) : (flipStep s).slr.height = s.slr.height := (slrConfined_flipStep s).height

theorem flipStep_imgRow (s : State) : (flipStep s).imgRow = s.imgRow := by
  simp only [State.imgRow, flipStep_slr]

/-- A byte of IMG below `H*RB` is a byte of one of the `H` rows. -/
theorem exists_row_of_lt {s : State} {a : Nat} (h : a < s.slr.height.toNat * s.imgRow) :
    ∃ y < s.slr.height.toNat, ∃ k < s.imgRow, y * s.imgRow + k = a := by
  have hpos : 0 < s.imgRow := Nat.pos_of_mul_pos_left (Nat.zero_lt_of_lt h)
  exact ⟨a / s.imgRow, Nat.div_lt_of_lt_mul (Nat.mul_comm .. ▸ h), a % s.imgRow, Nat.mod_lt _ hpos, Nat.div_add_mod' ..⟩

/-- The mirror row of the mirror row is the row itself, and what lies outside the image is left alone both times. -/
theorem flipStep_flipStep_sameMemory (s : State) : SameMemory s (flipStep (flipStep s)) := by
  intro sp a
  by_cases hin : sp = .img ∧ a < s.slr.height.toNat * s.imgRow
  · obtain ⟨rfl, ha⟩ := hin
    obtain ⟨y, hy, k, hk, rfl⟩ := exists_row_of_lt ha
    have hsecond := flipStep_read_row (flipStep s) (y := y) (k := k) (by rwa [flipStep_height]) (by rwa [flipStep_imgRow])
    rw [flipStep_height, flipStep_imgRow] at hsecond
    have hmirror : s.slr.height.toNat - 1 - (s.slr.height.toNat - 1 - y) = y := by omega
    rw [hsecond, flipStep_read_row s (by omega) hk, hmirror]
  · rw [flipStep_read (flipStep s) sp a (by rwa [flipStep_height, flipStep_imgRow]), flipStep_read s sp a hin]

/-- Settles O37: `flipRows_spec` for the `H div 2` row pairs, and the mirror map of the rows is its own inverse. -/
theorem verticalFlip : Obligations.VerticalFlip := by
  unfold Obligations.VerticalFlip
  refine fun s => ⟨slrStep_flipping, fun y hy k hk => flipStep_read_row s hy hk, fun sp a hout => ?_, flipStep_slr s,
    flipStep_sameBesidesSlr s, flipStep_flipStep_sameMemory s⟩
  refine flipStep_read s sp a fun ⟨hsp, ha⟩ => hout ⟨hsp, a.zero_le, ?_⟩
  rwa [Nat.zero_add]

end Sys2Proof.Machine

/-! PROOFS for the family 60_exceptions: the entry of a fault (O38), what a faulting step leaves alone (O39), the diagnostic
register (O41). -/

namespace Sys2Proof.Machine

/-! ### Fault entry -/

theorem recordDiag_zero (f : FaultCode) : recordDiag f 0 = f.code := if_pos rfl

theorem recordDiag_of_ne_zero (f : FaultCode) {d : BitVec 8} (h : d ≠ 0) : recordDiag f d = d := if_neg h

theorem infFault_sameMemory (f : FaultCode) (s : State) : SameMemory s (infFault f s) :=
  State.read_congr (infFault_mem f s) (infFault_epoch f s) (infFault_spoils f s)

/-- Settles O38: the codes are those of the list, and the entry of a fault is one record update. -/
theorem faultEntry : Obligations.FaultEntry := by
  unfold Obligations.FaultEntry
  exact ⟨by decide, fun f s => ⟨⟨rfl, rfl, rfl, rfl, rfl, rfl, rfl, rfl, infFault_sameMemory f s⟩, rfl⟩⟩

/-! ### How a row of INF ends -/

/-- `t` is the entry of one of INF's faults, with `olen` and `diag` as they were in `s` (R370, R376). -/
def EndsInFault (s t : State) : Prop :=
  ∃ f u, f.ofInf = true ∧ u.inf.olen = s.inf.olen ∧ u.diag = s.diag ∧ t = infFault f u

/-- No fault is raised on the way from `s` to `t`, and as long as the element goes on nothing is appended to OUT. -/
structure Completes (s t : State) : Prop where
  phase : s.inf.phase ≠ .error → t.inf.phase ≠ .error
  diag : t.diag = s.diag
  olen : t.inf.sub ≠ .boundary → t.inf.olen = s.inf.olen

/-- A row, or the rows of an element so far, have raised a fault or none. -/
def RowEnds (s t : State) : Prop := EndsInFault s t ∨ Completes s t

theorem endsInFault_infFault {f : FaultCode} (hf : f.ofInf = true) (s : State) : EndsInFault s (infFault f s) :=
  ⟨f, s, hf, rfl, rfl, rfl⟩

theorem completes_setPhase {p : Phase} (hp : p ≠ .error) {s u : State} (hd : u.diag = s.diag) : Completes s (setPhase p u) :=
  ⟨fun _ => hp, hd, fun h => absurd rfl h⟩

theorem completes_blockEnd {s u : State} (hd : u.diag = s.diag) : Completes s (blockEnd u) := by
  unfold blockEnd
  split
  · exact completes_setPhase (by decide) hd
  · exact completes_setPhase (by decide) hd

/-- A change of INF's locals and tables alone. -/
theorem completes_congr {s t : State} (hp : t.inf.phase = s.inf.phase) (hd : t.diag = s.diag)
    (ho : t.inf.olen = s.inf.olen) : Completes s t :=
  ⟨fun h => by rwa [hp], hd, fun _ => ho⟩

theorem completes_endMatch {d : Nat} {s : State} (pos : 1 ≤ d) (reach : d ≤ s.inf.olen) : Completes s (endMatch d s) := by
  obtain ⟨hinf, -, -, hdiag, -⟩ := endMatch_inf pos reach
  exact ⟨fun h => by rwa [hinf], hdiag, fun h => absurd rfl h⟩

/-- A meaning that raises INF's faults only. -/
theorem rowEnds_infEnd {s t : State} {r : Except FaultCode State} (raises : ∀ e, r = .error e → e.ofInf = true)
    (completes : ∀ u, r = .ok u → Completes s u) (h : infEnd s r = .next t) : RowEnds s t := by
  obtain hok | ⟨f, hf, rfl⟩ := infEnd_eq_next.1 h
  · exact .inr (completes t hok)
  · exact .inl (endsInFault_infFault (raises f hf) s)

theorem execZhdr_ends {cmf flg : Byte} {s t : State} (h : execZhdr cmf flg s = .next t) : RowEnds s t := by
  refine rowEnds_infEnd (fun e he => ?_) (fun u hu => ?_) h
  · split_ifs at he <;> cases he <;> rfl
  · split_ifs at hu
    cases hu
    exact completes_setPhase (by decide) rfl

/-- A reserved header has written `final_seen` when it raises its fault (R183, R186). -/
theorem decodeBlk_ends {w : Nat} {i : Instr} {s t : State} (hi : decodeBlk w = some i) (h : exec i s = .next t) :
    RowEnds s t := by
  unfold decodeBlk at hi
  split at hi <;> cases hi <;> cases h
  · exact .inr (completes_setPhase (by decide) rfl)
  · exact .inr (completes_setPhase (by decide) rfl)
  · exact .inr (completes_setPhase (by decide) rfl)
  · exact .inl ⟨.invalidBlockType, setFinal _ s, rfl, rfl, rfl, rfl⟩

theorem execStoredData_ends {len nlen : BitVec 16} {s t : State} (h : execStoredData len nlen s = .next t) :
    RowEnds s t := by
  refine rowEnds_infEnd (fun e he => ?_) (fun u hu => ?_) h
  · split_ifs at he <;> cases he <;> rfl
  · split_ifs at hu
    cases hu
    obtain ⟨-, ⟨-, -, hdiag, -⟩, -⟩ := copyStored_spec len.toNat s
    exact completes_blockEnd hdiag

theorem execDyn_ends {hlit hdist : BitVec 5} {hclen : BitVec 4} {s t : State} (h : execDyn hlit hdist hclen s = .next t) :
    RowEnds s t := by
  unfold execDyn at h
  cases hr : readClLens (hclenCount hclen) 0 (List.replicate 19 0) s with
  | error f =>
    rw [hr] at h
    cases h
    exact .inl (endsInFault_infFault (readClLens_raises hr) s)
  | ok v =>
    obtain ⟨clLen, u⟩ := v
    simp only [hr] at h
    split at h
    · cases h
      exact .inl (endsInFault_infFault rfl s)
    · cases h
      rw [(readClLens_onlyReader hr).eq]
      exact .inr (completes_congr rfl rfl rfl)

theorem completes_addLengths {r : Nat} {v : BitVec 4} {s t : State} (h : addLengths r v s = .ok t) : Completes s t := by
  unfold addLengths at h
  dsimp only at h
  split_ifs at h
  · cases h
    exact completes_congr rfl rfl rfl
  · obtain ⟨ll, d, -, -, rfl⟩ := finishHeader_eq_ok h
    exact completes_setPhase (by decide) rfl

theorem decodeCl_ends {w x : Nat} {i : Instr} {s t : State} (hi : decodeCl w x = some i) (h : exec i s = .next t) :
    RowEnds s t := by
  obtain ⟨r, v, -, e⟩ | e := decodeCl_exec hi s <;> rw [e] at h
  · exact rowEnds_infEnd (fun _ => addLengths_raises) (fun _ => completes_addLengths) h
  · cases h
    exact .inl (endsInFault_infFault rfl s)

theorem execLit_ends {b : Byte} {s t : State} (hsub : s.inf.sub = .boundary) (h : execLit b s = .next t) :
    RowEnds s t := by
  refine rowEnds_infEnd (fun e he => ?_) (fun u hu => ?_) h
  · split_ifs at he
    cases he
    rfl
  · split_ifs at hu
    cases hu
    exact ⟨by simp, by simp, fun hgoes => absurd (by simpa using hsub) hgoes⟩

theorem decodeLL_ends {w x : Nat} {i : Instr} {s t : State} (hi : decodeLL w x = some i) (hsub : s.inf.sub = .boundary)
    (h : exec i s = .next t) : RowEnds s t := by
  unfold decodeLL at hi
  split_ifs at hi
  · cases hi
    exact execLit_ends hsub h
  · cases hi
    cases h
    exact .inr (completes_blockEnd rfl)
  · obtain ⟨base, e, -, he⟩ | he := decodeLen_exec hi <;> rw [he] at h <;> cases h
    · exact .inr (completes_congr rfl rfl rfl)
    · exact .inl (endsInFault_infFault rfl s)

theorem distanceToken_ends {base f : Nat} {s t : State} (pos : 1 ≤ base) (h : distanceToken base f s = .next t) :
    RowEnds s t := by
  unfold distanceToken at h
  cases hm : copyMatch s.inf.mlen (base + f) s with
  | error e =>
    rw [hm] at h
    cases h
    exact .inl (endsInFault_infFault (copyMatch_raises hm) s)
  | ok u =>
    rw [hm] at h
    cases h
    obtain ⟨reach, rfl⟩ := copyMatch_eq_ok hm
    exact .inr (completes_endMatch (by omega) reach)

theorem decodeDist_ends {w x : Nat} {i : Instr} {s t : State} (hi : decodeDist w x = some i) (h : exec i s = .next t) :
    RowEnds s t := by
  obtain ⟨base, f, pos, e⟩ | e := decodeDist_exec hi <;> rw [e] at h
  · exact distanceToken_ends pos h
  · cases h
    exact .inl (endsInFault_infFault rfl s)

theorem exec_ends {f : Format} {w x : Nat} {i : Instr} {s t : State} (hf : f ≠ .filt) (hf0 : f ≠ .filt0)
    (hsub : f = .llsym → s.inf.sub = .boundary) (hd : decode f w x = .ok i) (h : exec i s = .next t) : RowEnds s t := by
  have hi := decode_eq_ok.1 hd
  cases f with
  | zhdr =>
    obtain ⟨-, hi⟩ := Option.ite_none_right_eq_some.1 hi
    cases hi
    exact execZhdr_ends h
  | bhdr => exact decodeBlk_ends hi h
  | stored =>
    obtain ⟨-, hi⟩ := Option.ite_none_right_eq_some.1 hi
    cases hi
    exact execStoredData_ends h
  | dynhdr =>
    obtain ⟨-, hi⟩ := Option.ite_none_right_eq_some.1 hi
    cases hi
    exact execDyn_ends h
  | clsym => exact decodeCl_ends hi h
  | llsym => exact decodeLL_ends hi (hsub rfl) h
  | dsym => exact decodeDist_ends hi h
  | filt => exact absurd rfl hf
  | filt0 => exact absurd rfl hf0

theorem sub_of_infFormat_llsym {s : State} (h : s.infFormat = .llsym) : s.inf.sub = .boundary := by
  cases hs : s.inf.sub with
  | boundary => rfl
  | clTokens => cases (infFormat_of_clTokens hs).symm.trans h
  | distance => cases (infFormat_of_distance hs).symm.trans h

theorem rowEnds_onlyReader {s t u : State} (hr : OnlyReader s u) (h : RowEnds u t) : RowEnds s t := by
  rw [hr.eq] at h
  obtain hfault | ⟨hphase, hdiag, holen⟩ := h
  · exact .inl hfault
  · exact .inr ⟨hphase, hdiag, holen⟩

theorem infRow_ends {s t : State} (h : infRow s = .next t) : RowEnds s t := by
  unfold infRow at h
  cases hf : fetchInf s with
  | instr i u =>
    rw [hf] at h
    obtain ⟨w, x, hw, hd⟩ := fetchInf_instr hf
    have hr := fetchWord_onlyReader hw
    obtain ⟨hfilt, hfilt0⟩ := infFormat_ne_filt s
    refine rowEnds_onlyReader hr (exec_ends hfilt hfilt0 (fun hll => ?_) hd h)
    rw [hr.eq]
    exact sub_of_infFormat_llsym hll
  | raise e =>
    rw [hf] at h
    cases h
    exact .inl (endsInFault_infFault (fetchInf_raises hf) s)
  | refuse r =>
    rw [hf] at h
    cases h

/-- The rows before the last one of an element write nothing a fault would have to take back (R376). -/
theorem RowEnds.trans {s t u : State} (h : RowEnds s u) (hsub : u.inf.sub ≠ .boundary) (k : RowEnds u t) : RowEnds s t := by
  obtain ⟨f, v, -, -, -, rfl⟩ | h := h
  · exact absurd (infFault_sub f v) hsub
  have holen := h.olen hsub
  obtain ⟨f, v, hf, hv, hd, rfl⟩ | k := k
  · exact .inl ⟨f, v, hf, hv.trans holen, hd.trans h.diag, rfl⟩
  · exact .inr ⟨k.phase ∘ h.phase, k.diag.trans h.diag, fun ht => (k.olen ht).trans holen⟩

theorem infStep_ends {s t : State} (h : infStep s = .next t) : RowEnds s t :=
  infStep_induct (P := RowEnds s) (fun hs hsub hrow => hs.trans hsub (infRow_ends hrow)) (fun _ => infRow_ends) h

/-! ### A faulting step -/

/-- A step that may only append to OUT and appends nothing leaves memory alone. -/
theorem AppendsOnly.sameMemory {s t : State} (h : AppendsOnly s t) (ho : t.inf.olen = s.inf.olen) : SameMemory s t :=
  fun sp a => h.memory sp a fun ⟨_, hlo, hhi⟩ => by omega

theorem infStep_fault {s t : State} (hb : s.infBusy = true) (h : infStep s = .next t) (ht : t.inf.phase = .error) :
    EndsInFault s t :=
  (infStep_ends h).resolve_right fun hc => hc.phase (phase_ne_error_of_infBusy hb) ht

theorem runRow_phase_ne_error (eff : Filter) {s : State} (hp : s.slr.phase ≠ .error) :
    (runRow eff s).slr.phase ≠ .error := by
  obtain ⟨-, -, hslr⟩ := runRow_frame eff s
  rw [hslr]
  dsimp only
  split_ifs
  exacts [by decide, by decide, hp]

theorem flipStep_phase_ne_error (s : State) : (flipStep s).slr.phase ≠ .error := by
  rw [flipStep_slr]
  simp

/-- Only an illegal filter byte takes a busy SLR to ERROR (R305); a disturbed run raises no fault (R407). -/
theorem slrStep_fault {s t : State} (hb : s.slrBusy = true) (h : slrStep s = .next t) (ht : t.slr.phase = .error) :
    t = slrFault .invalidFilter s := by
  have hp : s.slr.phase ≠ .error := fun hp => by simp [State.slrBusy, hp] at hb
  obtain ⟨-, rfl⟩ | ⟨-, rfl⟩ | ⟨-, ⟨eff, rfl⟩ | rfl⟩ := slrStep_cases hb h
  · unfold disturbedStep at ht
    split at ht
    · exact absurd ht (flipStep_phase_ne_error s)
    · exact absurd ht (runRow_phase_ne_error .none hp)
  · exact absurd ht (flipStep_phase_ne_error s)
  · exact absurd ht (runRow_phase_ne_error eff hp)
  · rfl

/-- Settles O39: only the last row of an element of INF writes, and it raises its faults before it does; SLR's one fault is
raised in place of the row. -/
theorem faultingStepWritesNothing : Obligations.FaultingStepWritesNothing := by
  unfold Obligations.FaultingStepWritesNothing
  refine ⟨fun s t hb _ h ht => ?_, fun s t => slrStep_fault⟩
  have happ := appendsOnly_infStep h
  obtain ⟨f, u, hf, holen, hdiag, rfl⟩ := infStep_fault hb h ht
  refine ⟨happ.sameMemory holen, holen, happ.slr, f.code_range.1, of_decide_eq_true hf, ?_⟩
  rw [infFault_diag, hdiag]
  rfl

/-! ### The diagnostic register -/

theorem infStep_diag {s t : State} (h : infStep s = .next t) (hd : s.diag ≠ 0) : t.diag = s.diag := by
  obtain ⟨f, u, -, -, hu, rfl⟩ | hc := infStep_ends h
  · rw [infFault_diag, hu, recordDiag_of_ne_zero f hd]
  · exact hc.diag

theorem slrStep_diag {s t : State} (hb : s.slrBusy = true) (h : slrStep s = .next t) (hd : s.diag ≠ 0) :
    t.diag = s.diag := by
  refine slrStep_induct (P := fun u => u.diag = s.diag) hb h ?_ (fun eff => ?_) (fun _ hu => hu)
    (recordDiag_of_ne_zero _ hd)
  · obtain ⟨-, -, hdiag, -⟩ := flipStep_sameBesidesSlr s
    exact hdiag
  · obtain ⟨⟨-, -, hdiag, -⟩, -⟩ := runRow_frame eff s
    exact hdiag

theorem unitStep_diag {s t : State} (h : unitStep s = .next t) (hd : s.diag ≠ 0) : t.diag = s.diag := by
  obtain ⟨n, ⟨-, hinf⟩ | ⟨hb, hslr⟩ | rfl⟩ := unitStep_turn h
  · exact infStep_diag (s := { s with draws := n }) hinf hd
  · exact slrStep_diag (s := { s with draws := n }) hb hslr hd
  · rfl

theorem startSlr_diag (flip : Bool) {s : State} (hd : s.diag ≠ 0) : (startSlr flip s).diag = s.diag := by
  unfold startSlr
  dsimp only
  split
  · exact recordDiag_of_ne_zero _ hd
  · rfl

/-- Settles O41: a fault goes through `recordDiag`, and of the registers only DIAG writes `diag` itself. -/
theorem diagFirstFailure : Obligations.DiagFirstFailure := by
  unfold Obligations.DiagFirstFailure
  refine ⟨fun f s hd => ?_, fun s t => unitStep_diag, fun v s => ⟨?_, fun hd => ?_⟩, fun _ _ => rfl⟩
  · rw [infFault_diag, slrFault_diag, hd]
    exact ⟨recordDiag_zero f, recordDiag_zero f⟩
  · rw [hostWrite_infCtrl]
    split_ifs <;> rfl
  · rw [hostWrite_slrCtrl]
    split_ifs
    exacts [rfl, startSlr_diag _ hd, rfl]

end Sys2Proof.Machine

/-! PROOFS for the family 70_reset_and_hazards: INF restarted under a run of SLR (O44), register writes that are ignored (O51). -/

namespace Sys2Proof.Machine

/-! ### INF restarted under SLR -/

theorem startInf_infBusy (zlib : Bool) (s : State) : (startInf zlib s).infBusy = true := by
  cases zlib <;> rfl

theorem startInf_sameMemory (zlib : Bool) (s : State) : SameMemory s (startInf zlib s) := State.read_congr rfl rfl rfl

/-- In a run that the host has disturbed SLR never looks at the filter byte (R407, U6). -/
theorem slrStep_of_disturbed {s : State} (hd : s.disturbed = true) : slrStep s = .next (disturbedStep s) := if_pos hd

theorem disturbedStep_of_rows {s : State} (hp : s.slr.phase = .rows) : disturbedStep s = spoilRows (runRow .none s) := by
  simp [disturbedStep, hp]

theorem disturbedStep_of_flipping {s : State} (hp : s.slr.phase = .flipping) :
    disturbedStep s = spoilRows (flipStep s) := by
  simp [disturbedStep, hp]

theorem disturbedStep_diag_hostQueue (s : State) :
    (disturbedStep s).diag = s.diag ∧ (disturbedStep s).hostQueue = s.hostQueue := by
  unfold disturbedStep
  split
  · obtain ⟨-, -, hdiag, -, hqueue, -⟩ := flipStep_sameBesidesSlr s
    exact ⟨hdiag, hqueue⟩
  · obtain ⟨⟨-, -, hdiag, -, hqueue, -⟩, -⟩ := runRow_frame .none s
    exact ⟨hdiag, hqueue⟩

theorem disturbedStep_slr_of_rows {s : State} (hp : s.slr.phase = .rows) :
    (disturbedStep s).slr =
      { s.slr with
        row := s.slr.row + 1
        forcedTransparency := if s.slr.outCh = s.slr.rawCh then s.slr.forcedTransparency else true
        phase := if s.slr.row + 1 = s.slr.height.toNat then (if s.slr.flip then .flipping else .done) else .rows } := by
  obtain ⟨-, -, hslr⟩ := runRow_frame .none s
  rw [disturbedStep_of_rows hp, spoilRows_slr, hslr, hp]

theorem disturbedStep_slr_of_flipping {s : State} (hp : s.slr.phase = .flipping) :
    (disturbedStep s).slr = { s.slr with phase := .done } := by
  rw [disturbedStep_of_flipping hp, spoilRows_slr, flipStep_slr]

/-- Settles O44: the START is one record update of INF, and a step of the disturbed run is a row or the flip, which go on
whatever the filter byte, with SLR's own spaces spoiled. -/
theorem restartUnderSlr : Obligations.RestartUnderSlr := by
  unfold Obligations.RestartUnderSlr
  refine ⟨fun v s hi hs hv => ?_, fun s hd hb => ?_⟩
  · have hstart : hostWrite 0 v s = startInf (v.getLsbD 1) s := by
      rw [hostWrite_infCtrl, hi, hv]
      rfl
    have hdis : (startInf (v.getLsbD 1) s).disturbed = true := by
      simp [startInf, hs]
    rw [hstart]
    exact ⟨startInf_infBusy _ s, hdis, rfl, rfl, startInf_sameMemory _ s⟩
  · have h := slrStep_of_disturbed hd
    have hc := slrConfined_slrStep hb h
    obtain ⟨hinf, htabs⟩ := slrStep_inf_tabs hb h
    obtain ⟨hdiag, hqueue⟩ := disturbedStep_diag_hostQueue s
    exact ⟨_, h, (slrStep_disturbed hb h).trans hd, hinf, htabs, hdiag, hc.caps, hqueue,
      fun a => ⟨hc.inn a, slrStep_read_out hb h a⟩, disturbedStep_slr_of_rows, disturbedStep_slr_of_flipping⟩

/-! ### Register writes that are ignored (R411) -/

/-- Settles O51: the writable registers are guarded by their unit's BUSY, and a write of the others has no effect. -/
theorem busyWritesIgnored : Obligations.BusyWritesIgnored := by
  unfold Obligations.BusyWritesIgnored
  intro v s
  simp only [List.forall_mem_cons, List.not_mem_nil, false_implies, implies_true, and_true]
  have hinf (hb : s.infBusy = true) : hostWrite 0 v s = s ∧ hostWrite 3 v s = s ∧ hostWrite 4 v s = s :=
    ⟨if_pos hb, if_pos hb, if_pos hb⟩
  have hslr (hb : s.slrBusy = true) :
      hostWrite 8 v s = s ∧ hostWrite 11 v s = s ∧ hostWrite 12 v s = s ∧ hostWrite 13 v s = s :=
    ⟨if_pos hb, if_pos hb, if_pos hb, if_pos hb⟩
  exact ⟨hinf, hslr, rfl, rfl, rfl, rfl, rfl, rfl, rfl, rfl⟩

end Sys2Proof.Machine
